-- ==== Sys2Proof/Word.lean ====
section
/-! DEFINITION. The widths of the QPC's data (spec 00_scope R8, R10, R11; 10_state R16). -/

namespace Sys2Proof

/-- A 32-bit register or a `CBUF` element (R16, R35). -/
abbrev Word := BitVec 32

/-- A `BBUF` element (R35). -/
abbrev Byte := BitVec 8

/-- The carrier of an `FMT` datum (R8). `binary64` uses all 64 bits; `binary32` uses bits 31:0 and keeps
bits 63:32 zero (log entry 2). It is also the width of the data lines of the host port. -/
abbrev Datum := BitVec 64

end Sys2Proof
end

