-- ==== Sys2Proof/Config.lean ====
section
/-! DEFINITION. What an implementation of the QPC fixes (spec 00_scope R8, R9) and the free values: what the
spec leaves unspecified (spec 93_implementation_defined U1, U3) or does not define. A free value is an
opaque constant without a body, so that no proof can see what it is. -/

namespace Sys2Proof

/-- The floating-point format `FMT` of every value, bound and step (R8). -/
inductive Fmt where
  | binary64
  | binary32
deriving DecidableEq, Repr

/-- `W`, the width of an `FMT` datum (R8). -/
def Fmt.width : Fmt → Nat
  | .binary64 => 64
  | .binary32 => 32

/-- The named parameters of a part (R8, R9): the format and the element count of `VBUF` and `CBUF`. -/
structure Params where
  fmt : Fmt
  maxCount : Nat
deriving DecidableEq, Repr

/-- The range of `MAX_COUNT`: `1 ≤ MAX_COUNT ≤ 2^30 - 1` (R9). -/
def Params.wf (p : Params) : Bool := decide (1 ≤ p.maxCount ∧ p.maxCount ≤ 2 ^ 30 - 1)

/-- The part that `State.reset` describes: the spec's default format (R8) and a `MAX_COUNT` that runs the
source's cross-width test of 1000 values (R9). DESIGN CHOICE for `MAX_COUNT`, unsafe: log entry 1. -/
def Params.standard : Params := { fmt := .binary64, maxCount := 1024 }

/-- The four rounded operations, to tell apart the NaNs they produce. -/
inductive FpOp where
  | add
  | sub
  | mul
  | div
deriving DecidableEq, Repr

/-- The byte that draw number `draw` puts at index `i` of `BBUF` (R34, R87; U1, U3). Free value: log entry 3. -/
opaque Config.freeByte (draw i : Nat) : Byte

/-- The code that draw number `draw` puts at index `i` of `CBUF` (R34; U1). Free value: log entry 3. -/
opaque Config.freeCode (draw i : Nat) : Word

/-- The datum that draw number `draw` puts at index `i` of `VBUF` (R34; U1). Free value: log entry 3. -/
opaque Config.freeDatum (draw i : Nat) : Datum

/-- Sign and payload of the NaN an invalid operation answers; the spec gives none. Free value: log entry 9. -/
opaque Config.nanBits (op : FpOp) (a b : Datum) : Datum

/-- `fp_floor_nat(q)` where R13 does not define it (`q` a NaN, infinite or negative). Free value: log entry 9. -/
opaque Config.floorOutside (q : Datum) : Nat

end Sys2Proof
end

