-- ==== Sys2Proof/Syntax.lean ====
section
/-! DEFINITION. The syntax of the QPC: its nine commands (spec 30_encoding R54), the fields of a command word
(R52), its registers and buffer spaces (10_state R17, 20_memory R35), what the host can do at the port (R16,
R36, R59) and the pseudo-operations of host programs (R60). -/

namespace Sys2Proof

/-- The nine commands, one constructor per row of the opcode table (R54). No command word names an operand:
every operand is in a register or a buffer (R57), so no constructor has an argument. -/
inductive Instr where
  | cfg
  | qenc
  | qdec
  | pack
  | unpack
  | unpacki
  | encode
  | decode
  | decodei
deriving DecidableEq, Repr

/-- The fields of a command word (R52): `OP` in bits 7:0, `I` in bit 8, `RSV` in bits 31:9. -/
structure CmdFields where
  op : BitVec 8
  infer : Bool
  rsv : BitVec 23
deriving DecidableEq, Repr

/-- Why a command word is illegal (R55, R56): a reserved bit is set; the infer flag is set with an operation
that has no infer form; the operation code is none of 0x01 to 0x07. -/
inductive Illegal where
  | reservedBits
  | inferFlag
  | unknownOp
deriving DecidableEq, Repr

/-- The registers of the register map (R17). -/
inductive Reg where
  | cmd | status | errIdx | nMin | nMax
  | setN | setLb | setUb | setMap
  | n | lb | ub | map | step | clb | cub
  | count | blen | curByte | curBit | sv | sc
deriving DecidableEq, Repr

/-- The three buffer spaces (R35). -/
inductive Space where
  | vbuf
  | cbuf
  | bbuf
deriving DecidableEq, Repr

/-- One transaction at the host port (R16, R36, R59). A register is named by its number `0x00` to `0x3F`; a
buffer element by its space and index. The data lines are as wide as the widest datum (log entry 10). -/
inductive Access where
  | regWrite (num : BitVec 6) (v : Datum)
  | regRead (num : BitVec 6)
  | bufWrite (sp : Space) (i : Nat) (v : Datum)
  | bufRead (sp : Space) (i : Nat)
deriving DecidableEq, Repr

/-- Who moves next: the host makes one access, the command engine takes its turn, or reset is asserted (R14,
R98). A list of events is one interleaving of the two agents: log entry 7. -/
inductive Event where
  | access (a : Access)
  | engine
  | reset
deriving DecidableEq, Repr

/-- The pseudo-operations of host programs (R60). -/
inductive Pseudo where
  | wait
  | run (i : Instr)
  | cfgset (n : Word) (lb ub : Datum) (map : Word)
  | check
deriving DecidableEq, Repr

end Sys2Proof
end

