-- ==== Sys2Proof/WellFormed.lean ====
section
/-! DEFINITION. Well-formedness: the checks of a command word's fields (spec 30_encoding R52, R55). -/

namespace Sys2Proof

/-- The reserved bits 31:9 must be 0 (R52). -/
def CmdFields.rsvOk (c : CmdFields) : Bool := c.rsv == 0

/-- The infer flag is legal only with `OP` = 0x05 and `OP` = 0x07 (R52). -/
def CmdFields.inferOk (c : CmdFields) : Bool := !c.infer || c.op == 0x05 || c.op == 0x07

/-- The operation codes 0x01 to 0x07 (R55). -/
def CmdFields.opOk (c : CmdFields) : Bool := decide (1 ≤ c.op.toNat ∧ c.op.toNat ≤ 7)

/-- A well-formed command word: all three checks. -/
def CmdFields.wf (c : CmdFields) : Bool := c.rsvOk && c.inferOk && c.opOk

/-- The fields of each command's row (R54). -/
def Instr.fields : Instr → CmdFields
  | .cfg => { op := 0x01, infer := false, rsv := 0 }
  | .qenc => { op := 0x02, infer := false, rsv := 0 }
  | .qdec => { op := 0x03, infer := false, rsv := 0 }
  | .pack => { op := 0x04, infer := false, rsv := 0 }
  | .unpack => { op := 0x05, infer := false, rsv := 0 }
  | .unpacki => { op := 0x05, infer := true, rsv := 0 }
  | .encode => { op := 0x06, infer := false, rsv := 0 }
  | .decode => { op := 0x07, infer := false, rsv := 0 }
  | .decodei => { op := 0x07, infer := true, rsv := 0 }

/-- A command is well-formed when its fields are. No command has an operand (R57), so every one is. -/
def Instr.wf (i : Instr) : Bool := i.fields.wf

end Sys2Proof
end

