-- ==== Sys2Proof/Decode.lean ====
section
/-! DEFINITION. Decoding and encoding of command words (spec 30_encoding R52 to R56) and of register numbers
(spec 10_state R17). -/

namespace Sys2Proof

/-- The fields of a command word, by their bit positions (R52). -/
def fieldsOf (w : Word) : CmdFields :=
  { op := w.extractLsb' 0 8, infer := w.getLsbD 8, rsv := w.extractLsb' 9 23 }

/-- `Decode(w)` (R55): total on every 32-bit word, an illegal word rejected by name (R56). -/
def decode (w : Word) : Except Illegal Instr :=
  let c := fieldsOf w
  if c.rsv ≠ 0 then .error .reservedBits
  else if c.infer = true ∧ c.op ≠ 0x05 ∧ c.op ≠ 0x07 then .error .inferFlag
  else
    match c.op.toNat with
    | 0x01 => .ok .cfg
    | 0x02 => .ok .qenc
    | 0x03 => .ok .qdec
    | 0x04 => .ok .pack
    | 0x05 => if c.infer then .ok .unpacki else .ok .unpack
    | 0x06 => .ok .encode
    | 0x07 => if c.infer then .ok .decodei else .ok .decode
    | _ => .error .unknownOp

/-- The word of a command (R54): its fields, laid out as R52 says. -/
def encode (i : Instr) : Word :=
  let c := i.fields
  c.rsv ++ (BitVec.ofBool c.infer ++ c.op)

/-- The instruction that the decoder reads from the bits `w` of an instruction of `nbits` bits (R53: every
command is exactly 32 bits). The word is written to `CMD` whole, so it has no byte order (R42). -/
def decodeTableWord (nbits w : Nat) : Option Instr :=
  match decode (BitVec.ofNat 32 (w % 2 ^ nbits)) with
  | .ok i => some i
  | .error _ => none

/-- The register a number names (R17); `none` for a reserved number. -/
def Reg.ofNumber (num : BitVec 6) : Option Reg :=
  match num.toNat with
  | 0x00 => some .cmd
  | 0x01 => some .status
  | 0x02 => some .errIdx
  | 0x03 => some .nMin
  | 0x04 => some .nMax
  | 0x08 => some .setN
  | 0x09 => some .setLb
  | 0x0A => some .setUb
  | 0x0B => some .setMap
  | 0x10 => some .n
  | 0x11 => some .lb
  | 0x12 => some .ub
  | 0x13 => some .map
  | 0x14 => some .step
  | 0x15 => some .clb
  | 0x16 => some .cub
  | 0x18 => some .count
  | 0x19 => some .blen
  | 0x1A => some .curByte
  | 0x1B => some .curBit
  | 0x1C => some .sv
  | 0x1D => some .sc
  | _ => none

/-- The number of a register (R17). -/
def Reg.number : Reg → BitVec 6
  | .cmd => 0x00
  | .status => 0x01
  | .errIdx => 0x02
  | .nMin => 0x03
  | .nMax => 0x04
  | .setN => 0x08
  | .setLb => 0x09
  | .setUb => 0x0A
  | .setMap => 0x0B
  | .n => 0x10
  | .lb => 0x11
  | .ub => 0x12
  | .map => 0x13
  | .step => 0x14
  | .clb => 0x15
  | .cub => 0x16
  | .count => 0x18
  | .blen => 0x19
  | .curByte => 0x1A
  | .curBit => 0x1B
  | .sv => 0x1C
  | .sc => 0x1D

end Sys2Proof
end

