-- ==== Sys2Proof/Machine/State.lean ====
section
/-! DEFINITION. The state of the QPC as plain data (spec 10_state R14 to R34, 20_memory R35), its faults and
refusals, and the state after reset (10_state R33, R34; 70_reset_and_hazards R98). -/

namespace Sys2Proof.Machine

/-- The fields of `STATUS` (R19). Its reserved bits are not state: they read as 0. -/
structure Status where
  busy : Bool
  cfgValid : Bool
  err : Bool
  ecode : BitVec 8
deriving DecidableEq, Repr

/-- The active configuration, the source's CodecConfig (R25). -/
structure CodecConfig where
  n : Word
  lb : Datum
  ub : Datum
  map : Word
  step : Datum
  clb : Word
  cub : Word
deriving DecidableEq, Repr

/-- A buffer memory as (element index, element) pairs with strictly rising indices (R35). An index that is
not listed has not been written since reset; what it holds is a free value (R34, log entry 3). For `BBUF` this
type is `List Host.Cell`. -/
abbrev Memory (w : Nat) := List (Nat × BitVec w)

/-- The state of the machine. The last five fields and `params` are the model's own: see INVENTORY.md. -/
structure State where
  /-- the part's parameters `FMT` and `MAX_COUNT` (R8, R9; log entry 1) -/
  params : Params
  /-- `CMD` (R18) -/
  cmd : Word
  /-- `STATUS` (R19) -/
  status : Status
  /-- `ERRIDX` (R20) -/
  errIdx : Word
  /-- `SET_N` (R22) -/
  setN : Word
  /-- `SET_LB` (R23) -/
  setLb : Datum
  /-- `SET_UB` (R23) -/
  setUb : Datum
  /-- `SET_MAP` (R24) -/
  setMap : Word
  /-- `N`, `LB`, `UB`, `MAP`, `STEP`, `CLB`, `CUB` (R25) -/
  cfg : CodecConfig
  /-- `COUNT` (R27) -/
  count : Word
  /-- `BLEN` (R28) -/
  blen : Word
  /-- `CUR_BYTE` (R29) -/
  curByte : Word
  /-- `CUR_BIT` (R29) -/
  curBit : Word
  /-- `SV` (R30) -/
  sv : Datum
  /-- `SC` (R30) -/
  sc : Word
  /-- `VBUF` (R31, R35) -/
  vbuf : Memory 64
  /-- `CBUF` (R31, R35) -/
  cbuf : Memory 32
  /-- `BBUF` (R31, R35) -/
  bbuf : List Host.Cell
  /-- the number of the draw that filled the buffers at the last reset (R34; log entry 3) -/
  epoch : Nat
  /-- the number of the next draw of unspecified bytes (R87; log entry 4) -/
  draws : Nat
  /-- the interleaving of host and engine still to come (R14, R47; log entry 7) -/
  script : List Event
  /-- what the host has read at the port, the latest first (R16, R36; log entry 8) -/
  reads : List Datum
deriving DecidableEq, Repr

/-- Why the machine stops. Both are host protocol violations, to which the spec gives no response of the
hardware (R101); nothing else in the spec stops the machine. -/
inductive Fault where
  /-- Raised by the host port: an access other than a read of `STATUS` while `BUSY = 1` (R101, R18, R36; U4).
  Safe: the machine stops where the spec says nothing of what follows. -/
  | hostBusy (a : Access)
  /-- Raised by the host port: a buffer access with an index outside the space (R36, R101; U5). Safe, for the
  same reason. -/
  | hostIndex (sp : Space) (i : Nat)
deriving DecidableEq, Repr

/-- Why an instruction is refused. -/
inductive Refusal where
  /-- The instruction of that mnemonic has no meaning in this model. No arm of `exec` answers it. Safe. -/
  | notModelled (mnemonic : String)
deriving DecidableEq, Repr

/-- The active configuration registers after reset (R33). -/
def CodecConfig.zero : CodecConfig :=
  { n := 0, lb := 0, ub := 0, map := 0, step := 0, clb := 0, cub := 0 }

/-- A part with parameters `p` right after reset (R33, R34, R98): every register at its value in R33, nothing
listed in any buffer. The host has no access pending and has read nothing. -/
def State.resetOf (p : Params) : State :=
  { params := p
    cmd := 0
    status := { busy := false, cfgValid := false, err := false, ecode := 0 }
    errIdx := 0
    setN := 0
    setLb := 0
    setUb := 0
    setMap := 0
    cfg := CodecConfig.zero
    count := 0
    blen := 0
    curByte := 0
    curBit := 0
    sv := 0
    sc := 0
    vbuf := []
    cbuf := []
    bbuf := []
    epoch := 0
    draws := 1
    script := []
    reads := [] }

/-- The machine right after reset (R98), for the part of log entry 1. -/
def State.reset : State := State.resetOf Params.standard

end Sys2Proof.Machine
end

