-- ==== Sys2Proof/Machine/Fp.lean ====
section
/-! DEFINITION. The floating-point primitives (spec 00_scope R13): IEEE 754 operations on `FMT` bit patterns,
rounded to nearest with ties to even, subnormals kept, nothing fused.

Every finite datum is a whole number of units, the unit being the least positive subnormal. An operation is
computed exactly on whole numbers of units and rounded once, so that the exact result and the rounded one can
be held side by side. The meanings are IEEE 754's, as R13 says (93_implementation_defined G1, G2; log entry
12, PRESUMED). -/

namespace Sys2Proof.Fp

/-- Bits of the fraction field (R13). -/
def fracBits : Fmt → Nat
  | .binary64 => 52
  | .binary32 => 23

/-- Bits of the exponent field (R13). -/
def expBits : Fmt → Nat
  | .binary64 => 11
  | .binary32 => 8

/-- `1.0` is `2 ^ unitExp` units: the bias less one plus the fraction bits. -/
def unitExp : Fmt → Nat
  | .binary64 => 1074
  | .binary32 => 149

/-- The exponent field of infinities and NaNs: all ones. -/
def expMax (f : Fmt) : Nat := 2 ^ expBits f - 1

/-- The place of the sign bit. -/
def signBit (f : Fmt) : Nat := f.width - 1

/-- The `W` bits of a datum (R8). -/
def trunc (f : Fmt) (a : Datum) : Datum := BitVec.ofNat 64 (a.toNat % 2 ^ f.width)

def sign (f : Fmt) (a : Datum) : Bool := a.getLsbD (signBit f)

def expField (f : Fmt) (a : Datum) : Nat := (a.toNat >>> fracBits f) % 2 ^ expBits f

def fracField (f : Fmt) (a : Datum) : Nat := a.toNat % 2 ^ fracBits f

def isNan (f : Fmt) (a : Datum) : Bool := expField f a == expMax f && fracField f a != 0

def isInf (f : Fmt) (a : Datum) : Bool := expField f a == expMax f && fracField f a == 0

def isFinite (f : Fmt) (a : Datum) : Bool := expField f a != expMax f

/-- The magnitude of a finite datum, in units. -/
def mag (f : Fmt) (a : Datum) : Nat :=
  if expField f a = 0 then fracField f a
  else (2 ^ fracBits f + fracField f a) <<< (expField f a - 1)

/-- The value of a finite datum, in units. -/
def units (f : Fmt) (a : Datum) : Int := if sign f a then -(mag f a : Int) else mag f a

/-- The pattern with sign `neg` and the exponent and fraction fields of the number `m`. -/
def withSign (f : Fmt) (neg : Bool) (m : Nat) : Datum :=
  BitVec.ofNat 64 ((if neg then 2 ^ signBit f else 0) + m)

/-- The exponent and fraction fields of an infinity. -/
def infMag (f : Fmt) : Nat := expMax f * 2 ^ fracBits f

/-- A NaN: exponent all ones, quiet bit set, the rest free (log entry 9). -/
def nan (f : Fmt) (op : FpOp) (a b : Datum) : Datum :=
  withSign f ((Config.nanBits op a b).getLsbD 63)
    (infMag f + 2 ^ (fracBits f - 1) + (Config.nanBits op a b).toNat % 2 ^ (fracBits f - 1))

/-- The exponent and fraction fields of the datum nearest to `num / den` units, ties to even, and those of an
infinity where that datum is too large for the format. Consecutive data near the value lie `2 ^ e` units apart;
a carry out of the fraction runs into the exponent field, as the interchange encoding is made to let it. -/
def roundMag (f : Fmt) (num den : Nat) : Nat :=
  let e := Nat.log2 (num / den) - fracBits f
  let d := den * 2 ^ e
  let m := num / d
  let r := num % d
  let up := decide (d < 2 * r) || (decide (2 * r = d) && m % 2 == 1)
  min (e * 2 ^ fracBits f + (if up then m + 1 else m)) (infMag f)

/-- The other sign; the rest of the pattern as it is. -/
def neg (f : Fmt) (a : Datum) : Datum := a ^^^ BitVec.ofNat 64 (2 ^ signBit f)

/-- `+0.0` (R13). -/
def zero : Datum := 0

/-- The sum, for the operation `op` that asks for it (R13). An exact zero sum is `-0` only if both operands are. -/
def sum (f : Fmt) (op : FpOp) (a b : Datum) : Datum :=
  if isNan f a || isNan f b then nan f op a b
  else if isInf f a then
    if isInf f b && sign f a != sign f b then nan f op a b else withSign f (sign f a) (infMag f)
  else if isInf f b then withSign f (sign f b) (infMag f)
  else
    let u := units f a + units f b
    if u = 0 then withSign f (sign f a && sign f b) 0
    else withSign f (decide (u < 0)) (roundMag f u.natAbs 1)

/-- `fp_add` (R13). -/
def add (f : Fmt) (a b : Datum) : Datum := sum f .add a b

/-- `fp_sub` (R13). -/
def sub (f : Fmt) (a b : Datum) : Datum := sum f .sub a (neg f b)

/-- `fp_mul` (R13). -/
def mul (f : Fmt) (a b : Datum) : Datum :=
  let s := sign f a != sign f b
  if isNan f a || isNan f b then nan f .mul a b
  else if isInf f a || isInf f b then
    if (isFinite f a && mag f a == 0) || (isFinite f b && mag f b == 0) then nan f .mul a b
    else withSign f s (infMag f)
  else withSign f s (roundMag f (mag f a * mag f b) (2 ^ unitExp f))

/-- `fp_div` (R13). -/
def div (f : Fmt) (a b : Datum) : Datum :=
  let s := sign f a != sign f b
  if isNan f a || isNan f b then nan f .div a b
  else if isInf f a then
    if isInf f b then nan f .div a b else withSign f s (infMag f)
  else if isInf f b then withSign f s 0
  else if mag f b = 0 then
    if mag f a = 0 then nan f .div a b else withSign f s (infMag f)
  else withSign f s (roundMag f (mag f a * 2 ^ unitExp f) (mag f b))

/-- The place of a datum that is no NaN in the order of the data; `+0` and `-0` have one place. -/
def ord (f : Fmt) (a : Datum) : Int :=
  let m : Nat := a.toNat % 2 ^ signBit f
  if sign f a then -(m : Int) else m

/-- `fp_lt` (R13). -/
def lt (f : Fmt) (a b : Datum) : Bool := !isNan f a && !isNan f b && decide (ord f a < ord f b)

/-- `fp_le` (R13). -/
def le (f : Fmt) (a b : Datum) : Bool := !isNan f a && !isNan f b && decide (ord f a ≤ ord f b)

/-- `fp_ge` (R13). -/
def ge (f : Fmt) (a b : Datum) : Bool := !isNan f a && !isNan f b && decide (ord f b ≤ ord f a)

/-- `fp_eq` (R13). -/
def eq (f : Fmt) (a b : Datum) : Bool := !isNan f a && !isNan f b && decide (ord f a = ord f b)

/-- `fp_from_nat` (R13): the natural number `k`, rounded. -/
def fromNat (f : Fmt) (k : Nat) : Datum := withSign f false (roundMag f (k * 2 ^ unitExp f) 1)

/-- `fp_pow2` (R13): `2^k`, which rounding leaves exact for `k ≤ 32`. -/
def pow2 (f : Fmt) (k : Nat) : Datum := fromNat f (2 ^ k)

/-- `fp_floor_nat` (R13): the floor of a finite `q ≥ 0`, `-0` included. Elsewhere R13 does not define it: free
value (log entry 9). -/
def floorNat (f : Fmt) (q : Datum) : Nat :=
  if isFinite f q && decide (0 ≤ ord f q) then mag f q >>> unitExp f else Config.floorOutside q

end Sys2Proof.Fp
end

