-- ==== Sys2Proof/Machine/Flags.lean ====
section
/-! DEFINITION. The flags of the QPC: the fields of `STATUS` (spec 10_state R19), the error codes (60_exceptions
R85) and what a completion writes (R86). There are no other flags (10_state R15). -/

namespace Sys2Proof.Machine

/-- The errors a command can report (R85). -/
inductive ErrCode where
  | configError
  | bufferTooShort
  | countError
  | notConfigured
  | invalidInput
  | codeRange
  | illegalCommand
  | capacity
deriving DecidableEq, Repr

/-- `code(E)`: the number reported in `STATUS.ECODE` (R85). -/
def ErrCode.code : ErrCode → BitVec 8
  | .configError => 1
  | .bufferTooShort => 2
  | .countError => 3
  | .notConfigured => 4
  | .invalidInput => 5
  | .codeRange => 6
  | .illegalCommand => 7
  | .capacity => 8

/-- `STATUS` as the host reads it (R19): BUSY in bit 0, CFG_VALID in bit 1, ERR in bit 2, ECODE in bits 15:8,
the reserved bits 7:3 and 31:16 zero. -/
def Status.toWord (st : Status) : Word :=
  (0 : BitVec 16) ++ (st.ecode ++ ((0 : BitVec 5) ++ (BitVec.ofBool st.err ++ (BitVec.ofBool st.cfgValid ++ BitVec.ofBool st.busy))))

/-- The `CMD` write that starts a command sets BUSY (R18). -/
def Status.started (st : Status) : Status := { st with busy := true }

/-- A completion with success (R86). -/
def Status.succeeded (st : Status) : Status := { st with busy := false, err := false, ecode := 0 }

/-- A completion with error `e` (R86). -/
def Status.failed (st : Status) (e : ErrCode) : Status := { st with busy := false, err := true, ecode := e.code }

/-- A successful CFG (R26). -/
def Status.configured (st : Status) : Status := { st with cfgValid := true }

end Sys2Proof.Machine
end

