-- ==== Sys2Proof/Machine/Operands.lean ====
section
/-! DEFINITION. The operands of commands and of the host port: buffer elements by index (spec 00_scope R12,
20_memory R35 to R37), registers by number (10_state R16, R17), and the sizes every stream command computes
(30_encoding R57). -/

namespace Sys2Proof.Machine

/-- The element stored at an index, `none` if nothing has been written there since reset. -/
def Memory.lookup {w : Nat} : Memory w → Nat → Option (BitVec w)
  | [], _ => none
  | (i, v) :: m, a => if a = i then some v else Memory.lookup m a

/-- Store an element, keeping the indices strictly rising. -/
def Memory.store {w : Nat} : Memory w → Nat → BitVec w → Memory w
  | [], a, x => [(a, x)]
  | (i, v) :: m, a, x =>
    if a < i then (a, x) :: (i, v) :: m
    else if a = i then (a, x) :: m
    else (i, v) :: Memory.store m a x

/-- Store a list of elements at consecutive indices from `a`, in order. -/
def Memory.storeAll {w : Nat} (m : Memory w) (a : Nat) : List (BitVec w) → Memory w
  | [] => m
  | x :: xs => Memory.storeAll (Memory.store m a x) (a + 1) xs

/-- Every index of `m` is at least `lo`, and they rise strictly. -/
def Memory.risesFrom {w : Nat} (lo : Nat) : Memory w → Bool
  | [] => true
  | (i, _) :: m => decide (lo ≤ i) && Memory.risesFrom (i + 1) m

/-- The canonical form: strictly rising indices. An index that is not listed holds no stored value at all, so
no entry can equal what such an index reads as (log entry 5). -/
def Memory.wf {w : Nat} (m : Memory w) : Bool := Memory.risesFrom 0 m

/-- Every index of `m` is inside a space of `cap` elements (R35). -/
def Memory.within {w : Nat} (cap : Nat) (m : Memory w) : Bool := m.all fun c => decide (c.1 < cap)

/-- `ceil_div` (00_scope R11). -/
def ceilDiv (a b : Nat) : Nat := (a + b - 1) / b

/-- `MAX_BYTES` (00_scope R9). -/
def maxBytes (p : Params) : Nat := 4 * p.maxCount

/-- The number of elements of a space (R35). -/
def capacity (p : Params) : Space → Nat
  | .vbuf => p.maxCount
  | .cbuf => p.maxCount
  | .bbuf => maxBytes p

/-- `MemRead(VBUF, i)` (R12); an element nothing has written since reset holds a free value (R34). -/
def State.valueAt (s : State) (i : Nat) : Datum :=
  (Memory.lookup s.vbuf i).getD (Fp.trunc s.params.fmt (Config.freeDatum s.epoch i))

/-- `MemRead(CBUF, i)` (R12); an element nothing has written since reset holds a free value (R34). -/
def State.codeAt (s : State) (i : Nat) : Word :=
  (Memory.lookup s.cbuf i).getD (Config.freeCode s.epoch i)

/-- `MemRead(BBUF, i)` (R12); an element nothing has written since reset holds a free value (R34). -/
def State.byteAt (s : State) (i : Nat) : Byte :=
  (Memory.lookup (w := 8) s.bbuf i).getD (Config.freeByte s.epoch i)

/-- Element `i` of a space on the data lines of the port, zero-extended (R36). -/
def State.elementAt (s : State) (sp : Space) (i : Nat) : Datum :=
  match sp with
  | .vbuf => s.valueAt i
  | .cbuf => (s.codeAt i).setWidth 64
  | .bbuf => (s.byteAt i).setWidth 64

/-- `HostBufWrite(S, i, v)` for an index in range (R36): the element takes as many low bits of the data lines as
it has (log entry 10). -/
def State.storeElement (s : State) (sp : Space) (i : Nat) (v : Datum) : State :=
  match sp with
  | .vbuf => { s with vbuf := Memory.store s.vbuf i (Fp.trunc s.params.fmt v) }
  | .cbuf => { s with cbuf := Memory.store s.cbuf i (v.setWidth 32) }
  | .bbuf => { s with bbuf := Memory.store (w := 8) s.bbuf i (v.setWidth 8) }

/-- `StreamBit(s)` (R38): stream bit `k` of `BBUF`, most-significant bit of each byte first. -/
def State.streamBit (s : State) (k : Nat) : Bool := (s.byteAt (k / 8)).getLsbD (7 - k % 8)

/-- `x[NAME]` (00_scope R12), zero-extended to the data lines of the port. `NMIN` and `NMAX` are constants (R21).
A read has no side effect (R16). -/
def State.readReg (s : State) : Reg → Datum
  | .cmd => s.cmd.setWidth 64
  | .status => s.status.toWord.setWidth 64
  | .errIdx => s.errIdx.setWidth 64
  | .nMin => 8
  | .nMax => 32
  | .setN => s.setN.setWidth 64
  | .setLb => s.setLb
  | .setUb => s.setUb
  | .setMap => s.setMap.setWidth 64
  | .n => s.cfg.n.setWidth 64
  | .lb => s.cfg.lb
  | .ub => s.cfg.ub
  | .map => s.cfg.map.setWidth 64
  | .step => s.cfg.step
  | .clb => s.cfg.clb.setWidth 64
  | .cub => s.cfg.cub.setWidth 64
  | .count => s.count.setWidth 64
  | .blen => s.blen.setWidth 64
  | .curByte => s.curByte.setWidth 64
  | .curBit => s.curBit.setWidth 64
  | .sv => s.sv
  | .sc => s.sc.setWidth 64

/-- The host's write of a register (R16): it supplies all bits of an RW register; it has no effect on an RO
register. A write to `CMD` stores the word and sets BUSY (R18). -/
def State.writeReg (s : State) (r : Reg) (v : Datum) : State :=
  match r with
  | .cmd => { s with cmd := v.setWidth 32, status := s.status.started }
  | .setN => { s with setN := v.setWidth 32 }
  | .setLb => { s with setLb := Fp.trunc s.params.fmt v }
  | .setUb => { s with setUb := Fp.trunc s.params.fmt v }
  | .setMap => { s with setMap := v.setWidth 32 }
  | .count => { s with count := v.setWidth 32 }
  | .blen => { s with blen := v.setWidth 32 }
  | .sv => { s with sv := Fp.trunc s.params.fmt v }
  | .sc => { s with sc := v.setWidth 32 }
  | .status | .errIdx | .nMin | .nMax | .n | .lb | .ub | .map | .step | .clb | .cub | .curByte | .curBit => s

/-- A host register read by number (R16): a reserved number reads as 0. -/
def State.readNumber (s : State) (num : BitVec 6) : Datum :=
  match Reg.ofNumber num with
  | some r => s.readReg r
  | none => 0

/-- A host register write by number (R16): a reserved number ignores it. -/
def State.writeNumber (s : State) (num : BitVec 6) (v : Datum) : State :=
  match Reg.ofNumber num with
  | some r => s.writeReg r v
  | none => s

end Sys2Proof.Machine
end

