-- ==== Sys2Proof/Machine/Ops.lean ====
section
/-! DEFINITION. The operations the meanings share: completing a command with success or with an error (spec
60_exceptions R86, R87), which is what this machine has instead of taking an exception (R89: no trap, no saved
state, no handler, no return), the draws of unspecified values, and reset. -/

namespace Sys2Proof.Machine

/-- `complete with success` (R86). -/
def State.complete (s : State) : State := { s with status := s.status.succeeded, errIdx := 0 }

/-- `raise E(index = j)` (R87): the command ends here, completing with error `e` and `ERRIDX = j` (R86). -/
def State.raise (s : State) (e : ErrCode) (j : Nat) : State :=
  { s with status := s.status.failed e, errIdx := BitVec.ofNat 32 j }

/-- `BBUF[0 .. len-1]` take unspecified values: one new draw (R87; U3, log entry 4). -/
def State.drawBytes (s : State) (len : Nat) : State :=
  { s with
    bbuf := Memory.storeAll (w := 8) s.bbuf 0 ((List.range len).map (Config.freeByte s.draws))
    draws := s.draws + 1 }

/-- Reset is asserted (R98): registers take their values of R33, every buffer element a new unspecified value
(R34), and a command in progress is abandoned (U6). The part and the host are what they were. -/
def State.assertReset (s : State) : State :=
  { State.resetOf s.params with
    epoch := s.draws
    draws := s.draws + 1
    script := s.script
    reads := s.reads }

/-- The host notes the value it has read. -/
def State.note (s : State) (v : Datum) : State := { s with reads := v :: s.reads }

end Sys2Proof.Machine
end

