-- ==== Sys2Proof/Machine/Wire.lean ====
section
/-! DEFINITION. The serializer and deserializer (spec 42_packer R71 to R76, wire format 20_memory R38 to R40):
the bit-serial cursor walk the source describes, which the commands run, and the closed form it equals. -/

namespace Sys2Proof.Machine

/-- The working bit cursor of a stream command (10_state R32): byte index and bits used in that byte. -/
structure Cursor where
  byte : Nat
  off : Nat
deriving DecidableEq, Repr

/-- The cursor at the start of every stream command (R32). -/
def Cursor.start : Cursor := { byte := 0, off := 0 }

/-- The cursor after `take` more bits of the current byte: a full byte moves it to the next (R72, R74). -/
def Cursor.advance (c : Cursor) (take : Nat) : Cursor :=
  if c.off + take = 8 then { byte := c.byte + 1, off := 0 } else { c with off := c.off + take }

/-- OR-merge a value into one byte of a byte array (R72). -/
def orByte (bs : List Byte) (k v : Nat) : List Byte := bs.modify k fun x => x ||| BitVec.ofNat 8 v

/-- The loop of `PackStep` (R72), at most `fuel` passes, `rem` bits of the code still to write. -/
def packLoop (code : Nat) : Nat → Nat → List Byte → Cursor → List Byte × Cursor
  | 0, _, bs, c => (bs, c)
  | fuel + 1, rem, bs, c =>
    if rem = 0 then (bs, c)
    else
      let free := 8 - c.off
      let take := min free rem
      let slice := (code >>> (rem - take)) &&& (2 ^ take - 1)
      packLoop code fuel (rem - take) (orByte bs c.byte (slice <<< (free - take))) (c.advance take)

/-- `PackStep` (R72): write the `n` bits of one code at the cursor. Each pass writes at least one bit, so `n`
passes are enough. -/
def packStep (n : Nat) (bs : List Byte) (c : Cursor) (code : Nat) : List Byte × Cursor :=
  packLoop code n n bs c

/-- The loop of `UnpackStep` (R74), at most `fuel` passes, `rem` bits of the code still to read. -/
def unpackLoop (read : Nat → Byte) : Nat → Nat → Nat → Cursor → Nat × Cursor
  | 0, _, acc, c => (acc, c)
  | fuel + 1, rem, acc, c =>
    if rem = 0 then (acc, c)
    else
      let avail := 8 - c.off
      let take := min avail rem
      let slice := ((read c.byte).toNat >>> (avail - take)) &&& (2 ^ take - 1)
      unpackLoop read fuel (rem - take) ((acc <<< take) ||| slice) (c.advance take)

/-- `UnpackStep` (R74): read one code of `n` bits at the cursor. -/
def unpackStep (n : Nat) (read : Nat → Byte) (c : Cursor) : Nat × Cursor := unpackLoop read n n 0 c

/-- The loop of PACK and ENCODE over elements `i, i+1, …` (R77, R81): `.error j` at the first element whose code
is missing. -/
def packAll (n : Nat) (code : Nat → Option Nat) : Nat → Nat → List Byte → Cursor → Except Nat (List Byte × Cursor)
  | 0, _, bs, c => .ok (bs, c)
  | k + 1, i, bs, c =>
    match code i with
    | none => .error i
    | some x => packAll n code k (i + 1) (packStep n bs c x).1 (packStep n bs c x).2

/-- The loop of UNPACK and DECODE (R78, R82): the next `count` codes, in order, and the final cursor. -/
def unpackAll (n : Nat) (read : Nat → Byte) : Nat → Cursor → List Nat × Cursor
  | 0, c => ([], c)
  | k + 1, c =>
    let (x, c') := unpackStep n read c
    let (xs, c'') := unpackAll n read k c'
    (x :: xs, c'')

/-- The inner loop of `Serialize` (R71): the `n` bits of code `i`, the most-significant bit first, each OR-ed into
the byte that holds its stream bit. -/
def serializeCode (n : Nat) (bs : List Byte) (code i : Nat) : List Byte :=
  (List.range n).foldl
    (fun bs j => orByte bs ((i * n + j) / 8) (((code >>> (n - 1 - j)) &&& 1) <<< (7 - (i * n + j) % 8))) bs

/-- `Serialize` (R71): the `ceil_div(count * N, 8)` bytes of the packed codes, by stream position. -/
def serialize (cs : List Nat) (n : Nat) : List Byte :=
  cs.zipIdx.foldl (fun bs x => serializeCode n bs x.1 x.2) (List.replicate (ceilDiv (cs.length * n) 8) 0)

/-- Bit `s` of a byte stream, most-significant bit of each byte first (20_memory R38). -/
def streamBitOf (read : Nat → Byte) (k : Nat) : Bool := (read (k / 8)).getLsbD (7 - k % 8)

/-- `Deserialize` (R73), the closed form: code `i` of a byte stream, its bits gathered from stream bit `i*N` on. -/
def deserializeCode (read : Nat → Byte) (n i : Nat) : Nat :=
  (List.range n).foldl (fun acc j => (acc <<< 1) ||| (streamBitOf read (i * n + j)).toNat) 0

/-- `Deserialize` (R73). -/
def deserialize (read : Nat → Byte) (n count : Nat) : List Nat := (List.range count).map (deserializeCode read n)

/-- `InferCount` (R76). -/
def inferCount (blen n : Nat) : Nat := (8 * blen) / n

end Sys2Proof.Machine
end

