-- ==== Sys2Proof/Machine/Configure.lean ====
section
/-! DEFINITION. Configuration, the command CFG (spec 40_configure R61 to R63). -/

namespace Sys2Proof.Machine

/-- `CfgCheck` (R61): `true` for OK, `false` for FAIL. -/
def cfgCheck (f : Fmt) (n : Nat) (lb ub : Datum) (map : Nat) : Bool :=
  if n < 8 ∨ 32 < n then false
  else if Fp.lt f lb ub = false then false
  else if map ≠ 0 ∧ map ≠ 1 then false
  else if Fp.isFinite f lb = false ∨ Fp.isFinite f ub = false then false
  else
    let d := Fp.sub f ub lb
    if Fp.isInf f d then false
    else !Fp.eq f (Fp.div f d (Fp.pow2 f n)) Fp.zero

/-- The code of the largest index (R62): `2^n - 1` for natural binary, `1 << (n - 1)` for Gray. -/
def topCode (n map : Nat) : Nat := if map = 0 then 2 ^ n - 1 else 1 <<< (n - 1)

/-- `CfgDerive` (R62). -/
def cfgDerive (f : Fmt) (n : Word) (lb ub : Datum) (map : Word) : CodecConfig :=
  { n := n
    lb := lb
    ub := ub
    map := map
    step := Fp.div f (Fp.sub f ub lb) (Fp.pow2 f n.toNat)
    clb := 0
    cub := BitVec.ofNat 32 (topCode n.toNat map.toNat) }

/-- CFG (R63): construct the codec configuration from the staging registers. -/
def execCfg (s : State) : Host.Outcome State Fault Refusal :=
  if cfgCheck s.params.fmt s.setN.toNat s.setLb s.setUb s.setMap.toNat then
    .next ({ s with
      cfg := cfgDerive s.params.fmt s.setN s.setLb s.setUb s.setMap
      status := s.status.configured } : State).complete
  else .next (s.raise .configError 0)

end Sys2Proof.Machine
end

