-- ==== Sys2Proof/Machine/Quantizer.lean ====
section
/-! DEFINITION. The scalar quantizer, the commands QENC and QDEC (spec 41_quantizer R64 to R69). -/

namespace Sys2Proof.Machine

/-- `Gray(i)` (R64). -/
def gray (i : Nat) : Nat := i ^^^ (i >>> 1)

/-- The loop of `GrayInv` (R65), at most `fuel` passes. -/
def grayFold : Nat → Nat → Nat → Nat
  | 0, acc, _ => acc
  | fuel + 1, acc, s => if s = 0 then acc else grayFold fuel (acc ^^^ s) (s >>> 1)

/-- `GrayInv(c)` (R65). Each pass drops one bit of the shifted value, so as many passes as `c` has bits are enough. -/
def grayInv (c : Nat) : Nat := grayFold (Nat.log2 c + 1) c (c >>> 1)

/-- `QuantEncode(v)` (R66): `none` for `INVALID`. -/
def quantEncode (f : Fmt) (c : CodecConfig) (v : Datum) : Option Nat :=
  if Fp.isNan f v then none
  else if Fp.le f v c.lb then some c.clb.toNat
  else if Fp.ge f v c.ub then some c.cub.toNat
  else
    let q := Fp.div f (Fp.sub f v c.lb) c.step
    let idx := min (Fp.floorNat f q) (2 ^ c.n.toNat - 1)
    if c.map = 0 then some idx else some (gray idx)

/-- `QuantDecode(c)` for a code below `2^N` (R67). -/
def dequantize (f : Fmt) (c : CodecConfig) (code : Nat) : Datum :=
  if code = c.clb.toNat then c.lb
  else if code = c.cub.toNat then c.ub
  else
    let k := if c.map = 0 then code else grayInv code
    Fp.add f (Fp.mul f (Fp.fromNat f k) c.step) c.lb

/-- `QuantDecode(c)` (R67): `none` for `RANGE`. -/
def quantDecode (f : Fmt) (c : CodecConfig) (code : Nat) : Option Datum :=
  if 2 ^ c.n.toNat ≤ code then none else some (dequantize f c code)

/-- QENC (R68): quantize `SV` into `SC`. -/
def execQenc (s : State) : Host.Outcome State Fault Refusal :=
  if s.status.cfgValid = false then .next (s.raise .notConfigured 0)
  else
    match quantEncode s.params.fmt s.cfg s.sv with
    | none => .next (s.raise .invalidInput 0)
    | some r => .next ({ s with sc := BitVec.ofNat 32 r } : State).complete

/-- QDEC (R69): dequantize `SC` into `SV`. -/
def execQdec (s : State) : Host.Outcome State Fault Refusal :=
  if s.status.cfgValid = false then .next (s.raise .notConfigured 0)
  else
    match quantDecode s.params.fmt s.cfg s.sc.toNat with
    | none => .next (s.raise .codeRange 0)
    | some v => .next ({ s with sv := v } : State).complete

end Sys2Proof.Machine
end

