-- ==== Sys2Proof/Machine/Packer.lean ====
section
/-! DEFINITION. The bit packer and unpacker, the commands PACK, UNPACK and UNPACKI (spec 42_packer R77 to R79),
over the two operations that the codec commands share with them. -/

namespace Sys2Proof.Machine

/-- What PACK and ENCODE do (R77, R81): check, form the codes of elements `0 .. COUNT-1`, pack them into `BBUF`.
An element that has no code ends the command with error `e` at its index, and leaves the bytes the command would
have written unspecified (R87). -/
def State.packStream (s : State) (code : Nat → Option Nat) (e : ErrCode) : State :=
  if s.status.cfgValid = false then s.raise .notConfigured 0
  else if s.params.maxCount < s.count.toNat then s.raise .capacity 0
  else
    let n := s.cfg.n.toNat
    let len := ceilDiv (s.count.toNat * n) 8
    match packAll n code s.count.toNat 0 (List.replicate len 0) Cursor.start with
    | .error i => (s.drawBytes len).raise e i
    | .ok (bs, c) =>
      ({ s with
        bbuf := Memory.storeAll (w := 8) s.bbuf 0 bs
        blen := BitVec.ofNat 32 len
        curByte := BitVec.ofNat 32 c.byte
        curBit := BitVec.ofNat 32 c.off } : State).complete

/-- What UNPACK and DECODE do before they read a byte (R78, R82): the first check that fails, in the order of
60_exceptions R88. -/
def State.unpackError (s : State) : Option ErrCode :=
  if s.status.cfgValid = false then some .notConfigured
  else if s.params.maxCount < s.count.toNat ∨ maxBytes s.params < s.blen.toNat then some .capacity
  else if s.count.toNat = 0 then some .countError
  else if 8 * s.blen.toNat < s.count.toNat * s.cfg.n.toNat then some .bufferTooShort
  else none

/-- What UNPACKI and DECODEI do before they read a byte (R79, R83), in the order of 60_exceptions R88. -/
def State.inferError (s : State) : Option ErrCode :=
  if s.status.cfgValid = false then some .notConfigured
  else if maxBytes s.params < s.blen.toNat then some .capacity
  else if inferCount s.blen.toNat s.cfg.n.toNat = 0 then some .countError
  else if s.params.maxCount < inferCount s.blen.toNat s.cfg.n.toNat then some .capacity
  else none

/-- The codes and the final cursor of a stream of `count` codes in `BBUF` (R78). -/
def State.unpackCodes (s : State) (count : Nat) : List Nat × Cursor :=
  unpackAll s.cfg.n.toNat s.byteAt count Cursor.start

/-- Store codes in `CBUF[0 ..]`, zero-extended (R78). -/
def State.storeCodes (s : State) (cs : List Nat) : State :=
  { s with cbuf := Memory.storeAll s.cbuf 0 (cs.map (BitVec.ofNat 32)) }

/-- Dequantize codes into `VBUF[0 ..]` (R82). -/
def State.storeValues (s : State) (cs : List Nat) : State :=
  { s with vbuf := Memory.storeAll s.vbuf 0 (cs.map (dequantize s.params.fmt s.cfg)) }

/-- Copy the final cursor to `CUR_BYTE` and `CUR_BIT` (10_state R29). -/
def State.setCursor (s : State) (c : Cursor) : State :=
  { s with curByte := BitVec.ofNat 32 c.byte, curBit := BitVec.ofNat 32 c.off }

/-- PACK (R77): serialize `COUNT` codes from `CBUF` into `BBUF`. A code of more than `N` bits is an error. -/
def execPack (s : State) : Host.Outcome State Fault Refusal :=
  .next (s.packStream
    (fun i => if 2 ^ s.cfg.n.toNat ≤ (s.codeAt i).toNat then none else some (s.codeAt i).toNat) .codeRange)

/-- UNPACK (R78): deserialize `COUNT` codes from `BBUF` into `CBUF`. -/
def execUnpack (s : State) : Host.Outcome State Fault Refusal :=
  match s.unpackError with
  | some e => .next (s.raise e 0)
  | none =>
    let r := s.unpackCodes s.count.toNat
    .next ((s.storeCodes r.1).setCursor r.2).complete

/-- UNPACKI (R79): deserialize as many codes as `BLEN` bytes hold, and report the count in `COUNT`. -/
def execUnpacki (s : State) : Host.Outcome State Fault Refusal :=
  match s.inferError with
  | some e => .next (s.raise e 0)
  | none =>
    let count := inferCount s.blen.toNat s.cfg.n.toNat
    let r := s.unpackCodes count
    .next ({ (s.storeCodes r.1).setCursor r.2 with count := BitVec.ofNat 32 count } : State).complete

end Sys2Proof.Machine
end

