-- ==== Sys2Proof/Machine/Codec.lean ====
section
/-! DEFINITION. The codec, the commands ENCODE, DECODE and DECODEI (spec 43_codec R81 to R83): the quantizer and
the packer composed. The codes in between are not persisted: `CBUF` is neither read nor written. -/

namespace Sys2Proof.Machine

/-- ENCODE (R81): quantize `COUNT` values from `VBUF` and pack the codes into `BBUF`. A NaN is an error. -/
def execEncode (s : State) : Host.Outcome State Fault Refusal :=
  .next (s.packStream (fun i => quantEncode s.params.fmt s.cfg (s.valueAt i)) .invalidInput)

/-- DECODE (R82): unpack `COUNT` codes from `BBUF` and dequantize them into `VBUF`. -/
def execDecode (s : State) : Host.Outcome State Fault Refusal :=
  match s.unpackError with
  | some e => .next (s.raise e 0)
  | none =>
    let r := s.unpackCodes s.count.toNat
    .next ((s.storeValues r.1).setCursor r.2).complete

/-- DECODEI (R83): decode as many values as `BLEN` bytes hold, and report the count in `COUNT`. -/
def execDecodei (s : State) : Host.Outcome State Fault Refusal :=
  match s.inferError with
  | some e => .next (s.raise e 0)
  | none =>
    let count := inferCount s.blen.toNat s.cfg.n.toNat
    let r := s.unpackCodes count
    .next ({ (s.storeValues r.1).setCursor r.2 with count := BitVec.ofNat 32 count } : State).complete

end Sys2Proof.Machine
end

