-- ==== Sys2Proof/Machine/Engine.lean ====
section
/-! DEFINITION. The turn of the command engine (spec 10_state R14, R18; 30_encoding R55, R56; 60_exceptions R97). -/

namespace Sys2Proof.Machine

/-- The engine's turn. While `BUSY = 1` it decodes the word in `CMD` and runs that command to its completion, one
atomic step (20_memory R44, 70_reset_and_hazards R103); an illegal word completes with `ILLEGAL_COMMAND` (R56).
While `BUSY = 0` it is idle and keeps all state (R97). -/
def engineTurn (s : State) : Host.Outcome State Fault Refusal :=
  if s.status.busy then
    match decode s.cmd with
    | .ok i => exec i s
    | .error _ => .next (s.raise .illegalCommand 0)
  else .next s

/-- The events still to come, with the engine's turn first. -/
def engineFirst : List Event → List Event
  | [] => []
  | .engine :: rest => .engine :: rest
  | rest => .engine :: rest

end Sys2Proof.Machine
end

