-- ==== Sys2Proof/Machine/Port.lean ====
section
/-! DEFINITION. The host port: register and buffer accesses (spec 10_state R16, R18; 20_memory R36), the host
protocol (70_reset_and_hazards R101), and the pseudo-operations of host programs (30_encoding R59, R60). -/

namespace Sys2Proof.Machine

/-- The one access the host may make while a command runs: a read of `STATUS` (R101). -/
def isStatusRead (a : Access) : Bool := a == .regRead Reg.status.number

/-- One access of the host. A violation of the host protocol stops the machine for good (R101; U4, U5). -/
def hostAccess (a : Access) (s : State) : Host.Outcome State Fault Refusal :=
  if s.status.busy && !isStatusRead a then .fault (.hostBusy a)
  else
    match a with
    | .regWrite num v => .next (s.writeNumber num v)
    | .regRead num => .next (s.note (s.readNumber num))
    | .bufWrite sp i v =>
      if i < capacity s.params sp then .next (s.storeElement sp i v) else .fault (.hostIndex sp i)
    | .bufRead sp i =>
      if i < capacity s.params sp then .next (s.note (s.elementAt sp i)) else .fault (.hostIndex sp i)

/-- `WR <reg>, <value>` (R59). -/
def wr (r : Reg) (v : Datum) : Event := .access (.regWrite r.number v)

/-- `RD <reg>` (R59). -/
def rd (r : Reg) : Event := .access (.regRead r.number)

/-- `CMD <mnemonic>` (R59): write the command's word to `CMD`. -/
def cmdOf (i : Instr) : Event := wr .cmd ((encode i).setWidth 64)

/-- The expansion of `WAIT` (R60) for a command that is still running at the first `polls` reads of `STATUS` and
completes before the next one. The spec fixes no time, so `polls` is any number (R103). -/
def waitEvents (polls : Nat) : List Event := List.replicate polls (rd .status) ++ [.engine, rd .status]

/-- The expansion of `RUN <mnemonic>` (R60). -/
def runEvents (polls : Nat) (i : Instr) : List Event := cmdOf i :: waitEvents polls

/-- The expansion of each pseudo-operation (R60). -/
def Pseudo.expand (polls : Nat) : Pseudo → List Event
  | .wait => waitEvents polls
  | .run i => runEvents polls i
  | .cfgset n lb ub map =>
    [wr .setN (n.setWidth 64), wr .setLb lb, wr .setUb ub, wr .setMap (map.setWidth 64)] ++ runEvents polls .cfg
  | .check => [rd .status]

end Sys2Proof.Machine
end

