-- ==== Sys2Proof/Machine/Step.lean ====
section
/-! DEFINITION. One step of the machine: the next event of the interleaving (spec 10_state R14, 20_memory R47),
and where the host places the word of the next command. -/

namespace Sys2Proof.Machine

/-- One step. With no event left the engine has the turn: a started command completes (R103). -/
def step (s : State) : Host.Outcome State Fault Refusal :=
  match s.script with
  | [] => engineTurn s
  | .engine :: rest => engineTurn { s with script := rest }
  | .access a :: rest => hostAccess a { s with script := rest }
  | .reset :: rest => .next ({ s with script := rest } : State).assertReset

/-- `s` as the write of the word `w` to `CMD` leaves it (R18), the engine having the next turn: log entry 6. -/
def State.withFetchWord (s : State) (nbits w : Nat) : State :=
  { s with
    cmd := BitVec.ofNat 32 (w % 2 ^ nbits)
    status := s.status.started
    script := engineFirst s.script }

end Sys2Proof.Machine
end

