-- ==== Sys2Proof/Safety.lean ====
section
/-! DEFINITION. The terms in which claims are stated: the invariant of the machine, a valid configuration, the host
protocol as a property of the accesses alone, and correct rounding. -/

namespace Sys2Proof

namespace Fp

/-- The datum fits the `W` bits of its format (spec 00_scope R8; log entry 2). -/
def fits (f : Fmt) (a : Datum) : Bool := decide (a.toNat < 2 ^ f.width)

/-- The greatest finite magnitude of the format, in units. -/
def maxUnits (f : Fmt) : Nat := (2 ^ (fracBits f + 1) - 1) * 2 ^ (expMax f - 2)

/-- `r` is the exact value `num / den` units, rounded once to nearest with ties to even (spec 00_scope R13): no
finite datum is nearer, one as near has an odd last bit, and `r` is an infinity exactly where the value lies half
a spacing or more beyond the greatest finite magnitude. -/
structure CorrectlyRounded (f : Fmt) (num : Int) (den : Nat) (r : Datum) : Prop where
  notNan : isNan f r = false
  nearest : isFinite f r = true → ∀ c, isFinite f c = true →
    (num - units f r * den).natAbs ≤ (num - units f c * den).natAbs
  tiesToEven : isFinite f r = true → ∀ c, isFinite f c = true → units f c ≠ units f r →
    (num - units f r * den).natAbs = (num - units f c * den).natAbs → r.toNat % 2 = 0
  overflow : isInf f r = true ↔ (2 * maxUnits f + 2 ^ (expMax f - 2)) * den ≤ 2 * num.natAbs
  signOfInf : isInf f r = true → sign f r = decide (num < 0)

end Fp

namespace Machine

/-- A configuration that a successful CFG leaves (spec 40_configure R61, R62). -/
def CodecConfig.wf (f : Fmt) (c : CodecConfig) : Bool :=
  cfgCheck f c.n.toNat c.lb c.ub c.map.toNat && c == cfgDerive f c.n c.lb c.ub c.map

/-- The invariant of the machine: every step keeps it, and it holds after reset. -/
structure State.Inv (s : State) : Prop where
  /-- `MAX_COUNT` is in its range (R9) -/
  params : s.params.wf = true
  /-- the buffers are in canonical form and inside their spaces (R35) -/
  vbuf : Memory.wf s.vbuf = true ∧ Memory.within (capacity s.params .vbuf) s.vbuf = true
  cbuf : Memory.wf s.cbuf = true ∧ Memory.within (capacity s.params .cbuf) s.cbuf = true
  bbuf : Memory.wf (w := 8) s.bbuf = true ∧ Memory.within (w := 8) (capacity s.params .bbuf) s.bbuf = true
  /-- every `FMT` datum fits its `W` bits (R8) -/
  data : Fp.fits s.params.fmt s.setLb = true ∧ Fp.fits s.params.fmt s.setUb = true ∧
    Fp.fits s.params.fmt s.cfg.lb = true ∧ Fp.fits s.params.fmt s.cfg.ub = true ∧
    Fp.fits s.params.fmt s.cfg.step = true ∧ Fp.fits s.params.fmt s.sv = true ∧
    s.vbuf.all (fun c => Fp.fits s.params.fmt c.2) = true
  /-- `ERR = 1` exactly when `ECODE ≠ 0` (R19), and codes 9 to 255 are never reported (R85) -/
  outcome : (s.status.err = true ↔ s.status.ecode ≠ 0) ∧ s.status.ecode.toNat ≤ 8
  /-- `ERRIDX` is an element index, and 0 but after INVALID_INPUT and CODE_RANGE (R20) -/
  errIdx : s.errIdx.toNat < s.params.maxCount ∧
    (s.errIdx ≠ 0 → s.status.ecode = 5 ∨ s.status.ecode = 6)
  /-- bits 31:3 of `CUR_BIT` are 0 (R29), and the cursor is inside the buffer -/
  cursor : s.curBit.toNat < 8 ∧ s.curByte.toNat ≤ maxBytes s.params
  /-- a valid configuration was checked and derived by CFG (R25, R62) -/
  valid : s.status.cfgValid = true → s.cfg.wf s.params.fmt = true
  /-- without one the active configuration is as reset left it (R25, R26; U8) -/
  invalid : s.status.cfgValid = false → s.cfg = CodecConfig.zero
  /-- the draw that filled the buffers is past: later draws are others (log entry 3) -/
  draws : s.epoch < s.draws

/-- The host protocol (spec 70_reset_and_hazards R101) as a property of the accesses alone: while a command runs the
host only reads `STATUS`, and a buffer index is inside its space. `busy` says whether a command runs. -/
def hostProtocol (p : Params) : Bool → List Event → Bool
  | _, [] => true
  | _, .engine :: rest => hostProtocol p false rest
  | _, .reset :: rest => hostProtocol p false rest
  | busy, .access (.regRead num) :: rest => (!busy || num == Reg.status.number) && hostProtocol p busy rest
  | busy, .access (.regWrite num _) :: rest => !busy && hostProtocol p (num == Reg.cmd.number) rest
  | busy, .access (.bufRead sp i) :: rest => !busy && decide (i < capacity p sp) && hostProtocol p false rest
  | busy, .access (.bufWrite sp i _) :: rest => !busy && decide (i < capacity p sp) && hostProtocol p false rest

/-- No run from `s` meets a host protocol fault. -/
def HostSafe (s : State) : Prop := ∀ k r, Host.Core.run Sys2Proof.core k s ≠ .fault r

end Machine

end Sys2Proof
end

