-- ==== Sys2Proof/Certificates/Slice0/Obligations.lean ====
section
/-! DEFINITION. The statements for the provers, from the numbered rules of the spec. -/

open Sys2Proof Sys2Proof.Machine

/-! ## Command words -/

/-- R54: words of the opcode map, written out from the table, decode to their commands. -/
def Obligations.TableWordsDecode : Prop :=
  decode 0x00000001#32 = .ok .cfg ∧ decode 0x00000002#32 = .ok .qenc ∧ decode 0x00000004#32 = .ok .pack ∧
  decode 0x00000005#32 = .ok .unpack ∧ decode 0x00000105#32 = .ok .unpacki ∧ decode 0x00000106#32 = .error .inferFlag ∧
  decode 0x00000107#32 = .ok .decodei

/-- R54, R55: decoding the word of a well-formed command gives it back, and a word that decodes to a command is the
word of that command. So exactly nine words are legal, and no bit of a word is dropped. -/
def Obligations.DecodeEncodeInverse : Prop :=
  (∀ i : Instr, i.wf = true → decode (encode i) = .ok i) ∧
  (∀ (w : Word) (i : Instr), decode w = .ok i → w = encode i)

/-- R56: the illegal words are those with `OP` = 0x00 or 0x08 to 0xFF, with `I` = 1 and an `OP` other than 0x05 and
0x07, or with a bit of `RSV` set. On its turn the engine completes such a word with ILLEGAL_COMMAND, and nothing but `STATUS`
and `ERRIDX` changes. -/
def Obligations.IllegalWordsCompleteWithError : Prop :=
  (∀ w : Word, (∃ e, decode w = .error e) ↔
    (w.toNat % 256 = 0 ∨ 8 ≤ w.toNat % 256 ∨ (w.toNat / 256 % 2 = 1 ∧ w.toNat % 256 ≠ 5 ∧ w.toNat % 256 ≠ 7) ∨
      w.toNat / 512 ≠ 0)) ∧
  (∀ s : State, s.status.busy = true →
    (s.cmd.toNat % 256 = 0 ∨ 8 ≤ s.cmd.toNat % 256 ∨
      (s.cmd.toNat / 256 % 2 = 1 ∧ s.cmd.toNat % 256 ≠ 5 ∧ s.cmd.toNat % 256 ≠ 7) ∨ s.cmd.toNat / 512 ≠ 0) →
    engineTurn s = .next { s with
      status := { s.status with busy := false, err := true, ecode := 7 }
      errIdx := 0 })

/-! ## The engine's turn and the host port -/

/-- R18, R55: while `BUSY = 1` the engine's turn runs the command that the word in `CMD` decodes to. The turn is the
engine's when no event is left, and when the next event is the engine's, which the step takes off the list. With the
word of a command placed in `CMD`, the very next step runs that command. The list of events is the model's choice (log
entry 7), and so is the placing (log entry 6). -/
def Obligations.StepRunsDecodedCommand : Prop :=
  (∀ (s : State) (i : Instr), s.status.busy = true → decode s.cmd = .ok i →
    (s.script = [] → step s = exec i s) ∧
    (∀ rest, s.script = .engine :: rest → step s = exec i { s with script := rest })) ∧
  (∀ s : State,
    (s.script = [] → step s = engineTurn s) ∧
    (∀ rest, s.script = .engine :: rest → step s = engineTurn { s with script := rest })) ∧
  (∀ (s : State) (i : Instr), s.script = [] →
    step (s.withFetchWord 32 (encode i).toNat) =
      exec i { s with cmd := encode i, status := { s.status with busy := true } })

/-- R97: while `BUSY = 0` the engine's turn keeps all state. The list of events, of which the step takes the first, is the
model's choice (log entry 7), here and in the other statements about a step. -/
def Obligations.IdleEngineKeepsState : Prop :=
  ∀ s : State, s.status.busy = false →
    (s.script = [] → step s = .next s) ∧
    (∀ rest, s.script = .engine :: rest → step s = .next { s with script := rest })

/-- R18: a write of `CMD` while `BUSY = 0` stores the word, sets BUSY and changes nothing else; a read returns the
last word written; a write while `BUSY = 1` is a violation. R18 speaks of a word of 32 bits: that a wider value on the
data lines leaves its low 32 bits is the model's choice (log entry 10), as are the list of events (log entry 7) and the
record of what was read (log entry 8). -/
def Obligations.CmdWriteStartsCommand : Prop :=
  ∀ (s : State) (v : Datum) (rest : List Event),
    (s.status.busy = false → s.script = .access (.regWrite 0 v) :: rest →
      step s = .next { s with
        script := rest
        cmd := v.setWidth 32
        status := { s.status with busy := true } }) ∧
    (s.status.busy = false → s.script = .access (.regRead 0) :: rest →
      step s = .next { s with script := rest, reads := s.cmd.setWidth 64 :: s.reads }) ∧
    (s.status.busy = true → s.script = .access (.regWrite 0 v) :: rest →
      step s = .fault (.hostBusy (.regWrite 0 v)))

/-- R16, R17: which field each number of the register map reads as; a reserved number reads as 0; a register read
returns the register and has no side effect; a write to a read-only or reserved number has no effect. That a register
is zero-extended to data lines of 64 bits is the model's choice (log entry 10), as are the list of events (log entry 7)
and the record of what was read (log entry 8). -/
def Obligations.RegisterReadsAndIgnoredWrites : Prop :=
  ∀ s : State,
    (s.readNumber 0x00 = s.cmd.setWidth 64 ∧ s.readNumber 0x01 = s.status.toWord.setWidth 64 ∧
      s.readNumber 0x02 = s.errIdx.setWidth 64 ∧ s.readNumber 0x03 = 8 ∧ s.readNumber 0x04 = 32) ∧
    (s.readNumber 0x08 = s.setN.setWidth 64 ∧ s.readNumber 0x09 = s.setLb ∧ s.readNumber 0x0A = s.setUb ∧
      s.readNumber 0x0B = s.setMap.setWidth 64) ∧
    (s.readNumber 0x10 = s.cfg.n.setWidth 64 ∧ s.readNumber 0x11 = s.cfg.lb ∧ s.readNumber 0x12 = s.cfg.ub ∧
      s.readNumber 0x13 = s.cfg.map.setWidth 64 ∧ s.readNumber 0x14 = s.cfg.step ∧
      s.readNumber 0x15 = s.cfg.clb.setWidth 64 ∧ s.readNumber 0x16 = s.cfg.cub.setWidth 64) ∧
    (s.readNumber 0x18 = s.count.setWidth 64 ∧ s.readNumber 0x19 = s.blen.setWidth 64 ∧
      s.readNumber 0x1A = s.curByte.setWidth 64 ∧ s.readNumber 0x1B = s.curBit.setWidth 64 ∧
      s.readNumber 0x1C = s.sv ∧ s.readNumber 0x1D = s.sc.setWidth 64) ∧
    ∀ (num : BitVec 6) (v : Datum) (rest : List Event),
      (num.toNat ∉ [0x00, 0x01, 0x02, 0x03, 0x04, 0x08, 0x09, 0x0A, 0x0B, 0x10, 0x11, 0x12, 0x13, 0x14, 0x15, 0x16,
        0x18, 0x19, 0x1A, 0x1B, 0x1C, 0x1D] → s.readNumber num = 0) ∧
      (s.status.busy = false → s.script = .access (.regRead num) :: rest →
        step s = .next { s with script := rest, reads := s.readNumber num :: s.reads }) ∧
      (s.status.busy = false → s.script = .access (.regWrite num v) :: rest →
        num.toNat ∉ [0x00, 0x08, 0x09, 0x0A, 0x0B, 0x18, 0x19, 0x1C, 0x1D] → step s = .next { s with script := rest })

/-- R16, R17: a write to a register that the host may write, other than `CMD`, supplies all bits of that register,
sets the field that the register map gives its number and changes nothing else; the register reads back as written,
every other register reads as before and no buffer element changes. A register has 32 bits or, for a bound or `SV`,
`W`: that a wider value on the data lines is taken modulo 2 to that width is the model's choice (log entry 10), as are
the list of events (log entry 7) and the record of what was read (log entry 8). -/
def Obligations.RegisterWriteReadsBack : Prop :=
  ∀ (s : State) (num : BitVec 6) (v word datum : Datum) (rest : List Event), s.status.busy = false →
    s.script = .access (.regWrite num v) :: rest →
    word.toNat = v.toNat % 2 ^ 32 → datum.toNat = v.toNat % 2 ^ s.params.fmt.width →
    (num = 0x08 → step s = .next { s with script := rest, setN := word.setWidth 32 }) ∧
    (num = 0x09 → step s = .next { s with script := rest, setLb := datum }) ∧
    (num = 0x0A → step s = .next { s with script := rest, setUb := datum }) ∧
    (num = 0x0B → step s = .next { s with script := rest, setMap := word.setWidth 32 }) ∧
    (num = 0x18 → step s = .next { s with script := rest, count := word.setWidth 32 }) ∧
    (num = 0x19 → step s = .next { s with script := rest, blen := word.setWidth 32 }) ∧
    (num = 0x1C → step s = .next { s with script := rest, sv := datum }) ∧
    (num = 0x1D → step s = .next { s with script := rest, sc := word.setWidth 32 }) ∧
    (num.toNat ∈ [0x08, 0x09, 0x0A, 0x0B, 0x18, 0x19, 0x1C, 0x1D] →
      ∃ t, step s = .next t ∧ t.script = rest ∧ t.params = s.params ∧ t.reads = s.reads ∧
        t.readNumber num = (if num.toNat ∈ [0x09, 0x0A, 0x1C] then datum else word) ∧
        (∀ other, other ≠ num → t.readNumber other = s.readNumber other) ∧
        (∀ sp i, t.elementAt sp i = s.elementAt sp i))

/-- R21: `NMIN` reads as 8 and `NMAX` as 32, in every state. -/
def Obligations.WidthLimitsAreConstant : Prop :=
  ∀ s : State, s.readNumber 0x03 = 8 ∧ s.readNumber 0x04 = 32

/-- R19: the fields of the word `STATUS` reads as, and its reserved bits. The zeros at bit 32 and above are those of
the data lines (log entry 10). -/
def Obligations.StatusWordFields : Prop :=
  ∀ s : State,
    (s.readNumber 0x01).getLsbD 0 = s.status.busy ∧
    (s.readNumber 0x01).getLsbD 1 = s.status.cfgValid ∧
    (s.readNumber 0x01).getLsbD 2 = s.status.err ∧
    (∀ k, 3 ≤ k → k ≤ 7 → (s.readNumber 0x01).getLsbD k = false) ∧
    (∀ k, k < 8 → (s.readNumber 0x01).getLsbD (8 + k) = s.status.ecode.getLsbD k) ∧
    (∀ k, 16 ≤ k → (s.readNumber 0x01).getLsbD k = false)

/-- R101: while `BUSY = 1` the host may read `STATUS`; any other access is a violation, and so is a buffer access out
of range. A violation is a fault that no later step clears. That the fault ends the run is how the model reads the
rule's sticky fault (log entry 14); the list of events and the record of what was read are its choices (log entries 7
and 8). -/
def Obligations.HostViolationIsStickyFault : Prop :=
  ∀ (s : State) (a : Access) (rest : List Event), s.script = .access a :: rest →
    (s.status.busy = true → a = .regRead 1 →
      step s = .next { s with script := rest, reads := s.status.toWord.setWidth 64 :: s.reads }) ∧
    (s.status.busy = true → a ≠ .regRead 1 →
      ∀ k, Host.Core.run Sys2Proof.core (k + 1) s = .fault (.hostBusy a)) ∧
    (∀ sp i, s.status.busy = false → capacity s.params sp ≤ i → (a = .bufRead sp i ∨ ∃ v, a = .bufWrite sp i v) →
      ∀ k, Host.Core.run Sys2Proof.core (k + 1) s = .fault (.hostIndex sp i))

/-- R35, R36: a read of an element after a write returns the value written if it is the same element of the same
space, and otherwise what it held before. The write changes no register. R36 writes a value of the element's width:
that a wider value on the data lines is taken modulo 2 to that width is the model's choice (log entry 10), as are the
list of events (log entry 7) and the record of what was read (log entry 8). -/
def Obligations.BufferReadAfterWrite : Prop :=
  ∀ (s : State) (sp sp' : Space) (i j : Nat) (v : Datum) (rest : List Event), s.status.busy = false →
    i < capacity s.params sp → j < capacity s.params sp' →
    s.script = .access (.bufWrite sp i v) :: .access (.bufRead sp' j) :: rest →
    ∃ t x, Host.Core.run Sys2Proof.core 2 s = .next t ∧
      t = { s with
        vbuf := t.vbuf
        cbuf := t.cbuf
        bbuf := t.bbuf
        script := rest
        reads := x :: s.reads } ∧
      (sp' = sp ∧ j = i → x.toNat =
        v.toNat % 2 ^ (match sp with | .vbuf => s.params.fmt.width | .cbuf => 32 | .bbuf => 8)) ∧
      (¬(sp' = sp ∧ j = i) → x = s.elementAt sp' j)

/-- R101, as a property of the accesses alone: the machine meets no host protocol fault exactly when the host, from
here on, only reads `STATUS` while a command runs and keeps its buffer indices in range. The list of accesses to come
and the fault that ends a run are the model's choices (log entries 7 and 14). -/
def Obligations.ProtocolDecidesHostSafety : Prop :=
  ∀ s : State, HostSafe s ↔ hostProtocol s.params s.status.busy s.script = true

/-- R60, R103: `RUN` of a command from an idle state, whatever the number of reads that find it running, ends in a
state that is idle, the last read of `STATUS` being the first with BUSY = 0. The number of polls, the list of events and
the record of reads are the model's choices (log entries 7, 8 and 16). -/
def Obligations.RunWaitsForCompletion : Prop :=
  ∀ (s : State) (i : Instr) (polls : Nat) (rest : List Event), s.status.busy = false →
    s.script = runEvents polls i ++ rest →
    ∃ t w, Host.Core.run Sys2Proof.core (polls + 3) s = .next t ∧ t.status.busy = false ∧ t.script = rest ∧
      t.cmd = encode i ∧ w = ({ s.status with busy := true } : Status).toWord ∧
      t.reads = t.status.toWord.setWidth 64 :: (List.replicate polls (w.setWidth 64) ++ s.reads) ∧
      t.status.toWord.getLsbD 0 = false ∧ w.getLsbD 0 = true ∧
      ∃ u, exec i { s with
          cmd := encode i
          status := { s.status with busy := true }
          script := rd .status :: rest
          reads := List.replicate polls (w.setWidth 64) ++ s.reads } = .next u ∧
        t = { u with script := rest, reads := t.reads }

/-- R19, R20, R25: no access of the host changes `CFG_VALID`, `ERR`, `ECODE`, `ERRIDX`, the active configuration or
the bit cursor. -/
def Obligations.HostLeavesOutcomeAndConfiguration : Prop :=
  ∀ (s t : State) (a : Access) (rest : List Event), s.script = .access a :: rest → step s = .next t →
    t.status = { s.status with busy := t.status.busy } ∧ t.errIdx = s.errIdx ∧ t.cfg = s.cfg ∧
    t.curByte = s.curByte ∧ t.curBit = s.curBit ∧ t.params = s.params ∧ t.script = rest

/-! ## Reset and the invariant -/

/-- R33: every register right after reset, for every part. No command is in progress. -/
def Obligations.ResetRegisterValues : Prop :=
  ∀ (p : Params) (num : BitVec 6),
    (State.resetOf p).readNumber num = (if num = 0x03 then 8 else if num = 0x04 then 32 else 0) ∧
    (State.resetOf p).status.busy = false

/-- R98: reset, asserted at any time, sets every register to its value of R33 and abandons a command in progress; the
buffers hold nothing that was written. The part is what it was. That reset is an event, and that it keeps the part, the
events and the record of reads, is the model's choice (log entries 3, 7, 8 and 15). -/
def Obligations.ResetAtAnyTime : Prop :=
  ∀ (s : State) (rest : List Event), s.script = .reset :: rest →
    ∃ t, step s = .next t ∧
      (∀ num : BitVec 6, t.readNumber num = (if num = 0x03 then 8 else if num = 0x04 then 32 else 0)) ∧
      t.status.busy = false ∧ t.status.cfgValid = false ∧
      t.vbuf = [] ∧ t.cbuf = [] ∧ t.bbuf = [] ∧ t.params = s.params ∧ t.script = rest ∧ t.reads = s.reads

/-- The invariant holds right after reset, for every part with `MAX_COUNT` in its range. The draws and the canonical
form in the invariant are the model's own (log entries 3 and 5). -/
def Obligations.ResetMeetsInvariant : Prop :=
  (∀ p : Params, p.wf = true → (State.resetOf p).Inv) ∧ State.reset.Inv

/-- Every step keeps the invariant, from every state that meets it: the parameters stay in range; the buffers stay in
canonical form and inside their spaces; `ERR` agrees with `ECODE`; reserved bits read as 0; a valid configuration is
one that CFG checked and derived, and without one the active configuration is as reset left it. The draws and the
canonical form are the model's own (log entries 3 and 5). -/
def Obligations.StepKeepsInvariant : Prop :=
  ∀ s t : State, s.Inv → step s = .next t → t.Inv

/-! ## Every command -/

/-- R86, R20, R85: every command completes, whatever the state: BUSY is 0, `ERR = 1` exactly when `ECODE ≠ 0`, no
reserved code is reported, and `ERRIDX` is 0 but after INVALID_INPUT and CODE_RANGE. -/
def Obligations.EveryCommandCompletes : Prop :=
  ∀ (i : Instr) (s : State), ∃ t, exec i s = .next t ∧ t.status.busy = false ∧
    (t.status.err = true ↔ t.status.ecode ≠ 0) ∧ t.status.ecode.toNat ≤ 8 ∧
    (t.errIdx ≠ 0 → t.status.ecode = 5 ∨ t.status.ecode = 6)

/-- R57, the frame of every command: each register and buffer is unchanged but by the commands that the rule lists as
writing it. `CMD`, the staging registers, the part, the events and the reads are changed by none (R22, R23, R24). -/
def Obligations.CommandFootprints : Prop :=
  ∀ (i : Instr) (s t : State), exec i s = .next t →
    t.params = s.params ∧ t.cmd = s.cmd ∧ t.setN = s.setN ∧ t.setLb = s.setLb ∧ t.setUb = s.setUb ∧
    t.setMap = s.setMap ∧ t.epoch = s.epoch ∧ t.script = s.script ∧ t.reads = s.reads ∧
    (i ≠ .cfg → t.cfg = s.cfg ∧ t.status.cfgValid = s.status.cfgValid) ∧
    (i ≠ .qenc → t.sc = s.sc) ∧
    (i ≠ .qdec → t.sv = s.sv) ∧
    (i ∉ [Instr.pack, .encode] → (∀ k, t.byteAt k = s.byteAt k) ∧ t.blen = s.blen ∧ t.draws = s.draws) ∧
    (i ∉ [Instr.unpack, .unpacki] → ∀ k, t.codeAt k = s.codeAt k) ∧
    (i ∉ [Instr.decode, .decodei] → ∀ k, t.valueAt k = s.valueAt k) ∧
    (i ∉ [Instr.unpacki, .decodei] → t.count = s.count) ∧
    (i ∈ [Instr.cfg, .qenc, .qdec] → t.curByte = s.curByte ∧ t.curBit = s.curBit)

/-- R87: a command that fails changes nothing but `STATUS` and `ERRIDX`; only PACK with CODE_RANGE and ENCODE with
INVALID_INPUT also leave bytes unspecified, and none at or past `ceil_div(COUNT * N, 8)`. `CFG_VALID` stays. The draw
counter is the model's own (log entry 4). -/
def Obligations.FailedCommandFrame : Prop :=
  ∀ (i : Instr) (s t : State), exec i s = .next t → t.status.err = true →
    t.status.cfgValid = s.status.cfgValid ∧
    (t = { s with status := t.status, errIdx := t.errIdx } ∨
      (((i = .pack ∧ t.status.ecode = 6) ∨ (i = .encode ∧ t.status.ecode = 5)) ∧
        t = { s with status := t.status, errIdx := t.errIdx, bbuf := t.bbuf, draws := t.draws } ∧
        ∀ k, ceilDiv (s.count.toNat * s.cfg.n.toNat) 8 ≤ k → t.byteAt k = s.byteAt k))

/-- R25, R26: the active configuration and `CFG_VALID` change only by reset and by a CFG that the engine runs; what a
CFG leaves in place of them passed the check of R61. -/
def Obligations.OnlyCfgAndResetChangeConfiguration : Prop :=
  ∀ s t : State, step s = .next t → (t.cfg ≠ s.cfg ∨ t.status.cfgValid ≠ s.status.cfgValid) →
    (∃ rest, s.script = .reset :: rest) ∨
    (s.status.busy = true ∧ decode s.cmd = .ok .cfg ∧
      cfgCheck s.params.fmt s.setN.toNat s.setLb s.setUb s.setMap.toNat = true ∧ t.status.cfgValid = true)

/-- R85, R88: while no configuration is active, every command but CFG fails with NOT_CONFIGURED, before any other
check, and changes nothing but `STATUS` and `ERRIDX`. -/
def Obligations.NotConfiguredComesFirst : Prop :=
  ∀ (i : Instr) (s : State), i ≠ .cfg → s.status.cfgValid = false →
    exec i s = .next { s with
      status := { s.status with busy := false, err := true, ecode := 4 }
      errIdx := 0 }

/-! ## Configuration -/

/-- R63: CFG derives the active configuration from the staging registers when they pass the check, with STEP rounded
once from each operation; otherwise it fails with CONFIG_ERROR and the configuration in force stays. -/
def Obligations.CfgConstructsOrKeeps : Prop :=
  ∀ s : State,
    (cfgCheck s.params.fmt s.setN.toNat s.setLb s.setUb s.setMap.toNat = true →
      exec .cfg s = .next { s with
        cfg := {
          n := s.setN
          lb := s.setLb
          ub := s.setUb
          map := s.setMap
          step := Fp.div s.params.fmt (Fp.sub s.params.fmt s.setUb s.setLb) (Fp.pow2 s.params.fmt s.setN.toNat)
          clb := 0
          cub := BitVec.ofNat 32
            (if s.setMap.toNat = 0 then 2 ^ s.setN.toNat - 1 else 2 ^ (s.setN.toNat - 1)) }
        status := { busy := false, cfgValid := true, err := false, ecode := 0 }
        errIdx := 0 }) ∧
    (cfgCheck s.params.fmt s.setN.toNat s.setLb s.setUb s.setMap.toNat = false →
      exec .cfg s = .next { s with
        status := { s.status with busy := false, err := true, ecode := 1 }
        errIdx := 0 })

/-- R61: what the check of a configuration lets through, in terms of the bounds' exact values. -/
def Obligations.CfgCheckConditions : Prop :=
  ∀ (f : Fmt) (n : Nat) (lb ub : Datum) (map : Nat),
    cfgCheck f n lb ub map = true ↔
      (8 ≤ n ∧ n ≤ 32 ∧ (map = 0 ∨ map = 1) ∧ Fp.isFinite f lb = true ∧ Fp.isFinite f ub = true ∧
        Fp.units f lb < Fp.units f ub ∧ Fp.isInf f (Fp.sub f ub lb) = false ∧
        Fp.mag f (Fp.div f (Fp.sub f ub lb) (Fp.pow2 f n)) ≠ 0)

/-- R62: the invariant of a valid configuration. -/
def Obligations.ValidConfigurationProperties : Prop :=
  ∀ (f : Fmt) (c : CodecConfig), c.wf f = true →
    8 ≤ c.n.toNat ∧ c.n.toNat ≤ 32 ∧
    Fp.isFinite f c.lb = true ∧ Fp.isFinite f c.ub = true ∧ Fp.lt f c.lb c.ub = true ∧
    (c.map = 0 ∨ c.map = 1) ∧
    Fp.isFinite f c.step = true ∧ Fp.lt f Fp.zero c.step = true ∧
    c.clb = 0 ∧ c.cub.toNat = (if c.map = 0 then 2 ^ c.n.toNat - 1 else 2 ^ (c.n.toNat - 1)) ∧
    c.cub.toNat < 2 ^ c.n.toNat ∧ c.clb ≠ c.cub

/-! ## The scalar quantizer -/

/-- R68: QENC writes the code of `SV` to `SC` and changes nothing else; a NaN fails with INVALID_INPUT. -/
def Obligations.QencQuantizesScalar : Prop :=
  ∀ s : State, s.status.cfgValid = true →
    (Fp.isNan s.params.fmt s.sv = false → ∃ r, quantEncode s.params.fmt s.cfg s.sv = some r ∧
      exec .qenc s = .next { s with
        sc := BitVec.ofNat 32 r
        status := { s.status with busy := false, err := false, ecode := 0 }
        errIdx := 0 }) ∧
    (Fp.isNan s.params.fmt s.sv = true →
      exec .qenc s = .next { s with
        status := { s.status with busy := false, err := true, ecode := 5 }
        errIdx := 0 })

/-- R69: QDEC writes the value of the code in `SC` to `SV` and changes nothing else; a code of more than `N` bits fails
with CODE_RANGE. R67, under a valid configuration: `CLB` gives `LB` and `CUB` gives `UB`, bit for bit; every other code
of at most `N` bits gives the formula's value, of the code itself for the natural mapping and of its Gray inverse for
the Gray mapping. -/
def Obligations.QdecDequantizesScalar : Prop :=
  ∀ s : State, s.status.cfgValid = true →
    (s.sc.toNat < 2 ^ s.cfg.n.toNat → ∃ v, quantDecode s.params.fmt s.cfg s.sc.toNat = some v ∧
      exec .qdec s = .next { s with
        sv := v
        status := { s.status with busy := false, err := false, ecode := 0 }
        errIdx := 0 }) ∧
    (2 ^ s.cfg.n.toNat ≤ s.sc.toNat →
      exec .qdec s = .next { s with
        status := { s.status with busy := false, err := true, ecode := 6 }
        errIdx := 0 }) ∧
    (s.cfg.wf s.params.fmt = true → ∀ code k, code < 2 ^ s.cfg.n.toNat →
      (code = s.cfg.clb.toNat → quantDecode s.params.fmt s.cfg code = some s.cfg.lb) ∧
      (code = s.cfg.cub.toNat → quantDecode s.params.fmt s.cfg code = some s.cfg.ub) ∧
      (code ≠ s.cfg.clb.toNat → code ≠ s.cfg.cub.toNat →
        ((s.cfg.map = 0 ∧ k = code) ∨ (s.cfg.map = 1 ∧ k = grayInv code)) →
        quantDecode s.params.fmt s.cfg code =
          some (Fp.add s.params.fmt (Fp.mul s.params.fmt (Fp.fromNat s.params.fmt k) s.cfg.step) s.cfg.lb)))

/-- R66, R70, width and clamping: under a valid configuration every value that is no NaN has a code of at most `N`
bits; values at or below `LB`, minus infinity among them, give `CLB`; values at or above `UB`, plus infinity among
them, give `CUB`. -/
def Obligations.QuantEncodeFitsWidthAndClamps : Prop :=
  ∀ (f : Fmt) (c : CodecConfig) (v : Datum), c.wf f = true →
    (Fp.isNan f v = false → ∃ r, quantEncode f c v = some r ∧ r < 2 ^ c.n.toNat) ∧
    (Fp.le f v c.lb = true → quantEncode f c v = some c.clb.toNat) ∧
    (Fp.ge f v c.ub = true → quantEncode f c v = some c.cub.toNat) ∧
    (Fp.isInf f v = true → quantEncode f c v = some (if Fp.sign f v then c.clb.toNat else c.cub.toNat))

/-- R66: between the bounds the natural index is the floor of the rounded quotient `q`, saturated to `2^N - 1`, and
`q` is finite and not negative. `2 ^ unitExp` units are 1. -/
def Obligations.IndexIsSaturatedFloor : Prop :=
  ∀ (f : Fmt) (c : CodecConfig) (v q : Datum) (idx : Nat), c.wf f = true →
    Fp.lt f c.lb v = true → Fp.lt f v c.ub = true →
    q = Fp.div f (Fp.sub f v c.lb) c.step →
    quantEncode f c v = some (if c.map = 0 then idx else gray idx) → idx < 2 ^ c.n.toNat →
    Fp.isFinite f q = true ∧ 0 ≤ Fp.units f q ∧
    (idx * 2 ^ Fp.unitExp f : Nat) ≤ Fp.units f q ∧
    (idx < 2 ^ c.n.toNat - 1 → Fp.units f q < ((idx + 1) * 2 ^ Fp.unitExp f : Nat))

/-- R70, monotonic index: for the natural mapping the code does not decrease as the value rises. -/
def Obligations.NaturalCodeIsMonotone : Prop :=
  ∀ (f : Fmt) (c : CodecConfig) (v w : Datum) (a b : Nat), c.wf f = true → c.map = 0 →
    Fp.le f v w = true → quantEncode f c v = some a → quantEncode f c w = some b → a ≤ b

/-- R70, boundary exactness: the bounds come back bit for bit, in both mappings. -/
def Obligations.BoundsRoundTripExactly : Prop :=
  ∀ (f : Fmt) (c : CodecConfig), c.wf f = true →
    (∃ a, quantEncode f c c.lb = some a ∧ quantDecode f c a = some c.lb) ∧
    (∃ b, quantEncode f c c.ub = some b ∧ quantDecode f c b = some c.ub)

/-- R67: a value decoded under a valid configuration is never a NaN. -/
def Obligations.DecodedValueIsNeverNan : Prop :=
  ∀ (f : Fmt) (c : CodecConfig) (code : Nat), c.wf f = true → code < 2 ^ c.n.toNat →
    ∃ v, quantDecode f c code = some v ∧ Fp.isNan f v = false

/-- R67 derives that a decoded value is finite. Expected to fail: for `binary32` at `N = 32`, where `fp_from_nat`
rounds the code up to `2^32`, the last sum can overflow (log entry 11). -/
def Obligations.DecodedValueIsAlwaysFinite : Prop :=
  ∀ (f : Fmt) (c : CodecConfig) (code : Nat), c.wf f = true → code < 2 ^ c.n.toNat →
    ∃ v, quantDecode f c code = some v ∧ Fp.isFinite f v = true

/-- R70, the example of its last bullet: under a valid configuration a value between the bounds can come back with an
error of more than one step, so that the source's bound is no rule of the machine (90_conflicts C3). -/
def Obligations.RoundTripErrorCanExceedStep : Prop :=
  ∃ c : CodecConfig, c.wf .binary64 = true ∧ c.n = 8 ∧ c.lb = 0x3FF0000000000000 ∧ c.ub = 0x3FF00000000000C0 ∧
    quantEncode .binary64 c 0x3FF0000000000005 = some 6 ∧
    quantDecode .binary64 c 6 = some 0x3FF0000000000004 ∧
    Fp.mag .binary64 c.step < (Fp.units .binary64 0x3FF0000000000005 - Fp.units .binary64 0x3FF0000000000004).natAbs

/-- R64, R65: the reflection and its inverse keep the width and undo each other; bit `j` of the inverse is the
exclusive OR of bits `j` to `N-1` of the code. -/
def Obligations.GrayInverseUndoesGray : Prop :=
  ∀ n i : Nat, i < 2 ^ n →
    gray i < 2 ^ n ∧ grayInv i < 2 ^ n ∧ grayInv (gray i) = i ∧ gray (grayInv i) = i ∧
    ∀ j, (grayInv i).testBit j = (List.range (n - j)).foldl (fun b k => b ^^ i.testBit (j + k)) false

/-- R70, Gray adjacency: the codes of consecutive indices differ in exactly one bit. -/
def Obligations.GrayCodesAdjacent : Prop :=
  ∀ n i : Nat, i < 2 ^ n - 1 → ∃ k, k < n ∧ gray i ^^^ gray (i + 1) = 2 ^ k

/-! ## The packer -/

/-- R72: `PackStep`, applied to codes in order from zero bytes and the cursor (0, 0), gives the bytes of
`Serialize`. -/
def Obligations.PackStepEqualsSerialize : Prop :=
  ∀ (cs : List Nat) (n : Nat),
    ∃ cur, packAll n (fun i => cs[i]?) cs.length 0 (List.replicate (ceilDiv (cs.length * n) 8) 0) Cursor.start =
      .ok (serialize cs n, cur)

/-- R74: `UnpackStep`, applied `count` times from the cursor (0, 0), gives the codes of `Deserialize`. -/
def Obligations.UnpackStepEqualsDeserialize : Prop :=
  ∀ (read : Nat → Byte) (n count : Nat),
    (unpackAll n read count Cursor.start).1 = deserialize read n count

/-- R75: after `k` codes of width `N` the cursor is `((k*N) div 8, (k*N) mod 8)`, in both walks. -/
def Obligations.CursorAfterCodes : Prop :=
  ∀ (n k : Nat),
    (∀ (code : Nat → Nat) (bs : List Byte), ∃ bs', packAll n (fun i => some (code i)) k 0 bs Cursor.start =
      .ok (bs', { byte := (k * n) / 8, off := (k * n) % 8 })) ∧
    (∀ read : Nat → Byte, (unpackAll n read k Cursor.start).2 = { byte := (k * n) / 8, off := (k * n) % 8 })

/-- R39, R40: `Serialize` gives `ceil_div(count * N, 8)` bytes; bit `p` of code `i` is stream bit `i*N + (N-1-p)`; the
padding bits are 0. -/
def Obligations.SerializedStreamLayout : Prop :=
  ∀ (cs : List Nat) (n : Nat),
    (serialize cs n).length = ceilDiv (cs.length * n) 8 ∧
    (∀ i p, i < cs.length → p < n →
      streamBitOf (fun k => (serialize cs n).getD k 0) (i * n + (n - 1 - p)) = (cs.getD i 0).testBit p) ∧
    (∀ k, cs.length * n ≤ k → k < 8 * ceilDiv (cs.length * n) 8 →
      streamBitOf (fun k => (serialize cs n).getD k 0) k = false)

/-- R41: at a width of `m` whole bytes the bytes are the codes in big-endian order. -/
def Obligations.AlignedCodesAreBigEndian : Prop :=
  ∀ (cs : List Nat) (m i j : Nat), m ∈ [1, 2, 3, 4] → i < cs.length → j < m →
    ((serialize cs (8 * m)).getD (i * m + j) 0).toNat = ((cs.getD i 0) >>> (8 * m - 8 - 8 * j)) % 256

/-- R76: the count inferred from the length that PACK or ENCODE wrote is the count packed. -/
def Obligations.InferredCountIsPackedCount : Prop :=
  ∀ count n : Nat, 8 ≤ n → inferCount (ceilDiv (count * n) 8) n = count

/-- R77: PACK writes the bytes of `Serialize` to `BBUF[0 .. L-1]`, leaves the later bytes, sets `BLEN` to `L` and the
cursor to the number of bits packed, and changes nothing else. -/
def Obligations.PackSerializesCodes : Prop :=
  ∀ s : State, s.Inv → s.status.cfgValid = true → s.count.toNat ≤ s.params.maxCount →
    (∀ i, i < s.count.toNat → (s.codeAt i).toNat < 2 ^ s.cfg.n.toNat) →
    ∃ t, exec .pack s = .next t ∧
      t = { s with
        bbuf := t.bbuf
        blen := t.blen
        curByte := t.curByte
        curBit := t.curBit
        status := { s.status with busy := false, err := false, ecode := 0 }
        errIdx := 0 } ∧
      t.blen.toNat = ceilDiv (s.count.toNat * s.cfg.n.toNat) 8 ∧
      t.curByte.toNat = (s.count.toNat * s.cfg.n.toNat) / 8 ∧
      t.curBit.toNat = (s.count.toNat * s.cfg.n.toNat) % 8 ∧
      (∀ k, k < t.blen.toNat → t.byteAt k =
        (serialize ((List.range s.count.toNat).map fun i => (s.codeAt i).toNat) s.cfg.n.toNat).getD k 0) ∧
      (∀ k, t.blen.toNat ≤ k → t.byteAt k = s.byteAt k)

/-- R77, R87: PACK stops at the first code of more than `N` bits and reports its index with CODE_RANGE; bytes at or
past `L`, `BLEN` and the cursor are unchanged. PACK and ENCODE with `COUNT` beyond capacity fail with CAPACITY. The
draw counter is the model's own (log entry 4). -/
def Obligations.PackErrors : Prop :=
  ∀ s : State, s.status.cfgValid = true →
    (s.params.maxCount < s.count.toNat → ∀ i ∈ [Instr.pack, .encode],
      exec i s = .next { s with
        status := { s.status with busy := false, err := true, ecode := 8 }
        errIdx := 0 }) ∧
    (∀ i, s.count.toNat ≤ s.params.maxCount → i < s.count.toNat → 2 ^ s.cfg.n.toNat ≤ (s.codeAt i).toNat →
      (∀ j, j < i → (s.codeAt j).toNat < 2 ^ s.cfg.n.toNat) →
      ∃ t, exec .pack s = .next t ∧
        t = { s with
          bbuf := t.bbuf
          draws := t.draws
          status := { s.status with busy := false, err := true, ecode := 6 }
          errIdx := BitVec.ofNat 32 i } ∧
        t.errIdx.toNat = i ∧
        ∀ k, ceilDiv (s.count.toNat * s.cfg.n.toNat) 8 ≤ k → t.byteAt k = s.byteAt k)

/-- R78: UNPACK writes the `COUNT` codes of the stream in `BBUF` to `CBUF[0 .. COUNT-1]`, leaves the later elements,
sets the cursor, and changes nothing else. -/
def Obligations.UnpackDeserializesCodes : Prop :=
  ∀ s : State, s.Inv → s.status.cfgValid = true → s.count.toNat ≤ s.params.maxCount →
    s.blen.toNat ≤ maxBytes s.params → s.count.toNat ≠ 0 → s.count.toNat * s.cfg.n.toNat ≤ 8 * s.blen.toNat →
    ∃ t, exec .unpack s = .next t ∧
      t = { s with
        cbuf := t.cbuf
        curByte := t.curByte
        curBit := t.curBit
        status := { s.status with busy := false, err := false, ecode := 0 }
        errIdx := 0 } ∧
      t.curByte.toNat = (s.count.toNat * s.cfg.n.toNat) / 8 ∧
      t.curBit.toNat = (s.count.toNat * s.cfg.n.toNat) % 8 ∧
      (∀ i, i < s.count.toNat → (t.codeAt i).toNat = deserializeCode s.byteAt s.cfg.n.toNat i) ∧
      (∀ i, s.count.toNat ≤ i → t.codeAt i = s.codeAt i)

/-- R79: UNPACKI does the same with the count inferred from `BLEN`, and writes that count to `COUNT`. -/
def Obligations.UnpackiInfersAndDeserializes : Prop :=
  ∀ (s : State) (count : Nat), s.Inv → s.status.cfgValid = true → s.blen.toNat ≤ maxBytes s.params →
    count = (8 * s.blen.toNat) / s.cfg.n.toNat → count ≠ 0 → count ≤ s.params.maxCount →
    ∃ t, exec .unpacki s = .next t ∧
      t = { s with
        cbuf := t.cbuf
        count := t.count
        curByte := t.curByte
        curBit := t.curBit
        status := { s.status with busy := false, err := false, ecode := 0 }
        errIdx := 0 } ∧
      t.count.toNat = count ∧
      t.curByte.toNat = (count * s.cfg.n.toNat) / 8 ∧
      t.curBit.toNat = (count * s.cfg.n.toNat) % 8 ∧
      (∀ i, i < count → (t.codeAt i).toNat = deserializeCode s.byteAt s.cfg.n.toNat i) ∧
      (∀ i, count ≤ i → t.codeAt i = s.codeAt i)

/-- R78, R79, R82, R83, R88: the errors of UNPACK and DECODE, and those of UNPACKI and DECODEI, in their order of
priority; each changes nothing but `STATUS` and `ERRIDX`. -/
def Obligations.UnpackErrorPriority : Prop :=
  ∀ (s : State) (i : Instr) (e : BitVec 8), s.status.cfgValid = true → e ≠ 0 →
    (i ∈ [Instr.unpack, .decode] →
      e = (if s.params.maxCount < s.count.toNat ∨ maxBytes s.params < s.blen.toNat then 8
        else if s.count.toNat = 0 then 3
        else if 8 * s.blen.toNat < s.count.toNat * s.cfg.n.toNat then 2 else 0) →
      exec i s = .next { s with
        status := { s.status with busy := false, err := true, ecode := e }
        errIdx := 0 }) ∧
    (i ∈ [Instr.unpacki, .decodei] →
      e = (if maxBytes s.params < s.blen.toNat then 8
        else if (8 * s.blen.toNat) / s.cfg.n.toNat = 0 then 3
        else if s.params.maxCount < (8 * s.blen.toNat) / s.cfg.n.toNat then 8 else 0) →
      exec i s = .next { s with
        status := { s.status with busy := false, err := true, ecode := e }
        errIdx := 0 })

/-- R80, round trip: after a PACK that succeeds, UNPACK with the same `COUNT` and UNPACKI both write the codes that
PACK read, and UNPACKI finds the count. -/
def Obligations.PackUnpackRoundTrip : Prop :=
  ∀ s t : State, s.Inv → exec .pack s = .next t → t.status.err = false → s.count.toNat ≠ 0 →
    (∃ u, exec .unpack t = .next u ∧ u.status.err = false ∧
      ∀ i, i < s.count.toNat → u.codeAt i = s.codeAt i) ∧
    (∃ u, exec .unpacki t = .next u ∧ u.status.err = false ∧ u.count = s.count ∧
      ∀ i, i < s.count.toNat → u.codeAt i = s.codeAt i)

/-- R80, mapping independence: PACK, UNPACK and UNPACKI depend on nothing of the active configuration but the width.
R80 speaks of codes below `2^N`. Where PACK fails with CODE_RANGE, the spec leaves the bytes below
`ceil_div(COUNT * N, 8)` unspecified (R87, U3): that two runs from one state leave the same bytes there, the bytes of
the draw with the number in `draws`, is the model's choice and no claim about the hardware (log entry 4). -/
def Obligations.PackerDependsOnlyOnWidth : Prop :=
  ∀ (s t : State) (c : CodecConfig) (i : Instr), i ∈ [Instr.pack, .unpack, .unpacki] → c.n = s.cfg.n →
    exec i s = .next t → exec i { s with cfg := c } = .next { t with cfg := c }

/-! ## The codec -/

/-- R81: ENCODE writes the bytes of `Serialize` of the quantized values to `BBUF[0 .. L-1]`, leaves the later bytes,
sets `BLEN` and the cursor, and changes nothing else, `CBUF` included. -/
def Obligations.EncodePacksQuantizedValues : Prop :=
  ∀ s : State, s.Inv → s.status.cfgValid = true → s.count.toNat ≤ s.params.maxCount →
    (∀ i, i < s.count.toNat → Fp.isNan s.params.fmt (s.valueAt i) = false) →
    ∃ t cs, exec .encode s = .next t ∧
      t = { s with
        bbuf := t.bbuf
        blen := t.blen
        curByte := t.curByte
        curBit := t.curBit
        status := { s.status with busy := false, err := false, ecode := 0 }
        errIdx := 0 } ∧
      (List.range s.count.toNat).map (fun i => quantEncode s.params.fmt s.cfg (s.valueAt i)) = cs.map some ∧
      t.blen.toNat = ceilDiv (s.count.toNat * s.cfg.n.toNat) 8 ∧
      t.curByte.toNat = (s.count.toNat * s.cfg.n.toNat) / 8 ∧
      t.curBit.toNat = (s.count.toNat * s.cfg.n.toNat) % 8 ∧
      (∀ k, k < t.blen.toNat → t.byteAt k = (serialize cs s.cfg.n.toNat).getD k 0) ∧
      (∀ k, t.blen.toNat ≤ k → t.byteAt k = s.byteAt k)

/-- R81, R87: ENCODE stops at the first NaN and reports its index with INVALID_INPUT; bytes at or past `L`, `BLEN` and
the cursor are unchanged. The draw counter is the model's own (log entry 4). -/
def Obligations.EncodeStopsAtFirstNan : Prop :=
  ∀ (s : State) (i : Nat), s.status.cfgValid = true → s.count.toNat ≤ s.params.maxCount → i < s.count.toNat →
    Fp.isNan s.params.fmt (s.valueAt i) = true → (∀ j, j < i → Fp.isNan s.params.fmt (s.valueAt j) = false) →
    ∃ t, exec .encode s = .next t ∧
      t = { s with
        bbuf := t.bbuf
        draws := t.draws
        status := { s.status with busy := false, err := true, ecode := 5 }
        errIdx := BitVec.ofNat 32 i } ∧
      t.errIdx.toNat = i ∧
      ∀ k, ceilDiv (s.count.toNat * s.cfg.n.toNat) 8 ≤ k → t.byteAt k = s.byteAt k

/-- R82: DECODE writes the dequantized codes of the stream in `BBUF` to `VBUF[0 .. COUNT-1]`, leaves the later
elements, sets the cursor, and changes nothing else, `CBUF` included. No code is out of range. -/
def Obligations.DecodeDequantizesCodes : Prop :=
  ∀ s : State, s.Inv → s.status.cfgValid = true → s.count.toNat ≤ s.params.maxCount →
    s.blen.toNat ≤ maxBytes s.params → s.count.toNat ≠ 0 → s.count.toNat * s.cfg.n.toNat ≤ 8 * s.blen.toNat →
    ∃ t, exec .decode s = .next t ∧
      t = { s with
        vbuf := t.vbuf
        curByte := t.curByte
        curBit := t.curBit
        status := { s.status with busy := false, err := false, ecode := 0 }
        errIdx := 0 } ∧
      t.curByte.toNat = (s.count.toNat * s.cfg.n.toNat) / 8 ∧
      t.curBit.toNat = (s.count.toNat * s.cfg.n.toNat) % 8 ∧
      (∀ i, i < s.count.toNat →
        quantDecode s.params.fmt s.cfg (deserializeCode s.byteAt s.cfg.n.toNat i) = some (t.valueAt i)) ∧
      (∀ i, s.count.toNat ≤ i → t.valueAt i = s.valueAt i)

/-- R83: DECODEI does the same with the count inferred from `BLEN`, and writes that count to `COUNT`. -/
def Obligations.DecodeiInfersAndDequantizes : Prop :=
  ∀ (s : State) (count : Nat), s.Inv → s.status.cfgValid = true → s.blen.toNat ≤ maxBytes s.params →
    count = (8 * s.blen.toNat) / s.cfg.n.toNat → count ≠ 0 → count ≤ s.params.maxCount →
    ∃ t, exec .decodei s = .next t ∧
      t = { s with
        vbuf := t.vbuf
        count := t.count
        curByte := t.curByte
        curBit := t.curBit
        status := { s.status with busy := false, err := false, ecode := 0 }
        errIdx := 0 } ∧
      t.count.toNat = count ∧
      t.curByte.toNat = (count * s.cfg.n.toNat) / 8 ∧
      t.curBit.toNat = (count * s.cfg.n.toNat) % 8 ∧
      (∀ i, i < count →
        quantDecode s.params.fmt s.cfg (deserializeCode s.byteAt s.cfg.n.toNat i) = some (t.valueAt i)) ∧
      (∀ i, count ≤ i → t.valueAt i = s.valueAt i)

/-- R84, code-level round trip: after an ENCODE that succeeds, DECODE with the same `COUNT` and DECODEI both write the
value of the code of each original value, and DECODEI finds the count. -/
def Obligations.EncodeDecodeRoundTrip : Prop :=
  ∀ s t : State, s.Inv → exec .encode s = .next t → t.status.err = false → s.count.toNat ≠ 0 →
    (∃ u, exec .decode t = .next u ∧ u.status.err = false ∧
      ∀ i, i < s.count.toNat → ∃ r, quantEncode s.params.fmt s.cfg (s.valueAt i) = some r ∧
        quantDecode s.params.fmt s.cfg r = some (u.valueAt i)) ∧
    (∃ u, exec .decodei t = .next u ∧ u.status.err = false ∧ u.count = s.count ∧
      ∀ i, i < s.count.toNat → ∃ r, quantEncode s.params.fmt s.cfg (s.valueAt i) = some r ∧
        quantDecode s.params.fmt s.cfg r = some (u.valueAt i))

/-! ## Floating point -/

/-- R13: `fp_add` and `fp_sub` of finite data are the exact sum and difference, rounded once. An exact zero is `+0`,
except where both data added are `-0`, a subtraction adding the negated datum: so 1.0 + (-1.0) is `+0` (90_conflicts C1).
R13 leaves the meaning of the operations to IEEE 754: that meaning, the sign of a zero among it, is presumed (log
entry 12). -/
def Obligations.SumAndDifferenceCorrectlyRounded : Prop :=
  ∀ (f : Fmt) (a b : Datum), Fp.isFinite f a = true → Fp.isFinite f b = true →
    Fp.CorrectlyRounded f (Fp.units f a + Fp.units f b) 1 (Fp.add f a b) ∧
    Fp.CorrectlyRounded f (Fp.units f a - Fp.units f b) 1 (Fp.sub f a b) ∧
    (Fp.units f a + Fp.units f b = 0 →
      (Fp.add f a b).toNat = if Fp.sign f a = true ∧ Fp.sign f b = true then 2 ^ (f.width - 1) else 0) ∧
    (Fp.units f a - Fp.units f b = 0 →
      (Fp.sub f a b).toNat = if Fp.sign f a = true ∧ Fp.sign f b = false then 2 ^ (f.width - 1) else 0)

/-- R13: `fp_mul` of finite data, and `fp_div` of finite data by one that is not zero, are the exact product and
quotient, rounded once. The result, be it zero, has the sign bit set exactly where one operand alone has it set. R13
leaves the meaning of the operations to IEEE 754: that meaning, the sign among it, is presumed (log entry 12). -/
def Obligations.ProductAndQuotientCorrectlyRounded : Prop :=
  ∀ (f : Fmt) (a b : Datum), Fp.isFinite f a = true → Fp.isFinite f b = true →
    Fp.CorrectlyRounded f (Fp.units f a * Fp.units f b) (2 ^ Fp.unitExp f) (Fp.mul f a b) ∧
    (Fp.sign f (Fp.mul f a b) = true ↔ Fp.sign f a ≠ Fp.sign f b) ∧
    (Fp.units f b ≠ 0 →
      Fp.CorrectlyRounded f
        (Fp.units f a * (if Fp.units f b < 0 then -(2 ^ Fp.unitExp f) else 2 ^ Fp.unitExp f))
        (Fp.mag f b) (Fp.div f a b) ∧
      (Fp.sign f (Fp.div f a b) = true ↔ Fp.sign f a ≠ Fp.sign f b))

/-- R13: `fp_from_nat` rounds once and is exact in `binary64`, and in `binary32` up to `2^24`; `fp_pow2` is exact;
`fp_floor_nat` of a finite datum that is not negative is the floor of its value. `2 ^ unitExp` units are 1. -/
def Obligations.NaturalConversions : Prop :=
  (∀ (f : Fmt) (k : Nat), k < 2 ^ 32 →
    Fp.CorrectlyRounded f (k * 2 ^ Fp.unitExp f : Nat) 1 (Fp.fromNat f k) ∧
    (f = .binary64 ∨ k ≤ 2 ^ 24 → Fp.units f (Fp.fromNat f k) = (k * 2 ^ Fp.unitExp f : Nat))) ∧
  (∀ (f : Fmt) (k : Nat), k ≤ 32 → Fp.units f (Fp.pow2 f k) = (2 ^ k * 2 ^ Fp.unitExp f : Nat)) ∧
  (∀ (f : Fmt) (q : Datum), Fp.isFinite f q = true → 0 ≤ Fp.units f q →
    Fp.floorNat f q = (Fp.units f q).toNat / 2 ^ Fp.unitExp f)

/-- R13: the comparisons of finite data compare their exact values, so that `+0` and `-0` are equal; each is false when
an operand is a NaN. -/
def Obligations.ComparisonsCompareValues : Prop :=
  ∀ (f : Fmt) (a b : Datum),
    (Fp.isFinite f a = true → Fp.isFinite f b = true →
      Fp.lt f a b = decide (Fp.units f a < Fp.units f b) ∧ Fp.le f a b = decide (Fp.units f a ≤ Fp.units f b) ∧
      Fp.ge f a b = decide (Fp.units f b ≤ Fp.units f a) ∧ Fp.eq f a b = decide (Fp.units f a = Fp.units f b)) ∧
    (Fp.isNan f a = true ∨ Fp.isNan f b = true →
      Fp.lt f a b = false ∧ Fp.le f a b = false ∧ Fp.ge f a b = false ∧ Fp.eq f a b = false)
end

