-- ==== Sys2Proof/Laws/State.lean ====
section
/-! SUPPORT. What each named update of the state does to each field, so that no proof unfolds a record update. -/

namespace Sys2Proof.Machine

@[simp] theorem Status.started_busy (st : Status) : st.started.busy = true := rfl
@[simp] theorem Status.started_cfgValid (st : Status) : st.started.cfgValid = st.cfgValid := rfl
@[simp] theorem Status.started_err (st : Status) : st.started.err = st.err := rfl
@[simp] theorem Status.started_ecode (st : Status) : st.started.ecode = st.ecode := rfl
@[simp] theorem Status.succeeded_busy (st : Status) : st.succeeded.busy = false := rfl
@[simp] theorem Status.succeeded_cfgValid (st : Status) : st.succeeded.cfgValid = st.cfgValid := rfl
@[simp] theorem Status.succeeded_err (st : Status) : st.succeeded.err = false := rfl
@[simp] theorem Status.succeeded_ecode (st : Status) : st.succeeded.ecode = 0 := rfl
@[simp] theorem Status.failed_busy (st : Status) (e : ErrCode) : (st.failed e).busy = false := rfl
@[simp] theorem Status.failed_cfgValid (st : Status) (e : ErrCode) : (st.failed e).cfgValid = st.cfgValid := rfl
@[simp] theorem Status.failed_err (st : Status) (e : ErrCode) : (st.failed e).err = true := rfl
@[simp] theorem Status.failed_ecode (st : Status) (e : ErrCode) : (st.failed e).ecode = e.code := rfl
@[simp] theorem Status.configured_busy (st : Status) : st.configured.busy = st.busy := rfl
@[simp] theorem Status.configured_cfgValid (st : Status) : st.configured.cfgValid = true := rfl
@[simp] theorem Status.configured_err (st : Status) : st.configured.err = st.err := rfl
@[simp] theorem Status.configured_ecode (st : Status) : st.configured.ecode = st.ecode := rfl

theorem ErrCode.code_ne_zero (e : ErrCode) : e.code ≠ 0 := by cases e <;> decide
theorem ErrCode.code_le (e : ErrCode) : e.code.toNat ≤ 8 := by cases e <;> decide

section
variable (s : State)
@[simp] theorem State.complete_params : s.complete.params = s.params := rfl
@[simp] theorem State.complete_cmd : s.complete.cmd = s.cmd := rfl
@[simp] theorem State.complete_status : s.complete.status = s.status.succeeded := rfl
@[simp] theorem State.complete_errIdx : s.complete.errIdx = 0 := rfl
@[simp] theorem State.complete_setN : s.complete.setN = s.setN := rfl
@[simp] theorem State.complete_setLb : s.complete.setLb = s.setLb := rfl
@[simp] theorem State.complete_setUb : s.complete.setUb = s.setUb := rfl
@[simp] theorem State.complete_setMap : s.complete.setMap = s.setMap := rfl
@[simp] theorem State.complete_cfg : s.complete.cfg = s.cfg := rfl
@[simp] theorem State.complete_count : s.complete.count = s.count := rfl
@[simp] theorem State.complete_blen : s.complete.blen = s.blen := rfl
@[simp] theorem State.complete_curByte : s.complete.curByte = s.curByte := rfl
@[simp] theorem State.complete_curBit : s.complete.curBit = s.curBit := rfl
@[simp] theorem State.complete_sv : s.complete.sv = s.sv := rfl
@[simp] theorem State.complete_sc : s.complete.sc = s.sc := rfl
@[simp] theorem State.complete_vbuf : s.complete.vbuf = s.vbuf := rfl
@[simp] theorem State.complete_cbuf : s.complete.cbuf = s.cbuf := rfl
@[simp] theorem State.complete_bbuf : s.complete.bbuf = s.bbuf := rfl
@[simp] theorem State.complete_epoch : s.complete.epoch = s.epoch := rfl
@[simp] theorem State.complete_draws : s.complete.draws = s.draws := rfl
@[simp] theorem State.complete_script : s.complete.script = s.script := rfl
@[simp] theorem State.complete_reads : s.complete.reads = s.reads := rfl
end

section
variable (s : State) (e : ErrCode) (j : Nat)
@[simp] theorem State.raise_params : (s.raise e j).params = s.params := rfl
@[simp] theorem State.raise_cmd : (s.raise e j).cmd = s.cmd := rfl
@[simp] theorem State.raise_status : (s.raise e j).status = s.status.failed e := rfl
@[simp] theorem State.raise_errIdx : (s.raise e j).errIdx = BitVec.ofNat 32 j := rfl
@[simp] theorem State.raise_setN : (s.raise e j).setN = s.setN := rfl
@[simp] theorem State.raise_setLb : (s.raise e j).setLb = s.setLb := rfl
@[simp] theorem State.raise_setUb : (s.raise e j).setUb = s.setUb := rfl
@[simp] theorem State.raise_setMap : (s.raise e j).setMap = s.setMap := rfl
@[simp] theorem State.raise_cfg : (s.raise e j).cfg = s.cfg := rfl
@[simp] theorem State.raise_count : (s.raise e j).count = s.count := rfl
@[simp] theorem State.raise_blen : (s.raise e j).blen = s.blen := rfl
@[simp] theorem State.raise_curByte : (s.raise e j).curByte = s.curByte := rfl
@[simp] theorem State.raise_curBit : (s.raise e j).curBit = s.curBit := rfl
@[simp] theorem State.raise_sv : (s.raise e j).sv = s.sv := rfl
@[simp] theorem State.raise_sc : (s.raise e j).sc = s.sc := rfl
@[simp] theorem State.raise_vbuf : (s.raise e j).vbuf = s.vbuf := rfl
@[simp] theorem State.raise_cbuf : (s.raise e j).cbuf = s.cbuf := rfl
@[simp] theorem State.raise_bbuf : (s.raise e j).bbuf = s.bbuf := rfl
@[simp] theorem State.raise_epoch : (s.raise e j).epoch = s.epoch := rfl
@[simp] theorem State.raise_draws : (s.raise e j).draws = s.draws := rfl
@[simp] theorem State.raise_script : (s.raise e j).script = s.script := rfl
@[simp] theorem State.raise_reads : (s.raise e j).reads = s.reads := rfl
end

section
variable (s : State) (len : Nat)
@[simp] theorem State.drawBytes_params : (s.drawBytes len).params = s.params := rfl
@[simp] theorem State.drawBytes_cmd : (s.drawBytes len).cmd = s.cmd := rfl
@[simp] theorem State.drawBytes_status : (s.drawBytes len).status = s.status := rfl
@[simp] theorem State.drawBytes_errIdx : (s.drawBytes len).errIdx = s.errIdx := rfl
@[simp] theorem State.drawBytes_setN : (s.drawBytes len).setN = s.setN := rfl
@[simp] theorem State.drawBytes_setLb : (s.drawBytes len).setLb = s.setLb := rfl
@[simp] theorem State.drawBytes_setUb : (s.drawBytes len).setUb = s.setUb := rfl
@[simp] theorem State.drawBytes_setMap : (s.drawBytes len).setMap = s.setMap := rfl
@[simp] theorem State.drawBytes_cfg : (s.drawBytes len).cfg = s.cfg := rfl
@[simp] theorem State.drawBytes_count : (s.drawBytes len).count = s.count := rfl
@[simp] theorem State.drawBytes_blen : (s.drawBytes len).blen = s.blen := rfl
@[simp] theorem State.drawBytes_curByte : (s.drawBytes len).curByte = s.curByte := rfl
@[simp] theorem State.drawBytes_curBit : (s.drawBytes len).curBit = s.curBit := rfl
@[simp] theorem State.drawBytes_sv : (s.drawBytes len).sv = s.sv := rfl
@[simp] theorem State.drawBytes_sc : (s.drawBytes len).sc = s.sc := rfl
@[simp] theorem State.drawBytes_vbuf : (s.drawBytes len).vbuf = s.vbuf := rfl
@[simp] theorem State.drawBytes_cbuf : (s.drawBytes len).cbuf = s.cbuf := rfl
@[simp] theorem State.drawBytes_bbuf : (s.drawBytes len).bbuf = Memory.storeAll (w := 8) s.bbuf 0 ((List.range len).map (Config.freeByte s.draws)) := rfl
@[simp] theorem State.drawBytes_epoch : (s.drawBytes len).epoch = s.epoch := rfl
@[simp] theorem State.drawBytes_draws : (s.drawBytes len).draws = s.draws + 1 := rfl
@[simp] theorem State.drawBytes_script : (s.drawBytes len).script = s.script := rfl
@[simp] theorem State.drawBytes_reads : (s.drawBytes len).reads = s.reads := rfl
end

section
variable (s : State) (v : Datum)
@[simp] theorem State.note_params : (s.note v).params = s.params := rfl
@[simp] theorem State.note_cmd : (s.note v).cmd = s.cmd := rfl
@[simp] theorem State.note_status : (s.note v).status = s.status := rfl
@[simp] theorem State.note_errIdx : (s.note v).errIdx = s.errIdx := rfl
@[simp] theorem State.note_setN : (s.note v).setN = s.setN := rfl
@[simp] theorem State.note_setLb : (s.note v).setLb = s.setLb := rfl
@[simp] theorem State.note_setUb : (s.note v).setUb = s.setUb := rfl
@[simp] theorem State.note_setMap : (s.note v).setMap = s.setMap := rfl
@[simp] theorem State.note_cfg : (s.note v).cfg = s.cfg := rfl
@[simp] theorem State.note_count : (s.note v).count = s.count := rfl
@[simp] theorem State.note_blen : (s.note v).blen = s.blen := rfl
@[simp] theorem State.note_curByte : (s.note v).curByte = s.curByte := rfl
@[simp] theorem State.note_curBit : (s.note v).curBit = s.curBit := rfl
@[simp] theorem State.note_sv : (s.note v).sv = s.sv := rfl
@[simp] theorem State.note_sc : (s.note v).sc = s.sc := rfl
@[simp] theorem State.note_vbuf : (s.note v).vbuf = s.vbuf := rfl
@[simp] theorem State.note_cbuf : (s.note v).cbuf = s.cbuf := rfl
@[simp] theorem State.note_bbuf : (s.note v).bbuf = s.bbuf := rfl
@[simp] theorem State.note_epoch : (s.note v).epoch = s.epoch := rfl
@[simp] theorem State.note_draws : (s.note v).draws = s.draws := rfl
@[simp] theorem State.note_script : (s.note v).script = s.script := rfl
@[simp] theorem State.note_reads : (s.note v).reads = v :: s.reads := rfl
end

section
variable (s : State) (cs : List Nat)
@[simp] theorem State.storeCodes_params : (s.storeCodes cs).params = s.params := rfl
@[simp] theorem State.storeCodes_cmd : (s.storeCodes cs).cmd = s.cmd := rfl
@[simp] theorem State.storeCodes_status : (s.storeCodes cs).status = s.status := rfl
@[simp] theorem State.storeCodes_errIdx : (s.storeCodes cs).errIdx = s.errIdx := rfl
@[simp] theorem State.storeCodes_setN : (s.storeCodes cs).setN = s.setN := rfl
@[simp] theorem State.storeCodes_setLb : (s.storeCodes cs).setLb = s.setLb := rfl
@[simp] theorem State.storeCodes_setUb : (s.storeCodes cs).setUb = s.setUb := rfl
@[simp] theorem State.storeCodes_setMap : (s.storeCodes cs).setMap = s.setMap := rfl
@[simp] theorem State.storeCodes_cfg : (s.storeCodes cs).cfg = s.cfg := rfl
@[simp] theorem State.storeCodes_count : (s.storeCodes cs).count = s.count := rfl
@[simp] theorem State.storeCodes_blen : (s.storeCodes cs).blen = s.blen := rfl
@[simp] theorem State.storeCodes_curByte : (s.storeCodes cs).curByte = s.curByte := rfl
@[simp] theorem State.storeCodes_curBit : (s.storeCodes cs).curBit = s.curBit := rfl
@[simp] theorem State.storeCodes_sv : (s.storeCodes cs).sv = s.sv := rfl
@[simp] theorem State.storeCodes_sc : (s.storeCodes cs).sc = s.sc := rfl
@[simp] theorem State.storeCodes_vbuf : (s.storeCodes cs).vbuf = s.vbuf := rfl
@[simp] theorem State.storeCodes_cbuf : (s.storeCodes cs).cbuf = Memory.storeAll s.cbuf 0 (cs.map (BitVec.ofNat 32)) := rfl
@[simp] theorem State.storeCodes_bbuf : (s.storeCodes cs).bbuf = s.bbuf := rfl
@[simp] theorem State.storeCodes_epoch : (s.storeCodes cs).epoch = s.epoch := rfl
@[simp] theorem State.storeCodes_draws : (s.storeCodes cs).draws = s.draws := rfl
@[simp] theorem State.storeCodes_script : (s.storeCodes cs).script = s.script := rfl
@[simp] theorem State.storeCodes_reads : (s.storeCodes cs).reads = s.reads := rfl
end

section
variable (s : State) (cs : List Nat)
@[simp] theorem State.storeValues_params : (s.storeValues cs).params = s.params := rfl
@[simp] theorem State.storeValues_cmd : (s.storeValues cs).cmd = s.cmd := rfl
@[simp] theorem State.storeValues_status : (s.storeValues cs).status = s.status := rfl
@[simp] theorem State.storeValues_errIdx : (s.storeValues cs).errIdx = s.errIdx := rfl
@[simp] theorem State.storeValues_setN : (s.storeValues cs).setN = s.setN := rfl
@[simp] theorem State.storeValues_setLb : (s.storeValues cs).setLb = s.setLb := rfl
@[simp] theorem State.storeValues_setUb : (s.storeValues cs).setUb = s.setUb := rfl
@[simp] theorem State.storeValues_setMap : (s.storeValues cs).setMap = s.setMap := rfl
@[simp] theorem State.storeValues_cfg : (s.storeValues cs).cfg = s.cfg := rfl
@[simp] theorem State.storeValues_count : (s.storeValues cs).count = s.count := rfl
@[simp] theorem State.storeValues_blen : (s.storeValues cs).blen = s.blen := rfl
@[simp] theorem State.storeValues_curByte : (s.storeValues cs).curByte = s.curByte := rfl
@[simp] theorem State.storeValues_curBit : (s.storeValues cs).curBit = s.curBit := rfl
@[simp] theorem State.storeValues_sv : (s.storeValues cs).sv = s.sv := rfl
@[simp] theorem State.storeValues_sc : (s.storeValues cs).sc = s.sc := rfl
@[simp] theorem State.storeValues_vbuf : (s.storeValues cs).vbuf = Memory.storeAll s.vbuf 0 (cs.map (dequantize s.params.fmt s.cfg)) := rfl
@[simp] theorem State.storeValues_cbuf : (s.storeValues cs).cbuf = s.cbuf := rfl
@[simp] theorem State.storeValues_bbuf : (s.storeValues cs).bbuf = s.bbuf := rfl
@[simp] theorem State.storeValues_epoch : (s.storeValues cs).epoch = s.epoch := rfl
@[simp] theorem State.storeValues_draws : (s.storeValues cs).draws = s.draws := rfl
@[simp] theorem State.storeValues_script : (s.storeValues cs).script = s.script := rfl
@[simp] theorem State.storeValues_reads : (s.storeValues cs).reads = s.reads := rfl
end

section
variable (s : State) (c : Cursor)
@[simp] theorem State.setCursor_params : (s.setCursor c).params = s.params := rfl
@[simp] theorem State.setCursor_cmd : (s.setCursor c).cmd = s.cmd := rfl
@[simp] theorem State.setCursor_status : (s.setCursor c).status = s.status := rfl
@[simp] theorem State.setCursor_errIdx : (s.setCursor c).errIdx = s.errIdx := rfl
@[simp] theorem State.setCursor_setN : (s.setCursor c).setN = s.setN := rfl
@[simp] theorem State.setCursor_setLb : (s.setCursor c).setLb = s.setLb := rfl
@[simp] theorem State.setCursor_setUb : (s.setCursor c).setUb = s.setUb := rfl
@[simp] theorem State.setCursor_setMap : (s.setCursor c).setMap = s.setMap := rfl
@[simp] theorem State.setCursor_cfg : (s.setCursor c).cfg = s.cfg := rfl
@[simp] theorem State.setCursor_count : (s.setCursor c).count = s.count := rfl
@[simp] theorem State.setCursor_blen : (s.setCursor c).blen = s.blen := rfl
@[simp] theorem State.setCursor_curByte : (s.setCursor c).curByte = BitVec.ofNat 32 c.byte := rfl
@[simp] theorem State.setCursor_curBit : (s.setCursor c).curBit = BitVec.ofNat 32 c.off := rfl
@[simp] theorem State.setCursor_sv : (s.setCursor c).sv = s.sv := rfl
@[simp] theorem State.setCursor_sc : (s.setCursor c).sc = s.sc := rfl
@[simp] theorem State.setCursor_vbuf : (s.setCursor c).vbuf = s.vbuf := rfl
@[simp] theorem State.setCursor_cbuf : (s.setCursor c).cbuf = s.cbuf := rfl
@[simp] theorem State.setCursor_bbuf : (s.setCursor c).bbuf = s.bbuf := rfl
@[simp] theorem State.setCursor_epoch : (s.setCursor c).epoch = s.epoch := rfl
@[simp] theorem State.setCursor_draws : (s.setCursor c).draws = s.draws := rfl
@[simp] theorem State.setCursor_script : (s.setCursor c).script = s.script := rfl
@[simp] theorem State.setCursor_reads : (s.setCursor c).reads = s.reads := rfl
end

section
variable (s : State)
@[simp] theorem State.assertReset_params : s.assertReset.params = s.params := rfl
@[simp] theorem State.assertReset_cmd : s.assertReset.cmd = (State.resetOf s.params).cmd := rfl
@[simp] theorem State.assertReset_status : s.assertReset.status = (State.resetOf s.params).status := rfl
@[simp] theorem State.assertReset_errIdx : s.assertReset.errIdx = (State.resetOf s.params).errIdx := rfl
@[simp] theorem State.assertReset_setN : s.assertReset.setN = (State.resetOf s.params).setN := rfl
@[simp] theorem State.assertReset_setLb : s.assertReset.setLb = (State.resetOf s.params).setLb := rfl
@[simp] theorem State.assertReset_setUb : s.assertReset.setUb = (State.resetOf s.params).setUb := rfl
@[simp] theorem State.assertReset_setMap : s.assertReset.setMap = (State.resetOf s.params).setMap := rfl
@[simp] theorem State.assertReset_cfg : s.assertReset.cfg = (State.resetOf s.params).cfg := rfl
@[simp] theorem State.assertReset_count : s.assertReset.count = (State.resetOf s.params).count := rfl
@[simp] theorem State.assertReset_blen : s.assertReset.blen = (State.resetOf s.params).blen := rfl
@[simp] theorem State.assertReset_curByte : s.assertReset.curByte = (State.resetOf s.params).curByte := rfl
@[simp] theorem State.assertReset_curBit : s.assertReset.curBit = (State.resetOf s.params).curBit := rfl
@[simp] theorem State.assertReset_sv : s.assertReset.sv = (State.resetOf s.params).sv := rfl
@[simp] theorem State.assertReset_sc : s.assertReset.sc = (State.resetOf s.params).sc := rfl
@[simp] theorem State.assertReset_vbuf : s.assertReset.vbuf = (State.resetOf s.params).vbuf := rfl
@[simp] theorem State.assertReset_cbuf : s.assertReset.cbuf = (State.resetOf s.params).cbuf := rfl
@[simp] theorem State.assertReset_bbuf : s.assertReset.bbuf = (State.resetOf s.params).bbuf := rfl
@[simp] theorem State.assertReset_epoch : s.assertReset.epoch = s.draws := rfl
@[simp] theorem State.assertReset_draws : s.assertReset.draws = s.draws + 1 := rfl
@[simp] theorem State.assertReset_script : s.assertReset.script = s.script := rfl
@[simp] theorem State.assertReset_reads : s.assertReset.reads = s.reads := rfl
end

end Sys2Proof.Machine
end

