-- ==== Sys2Proof/Laws/Memory.lean ====
section
/-! SUPPORT. The buffer memories: a read after a write to the same index gives the value written, a write leaves every
other index alone, and every operation keeps the canonical form. -/

namespace Sys2Proof.Machine

variable {w : Nat}

/-- Read after write, once for all indices. -/
theorem Memory.lookup_store (m : Memory w) (a b : Nat) (x : BitVec w) :
    Memory.lookup (Memory.store m a x) b = if b = a then some x else Memory.lookup m b := by
  induction m with
  | nil => simp [Memory.store, Memory.lookup]
  | cons c m ih =>
    obtain ⟨i, v⟩ := c
    simp only [Memory.store]
    split
    · simp [Memory.lookup]
    · split
      · next h => subst h; simp only [Memory.lookup]; split <;> rfl
      · next h1 h2 =>
        simp only [Memory.lookup, ih]
        by_cases hb : b = i
        · simp [hb, Ne.symm h2]
        · simp [hb]

/-- Read after writing a list at consecutive indices. -/
theorem Memory.lookup_storeAll (xs : List (BitVec w)) : ∀ (m : Memory w) (a b : Nat),
    Memory.lookup (Memory.storeAll m a xs) b =
      if a ≤ b ∧ b < a + xs.length then xs[b - a]? else Memory.lookup m b := by
  induction xs with
  | nil => intro m a b; simp [Memory.storeAll]
  | cons x xs ih =>
    intro m a b
    rw [Memory.storeAll, ih, Memory.lookup_store]
    by_cases h : b = a
    · subst h; simp
    · by_cases h1 : a + 1 ≤ b ∧ b < a + 1 + xs.length
      · have h2 : a ≤ b ∧ b < a + (x :: xs).length := by simp; omega
        have h3 : b - a = (b - (a + 1)) + 1 := by omega
        rw [if_pos h1, if_pos h2, h3, List.getElem?_cons_succ]
      · have h2 : ¬(a ≤ b ∧ b < a + (x :: xs).length) := by simp; omega
        rw [if_neg h1, if_neg h2, if_neg h]

theorem Memory.risesFrom_store (m : Memory w) : ∀ (lo a : Nat) (x : BitVec w), lo ≤ a →
    Memory.risesFrom lo m = true → Memory.risesFrom lo (Memory.store m a x) = true := by
  induction m with
  | nil => intro lo a x h _; simp [Memory.store, Memory.risesFrom, h]
  | cons c m ih =>
    obtain ⟨i, v⟩ := c
    intro lo a x h hm
    simp only [Memory.risesFrom, Bool.and_eq_true, decide_eq_true_eq] at hm
    simp only [Memory.store]
    split
    · simp [Memory.risesFrom, h, hm.2]; omega
    · split
      · next h2 => subst h2; simp [Memory.risesFrom, hm.2]; omega
      · simp only [Memory.risesFrom, Bool.and_eq_true, decide_eq_true_eq]
        exact ⟨hm.1, ih _ _ _ (by omega) hm.2⟩

/-- A write keeps the canonical form. -/
theorem Memory.wf_store (m : Memory w) (a : Nat) (x : BitVec w) (h : Memory.wf m = true) :
    Memory.wf (Memory.store m a x) = true := Memory.risesFrom_store m 0 a x (Nat.zero_le a) h

/-- Writing a list keeps the canonical form. -/
theorem Memory.wf_storeAll (xs : List (BitVec w)) : ∀ (m : Memory w) (a : Nat), Memory.wf m = true →
    Memory.wf (Memory.storeAll m a xs) = true := by
  induction xs with
  | nil => intro m a h; exact h
  | cons x xs ih => intro m a h; exact ih _ _ (Memory.wf_store m a x h)

/-- What a write lists: the new entry and entries that were there. -/
theorem Memory.mem_store (m : Memory w) (a : Nat) (x : BitVec w) (c : Nat × BitVec w)
    (h : c ∈ Memory.store m a x) : c = (a, x) ∨ c ∈ m := by
  induction m with
  | nil => simpa [Memory.store] using h
  | cons d m ih =>
    obtain ⟨i, v⟩ := d
    simp only [Memory.store] at h
    split at h
    · simpa using h
    · split at h
      · simp only [List.mem_cons] at h ⊢; tauto
      · simp only [List.mem_cons] at h ⊢
        rcases h with h | h
        · exact .inr (.inl h)
        · exact (ih h).imp id .inr

/-- A property of entries that the new entry has and the old ones had, every entry has after a write. -/
theorem Memory.all_store (p : Nat × BitVec w → Bool) (m : Memory w) (a : Nat) (x : BitVec w)
    (hx : p (a, x) = true) (h : m.all p = true) : (Memory.store m a x).all p = true := by
  rw [List.all_eq_true] at h ⊢
  intro c hc
  rcases Memory.mem_store m a x c hc with rfl | hm
  · exact hx
  · exact h c hm

theorem Memory.all_storeAll (p : Nat × BitVec w → Bool) (xs : List (BitVec w)) : ∀ (m : Memory w) (a : Nat),
    (∀ k (hk : k < xs.length), p (a + k, xs[k]) = true) → m.all p = true →
    (Memory.storeAll m a xs).all p = true := by
  induction xs with
  | nil => intro m a _ h; exact h
  | cons x xs ih =>
    intro m a hx h
    refine ih _ _ (fun k hk => ?_) (Memory.all_store p m a x (hx 0 (by simp)) h)
    have := hx (k + 1) (by simpa using hk)
    simpa [Nat.add_assoc, Nat.add_comm 1 k] using this

theorem Memory.within_store (cap : Nat) (m : Memory w) (a : Nat) (x : BitVec w) (ha : a < cap)
    (h : Memory.within cap m = true) : Memory.within cap (Memory.store m a x) = true :=
  Memory.all_store _ m a x (by simpa using ha) h

theorem Memory.within_storeAll (cap : Nat) (xs : List (BitVec w)) (m : Memory w) (a : Nat)
    (ha : a + xs.length ≤ cap) (h : Memory.within cap m = true) :
    Memory.within cap (Memory.storeAll m a xs) = true :=
  Memory.all_storeAll _ xs m a (fun k hk => by simp; omega) h

end Sys2Proof.Machine
end

