-- ==== Sys2Proof/Laws/Wire.lean ====
section
/-! SUPPORT. The serializer and the deserializer, bit by bit: what one OR-merge, one code and a list of codes do to the
stream bits of a byte list, for the cursor walk and for the closed form. -/

namespace Sys2Proof.Machine

/-- The stream of a byte list, zero past its end. -/
def listBit (bs : List Byte) (k : Nat) : Bool := streamBitOf (fun j => bs.getD j 0) k

/-- The position of a cursor in the stream. -/
def Cursor.pos (c : Cursor) : Nat := 8 * c.byte + c.off

theorem Cursor.pos_start : Cursor.start.pos = 0 := rfl

/-- A cursor inside its domain is determined by its position (10_state R29). -/
theorem Cursor.eq_of_pos (c : Cursor) (h : c.off < 8) : c = { byte := c.pos / 8, off := c.pos % 8 } := by
  obtain ⟨b, o⟩ := c
  simp only [Cursor.pos, Cursor.mk.injEq] at *
  omega

theorem Cursor.advance_pos (c : Cursor) (take : Nat) : (c.advance take).pos = c.pos + take := by
  unfold Cursor.advance Cursor.pos
  split <;> simp only <;> omega

theorem Cursor.advance_off (c : Cursor) (take : Nat) (h : c.off + take ≤ 8) : (c.advance take).off < 8 := by
  unfold Cursor.advance
  split <;> simp only <;> omega

@[simp] theorem orByte_length (bs : List Byte) (b v : Nat) : (orByte bs b v).length = bs.length := by
  simp [orByte]

/-- What one OR-merge does to the stream. -/
theorem listBit_orByte (bs : List Byte) (b v k : Nat) :
    listBit (orByte bs b v) k =
      (listBit bs k || (decide (k / 8 = b) && decide (b < bs.length) && v.testBit (7 - k % 8))) := by
  unfold listBit streamBitOf orByte
  simp only [List.getD_eq_getElem?_getD, List.getElem?_modify]
  by_cases h : b = k / 8
  · subst h
    by_cases hl : k / 8 < bs.length
    · have h7 : 7 - k % 8 < 8 := by omega
      have hv : (BitVec.ofNat 8 v)[7 - k % 8] = v.testBit (7 - k % 8) := by
        rw [← BitVec.getLsbD_eq_getElem, BitVec.getLsbD_ofNat]; simp [h7]
      simp [hl, h7, hv]
    · simp [hl]
  · simp [h, Ne.symm h]

/-- Two byte lists of one length with the same stream are equal. -/
theorem eq_of_listBit (bs cs : List Byte) (hl : bs.length = cs.length) (h : ∀ k, listBit bs k = listBit cs k) :
    bs = cs := by
  apply List.ext_getElem hl
  intro j hj hj'
  apply BitVec.eq_of_getLsbD_eq
  intro i hi
  have := h (8 * j + (7 - i))
  unfold listBit streamBitOf at this
  have e1 : (8 * j + (7 - i)) / 8 = j := by omega
  have e2 : 7 - (8 * j + (7 - i)) % 8 = i := by omega
  rw [e1, e2] at this
  simpa [List.getD_eq_getElem?_getD, hj, hj'] using this

theorem listBit_replicate (len k : Nat) : listBit (List.replicate len 0) k = false := by
  unfold listBit streamBitOf
  simp only [List.getD_eq_getElem?_getD, List.getElem?_replicate]
  split <;> simp

/-- Bits of a slice of a code. -/
theorem testBit_slice (code a take p : Nat) :
    ((code >>> a) &&& (2 ^ take - 1)).testBit p = (decide (p < take) && code.testBit (a + p)) := by
  rw [Nat.and_two_pow_sub_one_eq_mod, Nat.testBit_mod_two_pow, Nat.testBit_shiftRight]

/-- `PackStep`, bit by bit: it ORs the `rem` low bits of the code, most significant first, into the stream at the
cursor, and moves the cursor past them. -/
theorem packLoop_spec (code : Nat) : ∀ (fuel rem : Nat) (bs : List Byte) (c : Cursor), rem ≤ fuel → c.off < 8 →
    (packLoop code fuel rem bs c).1.length = bs.length ∧
    (packLoop code fuel rem bs c).2.off < 8 ∧
    (packLoop code fuel rem bs c).2.pos = c.pos + rem ∧
    ∀ k, k < 8 * bs.length → listBit (packLoop code fuel rem bs c).1 k =
      (listBit bs k || (decide (c.pos ≤ k ∧ k < c.pos + rem) && code.testBit (rem - 1 - (k - c.pos)))) := by
  intro fuel
  induction fuel with
  | zero =>
    intro rem bs c hr ho
    obtain rfl : rem = 0 := by omega
    refine ⟨rfl, ho, rfl, fun k _ => ?_⟩
    simp [packLoop]
  | succ fuel ih =>
    intro rem bs c hr ho
    by_cases h0 : rem = 0
    · subst h0
      refine ⟨by simp [packLoop], by simpa [packLoop] using ho, by simp [packLoop], fun k _ => ?_⟩
      simp [packLoop]
    · have hstep : packLoop code (fuel + 1) rem bs c =
          packLoop code fuel (rem - min (8 - c.off) rem)
            (orByte bs c.byte (((code >>> (rem - min (8 - c.off) rem)) &&& (2 ^ min (8 - c.off) rem - 1)) <<<
              (8 - c.off - min (8 - c.off) rem))) (c.advance (min (8 - c.off) rem)) := by
        rw [packLoop]; simp only [h0, if_false]
      rw [hstep]
      generalize ht : min (8 - c.off) rem = take
      have ht1 : 1 ≤ take ∧ take ≤ rem ∧ c.off + take ≤ 8 := by omega
      have hfull : take = rem ∨ c.off + take = 8 := by omega
      obtain ⟨hlen, hoff, hpos, hbit⟩ := ih (rem - take)
        (orByte bs c.byte (((code >>> (rem - take)) &&& (2 ^ take - 1)) <<< (8 - c.off - take))) (c.advance take)
        (by omega) (Cursor.advance_off c take ht1.2.2)
      rw [Cursor.advance_pos c take] at hpos hbit
      refine ⟨by rw [hlen, orByte_length], hoff, by rw [hpos]; omega, fun k hk => ?_⟩
      rw [hbit k (by rw [orByte_length]; exact hk), listBit_orByte, Nat.testBit_shiftLeft, testBit_slice]
      have hp : c.pos = 8 * c.byte + c.off := rfl
      by_cases hin : c.pos ≤ k ∧ k < c.pos + take
      · have e1 : k / 8 = c.byte := by omega
        have e2 : c.byte < bs.length := by omega
        have e3 : ¬(c.pos + take ≤ k ∧ k < c.pos + take + (rem - take)) := by omega
        have e4 : c.pos ≤ k ∧ k < c.pos + rem := by omega
        have e5 : 7 - k % 8 ≥ 8 - c.off - take := by omega
        have e6 : 7 - k % 8 - (8 - c.off - take) < take := by omega
        have e7 : rem - take + (7 - k % 8 - (8 - c.off - take)) = rem - 1 - (k - c.pos) := by omega
        simp [e1, e2, e3, e4, e5, e6, e7]
      · by_cases hb : k / 8 = c.byte
        · have e5 : (decide (7 - k % 8 ≥ 8 - c.off - take) &&
              decide (7 - k % 8 - (8 - c.off - take) < take)) = false := by
            simp only [Bool.and_eq_false_iff, decide_eq_false_iff_not]; omega
          have e4 : (c.pos ≤ k ∧ k < c.pos + rem) ↔ (c.pos + take ≤ k ∧ k < c.pos + take + (rem - take)) := by omega
          rw [← Bool.and_assoc (decide (7 - k % 8 ≥ 8 - c.off - take)), e5]
          simp only [Bool.false_and, Bool.and_false, Bool.or_false, e4]
          have e6 : rem - take - 1 - (k - (c.pos + take)) = rem - 1 - (k - c.pos) ∨
            ¬(c.pos + take ≤ k ∧ k < c.pos + take + (rem - take)) := by omega
          rcases e6 with e6 | e6
          · rw [e6]
          · simp [e6]
        · have e4 : (c.pos ≤ k ∧ k < c.pos + rem) ↔ (c.pos + take ≤ k ∧ k < c.pos + take + (rem - take)) := by omega
          simp only [hb, decide_false, Bool.false_and, Bool.or_false, e4]
          have e6 : rem - take - 1 - (k - (c.pos + take)) = rem - 1 - (k - c.pos) ∨
            ¬(c.pos + take ≤ k ∧ k < c.pos + take + (rem - take)) := by omega
          rcases e6 with e6 | e6
          · rw [e6]
          · simp [e6]

/-- The loop of PACK and ENCODE, once for all outcomes: either every element has a code, and the codes are OR-ed into
the stream one after the other; or the answer is the index of the first element without one. -/
theorem packAll_spec (n : Nat) (code : Nat → Option Nat) : ∀ (k i : Nat) (bs : List Byte) (c : Cursor), c.off < 8 →
    (∃ cs : List Nat, ∃ bs' c', packAll n code k i bs c = .ok (bs', c') ∧
      cs.length = k ∧ (∀ j, j < k → code (i + j) = cs[j]?) ∧
      bs'.length = bs.length ∧ c'.off < 8 ∧ c'.pos = c.pos + k * n ∧
      ∀ q, q < 8 * bs.length → listBit bs' q =
        (listBit bs q || (decide (c.pos ≤ q ∧ q < c.pos + k * n) &&
          (cs.getD ((q - c.pos) / n) 0).testBit (n - 1 - (q - c.pos) % n)))) ∨
    (∃ j, j < k ∧ packAll n code k i bs c = .error (i + j) ∧ code (i + j) = none ∧
      ∀ l, l < j → code (i + l) ≠ none) := by
  intro k
  induction k with
  | zero =>
    intro i bs c hc
    refine .inl ⟨[], bs, c, rfl, rfl, by simp, rfl, hc, by simp, fun q _ => ?_⟩
    have : ¬(c.pos ≤ q ∧ q < c.pos + 0 * n) := by omega
    simp only [this, decide_false, Bool.false_and, Bool.or_false]
  | succ k ih =>
    intro i bs c hc
    rw [packAll]
    cases hcode : code i with
    | none => exact .inr ⟨0, by omega, by simp, by simpa using hcode, by omega⟩
    | some x =>
      obtain ⟨hl, ho, hp, hb⟩ := packLoop_spec x n n bs c (le_refl n) hc
      change (packStep n bs c x).1.length = _ at hl
      change (packStep n bs c x).2.off < 8 at ho
      change (packStep n bs c x).2.pos = _ at hp
      rcases ih (i + 1) _ _ ho with ⟨cs, bs', c', he, hcl, hcs, hbl, hco, hcp, hbits⟩ | ⟨j, hj, he, hn, hl'⟩
      · refine .inl ⟨x :: cs, bs', c', he, by simp [hcl], fun j hj => ?_, by rw [hbl, hl], hco, ?_, fun q hq => ?_⟩
        · cases j with
          | zero => simpa using hcode
          | succ j => simpa [Nat.add_assoc, Nat.add_comm 1 j] using hcs j (by omega)
        · rw [hcp, hp]; ring
        · rw [hbits q (by rw [hl]; exact hq), hp]
          change (listBit (packLoop x n n bs c).1 q || _) = _
          rw [hb q hq]
          have hmul : (k + 1) * n = n + k * n := by ring
          rw [hmul]
          by_cases h1 : c.pos ≤ q ∧ q < c.pos + n
          · have h2 : ¬(c.pos + n ≤ q ∧ q < c.pos + n + k * n) := by omega
            have h3 : c.pos ≤ q ∧ q < c.pos + (n + k * n) := by omega
            have h4 : (q - c.pos) / n = 0 := Nat.div_eq_of_lt (by omega)
            have h5 : (q - c.pos) % n = q - c.pos := Nat.mod_eq_of_lt (by omega)
            simp [h1, h2, h3, h4, h5]
          · by_cases h2 : c.pos + n ≤ q ∧ q < c.pos + n + k * n
            · have h3 : c.pos ≤ q ∧ q < c.pos + (n + k * n) := by omega
              have hn : 0 < n := by
                rcases Nat.eq_zero_or_pos n with rfl | h
                · simp at h2; omega
                · exact h
              have h4 : q - c.pos = (q - (c.pos + n)) + n := by omega
              have h5 : (q - c.pos) / n = (q - (c.pos + n)) / n + 1 := by rw [h4, Nat.add_div_right _ hn]
              have h6 : (q - c.pos) % n = (q - (c.pos + n)) % n := by rw [h4, Nat.add_mod_right]
              rw [decide_eq_false h1, decide_eq_true h2, decide_eq_true h3, h5, h6]
              simp only [Bool.false_and, Bool.true_and, Bool.or_false, List.getD_cons_succ]
            · have h3 : ¬(c.pos ≤ q ∧ q < c.pos + (n + k * n)) := by omega
              simp [h1, h2, h3]
      · refine .inr ⟨j + 1, by omega, by simp only [he, Except.error.injEq]; omega, by rw [← hn]; congr 1; omega, fun l hl'' => ?_⟩
        cases l with
        | zero => simp [hcode]
        | succ l => have := hl' l (by omega); rwa [Nat.add_assoc, Nat.add_comm 1 l] at this

/-- The inner loop of `Serialize`, bit by bit. -/
theorem serializeCode_spec (n : Nat) (bs : List Byte) (code i : Nat) :
    (serializeCode n bs code i).length = bs.length ∧
    ∀ q, q < 8 * bs.length → listBit (serializeCode n bs code i) q =
      (listBit bs q || (decide (i * n ≤ q ∧ q < i * n + n) && code.testBit (n - 1 - (q - i * n)))) := by
  have key : ∀ m, m ≤ n →
      ((List.range m).foldl (fun bs j => orByte bs ((i * n + j) / 8)
        (((code >>> (n - 1 - j)) &&& 1) <<< (7 - (i * n + j) % 8))) bs).length = bs.length ∧
      ∀ q, q < 8 * bs.length → listBit ((List.range m).foldl (fun bs j => orByte bs ((i * n + j) / 8)
        (((code >>> (n - 1 - j)) &&& 1) <<< (7 - (i * n + j) % 8))) bs) q =
        (listBit bs q || (decide (i * n ≤ q ∧ q < i * n + m) && code.testBit (n - 1 - (q - i * n)))) := by
    intro m
    induction m with
    | zero =>
      intro _
      refine ⟨rfl, fun q _ => ?_⟩
      have : ¬(i * n ≤ q ∧ q < i * n + 0) := by omega
      simp only [List.range_zero, List.foldl_nil, this, decide_false, Bool.false_and, Bool.or_false]
    | succ m ih =>
      intro hm
      obtain ⟨hl, hb⟩ := ih (by omega)
      rw [List.range_succ, List.foldl_append]
      refine ⟨by simp only [List.foldl_cons, List.foldl_nil, orByte_length, hl], fun q hq => ?_⟩
      simp only [List.foldl_cons, List.foldl_nil]
      rw [listBit_orByte, hb q hq, hl]
      have e1 : ((code >>> (n - 1 - m)) &&& 1) = ((code >>> (n - 1 - m)) &&& (2 ^ 1 - 1)) := rfl
      rw [e1, Nat.testBit_shiftLeft, testBit_slice]
      by_cases h : q = i * n + m
      · subst h
        have h1 : (i * n + m) / 8 < bs.length := by omega
        simp [h1]
      · have h1 : (i * n ≤ q ∧ q < i * n + (m + 1)) ↔ (i * n ≤ q ∧ q < i * n + m) := by omega
        by_cases h2 : q / 8 = (i * n + m) / 8
        · have h3 : (decide (7 - q % 8 ≥ 7 - (i * n + m) % 8) &&
              decide (7 - q % 8 - (7 - (i * n + m) % 8) < 1)) = false := by
            simp only [Bool.and_eq_false_iff, decide_eq_false_iff_not]; omega
          rw [← Bool.and_assoc (decide (7 - q % 8 ≥ 7 - (i * n + m) % 8)), h3]
          simp [h1]
        · simp [h1, h2]
  exact key n (le_refl n)

/-- `Serialize`, bit by bit: the closed form of the packed stream (20_memory R39, R40). -/
theorem serialize_spec (cs : List Nat) (n : Nat) :
    (serialize cs n).length = ceilDiv (cs.length * n) 8 ∧
    ∀ q, q < 8 * ceilDiv (cs.length * n) 8 → listBit (serialize cs n) q =
      (decide (q < cs.length * n) && (cs.getD (q / n) 0).testBit (n - 1 - q % n)) := by
  have key : ∀ (ds : List Nat) (o : Nat) (bs : List Byte),
      ((ds.zipIdx o).foldl (fun bs x => serializeCode n bs x.1 x.2) bs).length = bs.length ∧
      ∀ q, q < 8 * bs.length → listBit ((ds.zipIdx o).foldl (fun bs x => serializeCode n bs x.1 x.2) bs) q =
        (listBit bs q || (decide (o * n ≤ q ∧ q < o * n + ds.length * n) &&
          (ds.getD ((q - o * n) / n) 0).testBit (n - 1 - (q - o * n) % n))) := by
    intro ds
    induction ds with
    | nil =>
      intro o bs
      refine ⟨rfl, fun q _ => ?_⟩
      have : ¬(o * n ≤ q ∧ q < o * n + ([] : List Nat).length * n) := by simp
      simp only [List.zipIdx_nil, List.foldl_nil, this, decide_false, Bool.false_and, Bool.or_false]
    | cons d ds ih =>
      intro o bs
      obtain ⟨hl, hb⟩ := serializeCode_spec n bs d o
      obtain ⟨hl', hb'⟩ := ih (o + 1) (serializeCode n bs d o)
      rw [List.zipIdx_cons, List.foldl_cons]
      refine ⟨by rw [hl', hl], fun q hq => ?_⟩
      rw [hb' q (by rw [hl]; exact hq), hb q hq]
      have hmul : (d :: ds).length * n = n + ds.length * n := by simp; ring
      have hmul' : (o + 1) * n = o * n + n := by ring
      rw [hmul, hmul']
      by_cases h1 : o * n ≤ q ∧ q < o * n + n
      · have h2 : ¬(o * n + n ≤ q ∧ q < o * n + n + ds.length * n) := by omega
        have h3 : o * n ≤ q ∧ q < o * n + (n + ds.length * n) := by omega
        have h4 : (q - o * n) / n = 0 := Nat.div_eq_of_lt (by omega)
        have h5 : (q - o * n) % n = q - o * n := Nat.mod_eq_of_lt (by omega)
        simp [h1, h2, h3, h4, h5]
      · by_cases h2 : o * n + n ≤ q ∧ q < o * n + n + ds.length * n
        · have h3 : o * n ≤ q ∧ q < o * n + (n + ds.length * n) := by omega
          have hn : 0 < n := by
            rcases Nat.eq_zero_or_pos n with rfl | h
            · simp at h2
            · exact h
          have h4 : q - o * n = (q - (o * n + n)) + n := by omega
          have h5 : (q - o * n) / n = (q - (o * n + n)) / n + 1 := by rw [h4, Nat.add_div_right _ hn]
          have h6 : (q - o * n) % n = (q - (o * n + n)) % n := by rw [h4, Nat.add_mod_right]
          rw [decide_eq_false h1, decide_eq_true h2, decide_eq_true h3, h5, h6]
          simp only [Bool.false_and, Bool.true_and, Bool.or_false, List.getD_cons_succ]
        · have h3 : ¬(o * n ≤ q ∧ q < o * n + (n + ds.length * n)) := by omega
          simp [h1, h2, h3]
  obtain ⟨hl, hb⟩ := key cs 0 (List.replicate (ceilDiv (cs.length * n) 8) 0)
  refine ⟨by simpa [serialize] using hl, fun q hq => ?_⟩
  have := hb q (by simpa using hq)
  rw [listBit_replicate] at this
  simpa [serialize] using this

/-- `UnpackStep`, bit by bit: it shifts `rem` stream bits from the cursor on into the accumulator. -/
theorem unpackLoop_spec (read : Nat → Byte) : ∀ (fuel rem acc : Nat) (c : Cursor), rem ≤ fuel → c.off < 8 →
    (unpackLoop read fuel rem acc c).2.off < 8 ∧
    (unpackLoop read fuel rem acc c).2.pos = c.pos + rem ∧
    ∀ p, (unpackLoop read fuel rem acc c).1.testBit p =
      if p < rem then streamBitOf read (c.pos + (rem - 1 - p)) else acc.testBit (p - rem) := by
  intro fuel
  induction fuel with
  | zero =>
    intro rem acc c hr ho
    obtain rfl : rem = 0 := by omega
    exact ⟨ho, rfl, fun p => by simp [unpackLoop]⟩
  | succ fuel ih =>
    intro rem acc c hr ho
    by_cases h0 : rem = 0
    · subst h0
      exact ⟨by simpa [unpackLoop] using ho, by simp [unpackLoop], fun p => by simp [unpackLoop]⟩
    · have hstep : unpackLoop read (fuel + 1) rem acc c =
          unpackLoop read fuel (rem - min (8 - c.off) rem)
            ((acc <<< min (8 - c.off) rem) |||
              (((read c.byte).toNat >>> (8 - c.off - min (8 - c.off) rem)) &&& (2 ^ min (8 - c.off) rem - 1)))
            (c.advance (min (8 - c.off) rem)) := by
        rw [unpackLoop]; simp only [h0, if_false]
      rw [hstep]
      generalize ht : min (8 - c.off) rem = take
      have ht1 : 1 ≤ take ∧ take ≤ rem ∧ c.off + take ≤ 8 := by omega
      obtain ⟨hoff, hpos, hbit⟩ := ih (rem - take)
        ((acc <<< take) ||| (((read c.byte).toNat >>> (8 - c.off - take)) &&& (2 ^ take - 1))) (c.advance take)
        (by omega) (Cursor.advance_off c take ht1.2.2)
      rw [Cursor.advance_pos c take] at hpos hbit
      refine ⟨hoff, by rw [hpos]; omega, fun p => ?_⟩
      rw [hbit p]
      have hp : c.pos = 8 * c.byte + c.off := rfl
      by_cases h1 : p < rem - take
      · have h2 : p < rem := by omega
        have h3 : c.pos + take + (rem - take - 1 - p) = c.pos + (rem - 1 - p) := by omega
        rw [if_pos h1, if_pos h2, h3]
      · rw [if_neg h1, Nat.testBit_or, Nat.testBit_shiftLeft, testBit_slice]
        by_cases h2 : p < rem
        · rw [if_pos h2]
          have h3 : ¬(p - (rem - take) ≥ take) := by omega
          have h4 : p - (rem - take) < take := by omega
          have h5 : (c.pos + (rem - 1 - p)) / 8 = c.byte := by omega
          have h6 : 7 - (c.pos + (rem - 1 - p)) % 8 = 8 - c.off - take + (p - (rem - take)) := by omega
          simp [h3, h4, streamBitOf, h5, h6, BitVec.getLsbD]
        · rw [if_neg h2]
          have h3 : p - (rem - take) ≥ take := by omega
          have h4 : ¬(p - (rem - take) < take) := by omega
          have h5 : p - (rem - take) - take = p - rem := by omega
          simp [h3, h4, h5]

/-- `Deserialize`, bit by bit. -/
theorem deserializeCode_testBit (read : Nat → Byte) (n i p : Nat) :
    (deserializeCode read n i).testBit p =
      (decide (p < n) && streamBitOf read (i * n + (n - 1 - p))) := by
  have key : ∀ m p, ((List.range m).foldl
      (fun acc j => (acc <<< 1) ||| (streamBitOf read (i * n + j)).toNat) 0).testBit p =
      (decide (p < m) && streamBitOf read (i * n + (m - 1 - p))) := by
    intro m
    induction m with
    | zero => intro p; simp
    | succ m ih =>
      intro p
      rw [List.range_succ, List.foldl_append]
      simp only [List.foldl_cons, List.foldl_nil]
      rw [Nat.testBit_or, Nat.testBit_shiftLeft, ih]
      cases p with
      | zero => cases h : streamBitOf read (i * n + m) <;> simp [h]
      | succ p =>
        have h1 : (streamBitOf read (i * n + m)).toNat.testBit (p + 1) = false := by
          cases streamBitOf read (i * n + m) <;> simp [Nat.testBit_succ]
        rw [h1]
        have h2 : m - 1 - p = m + 1 - 1 - (p + 1) := by omega
        simp [h2]
  exact key n p

/-- The codes and the final cursor of the walk. -/
theorem unpackAll_spec (n : Nat) (read : Nat → Byte) : ∀ (k i : Nat) (c : Cursor), c.off < 8 → c.pos = i * n →
    (unpackAll n read k c).1 = (List.range k).map (fun j => deserializeCode read n (i + j)) ∧
    (unpackAll n read k c).2.off < 8 ∧ (unpackAll n read k c).2.pos = c.pos + k * n := by
  intro k
  induction k with
  | zero => intro i c ho _; exact ⟨rfl, ho, by simp [unpackAll]⟩
  | succ k ih =>
    intro i c ho hp
    obtain ⟨h1, h2, h3⟩ := unpackLoop_spec read n n 0 c (le_refl n) ho
    have hx : (unpackStep n read c).1 = deserializeCode read n i := by
      apply Nat.eq_of_testBit_eq
      intro p
      rw [deserializeCode_testBit]
      change (unpackLoop read n n 0 c).1.testBit p = _
      rw [h3 p, hp]
      by_cases h : p < n <;> simp [h]
    obtain ⟨g1, g2, g3⟩ := ih (i + 1) (unpackStep n read c).2 h1 (by
      change (unpackLoop read n n 0 c).2.pos = _
      rw [h2, hp]; ring)
    refine ⟨?_, g2, ?_⟩
    · change (unpackStep n read c).1 :: (unpackAll n read k (unpackStep n read c).2).1 = _
      rw [g1, hx, List.range_succ_eq_map, List.map_cons, List.map_map]
      congr 1
      apply List.map_congr_left
      intro j _
      simp only [Function.comp]
      congr 1; omega
    · change (unpackAll n read k (unpackStep n read c).2).2.pos = _
      rw [g3]
      change (unpackLoop read n n 0 c).2.pos + _ = _
      rw [h2]; ring

/-- A code that `Deserialize` reads has at most `N` bits (R73). -/
theorem deserializeCode_lt (read : Nat → Byte) (n i : Nat) : deserializeCode read n i < 2 ^ n := by
  apply Nat.lt_pow_two_of_testBit
  intro p hp
  rw [deserializeCode_testBit]
  simp [Nat.not_lt.mpr hp]

end Sys2Proof.Machine
end

