-- ==== Sys2Proof/Laws/Fp.lean ====
section
/-! SUPPORT. Floating point: a pattern as a place in the order of the data, its value in units, and what rounding picks.
All later facts about the operations rest on `roundMag_spec`. -/

namespace Sys2Proof.Fp

/-- The value, in units, of the exponent and fraction fields `p`. -/
def magOf (f : Fmt) (p : Nat) : Nat :=
  if p / 2 ^ fracBits f = 0 then p % 2 ^ fracBits f
  else (2 ^ fracBits f + p % 2 ^ fracBits f) <<< (p / 2 ^ fracBits f - 1)

theorem fracBits_pos (f : Fmt) : 1 ≤ fracBits f := by cases f <;> decide

theorem signBit_eq (f : Fmt) : signBit f = fracBits f + expBits f := by cases f <;> rfl

theorem width_eq (f : Fmt) : f.width = signBit f + 1 := by cases f <;> rfl

/-- The value of the pattern `e * 2 ^ fracBits + m`: the significand `m` at spacing `2 ^ e`. The carry
`m = 2 ^ (fracBits + 1)` reads as the next exponent. -/
theorem magOf_at (f : Fmt) (e m : Nat) (h1 : m ≤ 2 ^ (fracBits f + 1)) (h2 : e ≠ 0 → 2 ^ fracBits f ≤ m) :
    magOf f (e * 2 ^ fracBits f + m) = m * 2 ^ e := by
  have hb : 0 < 2 ^ fracBits f := Nat.two_pow_pos _
  rw [Nat.pow_succ] at h1
  unfold magOf
  generalize 2 ^ fracBits f = b at *
  have key : ∀ x y, y < b → (x * b + y) / b = x ∧ (x * b + y) % b = y := fun x y hy => by
    rw [Nat.mul_comm]
    exact ⟨by rw [Nat.mul_add_div hb, Nat.div_eq_of_lt hy, Nat.add_zero], by rw [Nat.mul_add_mod, Nat.mod_eq_of_lt hy]⟩
  by_cases hc : m < b
  · have he : e = 0 := by by_contra h; exact absurd (h2 h) (by omega)
    subst he
    simp [Nat.mod_eq_of_lt hc, hc]
  · by_cases hd : m = b * 2
    · obtain ⟨k1, k2⟩ := key (e + 2) 0 hb
      have : e * b + m = (e + 2) * b + 0 := by rw [hd]; ring
      rw [this, k1, k2, hd, Nat.shiftLeft_eq]
      have : e + 2 - 1 = e + 1 := by omega
      rw [this, Nat.pow_succ]
      simp; ring
    · obtain ⟨k1, k2⟩ := key (e + 1) (m - b) (by omega)
      have : e * b + m = (e + 1) * b + (m - b) := by
        have : (e + 1) * b = e * b + b := by ring
        omega
      rw [this, k1, k2, Nat.shiftLeft_eq]
      have : b + (m - b) = m := by omega
      simp [this]

theorem magOf_lt_succ (f : Fmt) (p : Nat) : magOf f p < magOf f (p + 1) := by
  have hb : 0 < 2 ^ fracBits f := Nat.two_pow_pos _
  have hp : 2 ^ fracBits f * (p / 2 ^ fracBits f) + p % 2 ^ fracBits f = p := Nat.div_add_mod _ _
  have hm : p % 2 ^ fracBits f < 2 ^ fracBits f := Nat.mod_lt _ hb
  have hpow : 2 ^ (fracBits f + 1) = 2 * 2 ^ fracBits f := by rw [Nat.pow_succ]; ring
  rcases Nat.eq_zero_or_pos (p / 2 ^ fracBits f) with h0 | h0
  · rw [h0] at hp
    have e1 : p = 0 * 2 ^ fracBits f + p := by omega
    have e2 : p + 1 = 0 * 2 ^ fracBits f + (p + 1) := by omega
    rw [e2, e1, magOf_at f 0 p (by omega) (by simp)]
    have := magOf_at f 0 (p + 1) (by omega) (by simp)
    simp only [Nat.zero_mul, Nat.zero_add, Nat.pow_zero, Nat.mul_one] at this ⊢
    omega
  · obtain ⟨e, he⟩ : ∃ e, p / 2 ^ fracBits f = e + 1 := ⟨_, (Nat.succ_pred_eq_of_pos h0).symm⟩
    rw [he] at hp
    have hmul : 2 ^ fracBits f * (e + 1) = e * 2 ^ fracBits f + 2 ^ fracBits f := by ring
    generalize hr : p % 2 ^ fracBits f = r at *
    have e1 : p = e * 2 ^ fracBits f + (2 ^ fracBits f + r) := by omega
    have e2 : p + 1 = e * 2 ^ fracBits f + (2 ^ fracBits f + r + 1) := by omega
    rw [e2, e1, magOf_at f e _ (by omega) (by omega), magOf_at f e _ (by omega) (by omega)]
    exact Nat.mul_lt_mul_of_pos_right (by omega) (Nat.two_pow_pos e)

/-- The value rises with the pattern. -/
theorem magOf_strictMono (f : Fmt) : StrictMono (magOf f) := strictMono_nat_of_lt_succ (magOf_lt_succ f)

theorem magOf_zero (f : Fmt) : magOf f 0 = 0 := by simp [magOf]

/-- Rounding, once and for all. The exact value lies between two consecutive patterns `p` and `p + 1`; the nearer one is
picked, the even one at the midpoint; beyond the format it is the pattern of infinity. -/
theorem roundMag_spec (f : Fmt) (num den : Nat) (hd : 0 < den) :
    ∃ p, magOf f p * den ≤ num ∧ num < magOf f (p + 1) * den ∧
      roundMag f num den = min
        (if (magOf f p + magOf f (p + 1)) * den < 2 * num ∨
            ((magOf f p + magOf f (p + 1)) * den = 2 * num ∧ p % 2 = 1) then p + 1 else p) (infMag f) := by
  have hb := fracBits_pos f
  unfold roundMag
  generalize hq : num / den = q
  generalize he : Nat.log2 q - fracBits f = e
  simp only
  have h2e : 0 < 2 ^ e := Nat.two_pow_pos e
  have hd' : 0 < den * 2 ^ e := Nat.mul_pos hd h2e
  have hm : num / (den * 2 ^ e) = q / 2 ^ e := by rw [← hq, Nat.div_div_eq_div_mul]
  have hmr := Nat.div_add_mod num (den * 2 ^ e)
  have hrl : num % (den * 2 ^ e) < den * 2 ^ e := Nat.mod_lt _ hd'
  rw [hm] at hmr ⊢
  generalize hmm : q / 2 ^ e = m at *
  generalize num % (den * 2 ^ e) = r at *
  have hmlt : m < 2 ^ (fracBits f + 1) := by
    rw [← hmm, Nat.div_lt_iff_lt_mul h2e, ← Nat.pow_add]
    calc q < 2 ^ (Nat.log2 q + 1) := Nat.lt_log2_self
      _ ≤ 2 ^ (fracBits f + 1 + e) := Nat.pow_le_pow_right (by decide) (by omega)
  have hmge : e ≠ 0 → 2 ^ fracBits f ≤ m := by
    intro h
    have hq0 : q ≠ 0 := by
      rintro rfl
      simp at he
      omega
    rw [← hmm, Nat.le_div_iff_mul_le h2e, ← Nat.pow_add]
    calc 2 ^ (fracBits f + e) = 2 ^ Nat.log2 q := by congr 1; omega
      _ ≤ q := Nat.log2_self_le hq0
  have hv0 := magOf_at f e m (by omega) hmge
  have hv1 := magOf_at f e (m + 1) (by omega) (fun h => by have := hmge h; omega)
  refine ⟨e * 2 ^ fracBits f + m, ?_, ?_, ?_⟩
  · rw [hv0]; calc m * 2 ^ e * den = den * 2 ^ e * m := by ring
      _ ≤ num := by omega
  · rw [Nat.add_assoc, hv1]
    calc num < den * 2 ^ e * m + den * 2 ^ e := by omega
      _ = (m + 1) * 2 ^ e * den := by ring
  · rw [Nat.add_assoc, hv1, hv0]
    have hpar : (e * 2 ^ fracBits f + m) % 2 = m % 2 := by
      obtain ⟨k, hk⟩ : ∃ k, fracBits f = k + 1 := ⟨_, (Nat.succ_pred_eq_of_pos hb).symm⟩
      rw [hk, Nat.pow_succ, ← Nat.mul_assoc]
      omega
    have hsum : (m * 2 ^ e + (m + 1) * 2 ^ e) * den = 2 * (den * 2 ^ e * m) + den * 2 ^ e := by ring
    rw [hpar, hsum]
    generalize den * 2 ^ e = d at *
    generalize hX : d * m = X at *
    have c1 : (decide (d < 2 * r) || (decide (2 * r = d) && m % 2 == 1)) = true ↔
        (2 * X + d < 2 * num ∨ (2 * X + d = 2 * num ∧ m % 2 = 1)) := by
      simp only [Bool.or_eq_true, Bool.and_eq_true, decide_eq_true_eq, beq_iff_eq]
      omega
    by_cases hup : 2 * X + d < 2 * num ∨ (2 * X + d = 2 * num ∧ m % 2 = 1)
    · rw [if_pos (c1.mpr hup), if_pos hup]
    · rw [if_neg (fun h => hup (c1.mp h)), if_neg hup]

/-- The exponent and fraction fields of a datum, as one number: its place among the magnitudes. -/
def place (f : Fmt) (a : Datum) : Nat := a.toNat % 2 ^ signBit f

theorem expField_eq (f : Fmt) (a : Datum) : expField f a = place f a / 2 ^ fracBits f := by
  unfold expField place
  rw [signBit_eq, Nat.shiftRight_eq_div_pow, Nat.pow_add, Nat.mod_mul_right_div_self]

theorem fracField_eq (f : Fmt) (a : Datum) : fracField f a = place f a % 2 ^ fracBits f := by
  unfold fracField place
  rw [signBit_eq, Nat.pow_add, Nat.mod_mul_right_mod]

/-- The magnitude depends on the place only. -/
theorem mag_eq (f : Fmt) (a : Datum) : mag f a = magOf f (place f a) := by
  unfold mag magOf
  rw [expField_eq, fracField_eq]

theorem infMag_lt (f : Fmt) : infMag f + 2 ^ fracBits f = 2 ^ signBit f := by cases f <;> decide

theorem place_lt (f : Fmt) (a : Datum) : place f a < 2 ^ signBit f := Nat.mod_lt _ (Nat.two_pow_pos _)

theorem place_div_le (f : Fmt) (a : Datum) : place f a / 2 ^ fracBits f ≤ expMax f := by
  have h1 := place_lt f a
  have h2 := infMag_lt f
  rw [← h2] at h1
  apply Nat.le_of_lt_succ
  rw [Nat.div_lt_iff_lt_mul (Nat.two_pow_pos _)]
  calc place f a < infMag f + 2 ^ fracBits f := h1
    _ = (expMax f).succ * 2 ^ fracBits f := by unfold infMag; rw [Nat.succ_mul]

theorem isFinite_iff (f : Fmt) (a : Datum) : isFinite f a = true ↔ place f a < infMag f := by
  have hb : 0 < 2 ^ fracBits f := Nat.two_pow_pos _
  unfold isFinite infMag
  rw [expField_eq, ← Nat.div_lt_iff_lt_mul hb]
  have := place_div_le f a
  simp only [bne_iff_ne, ne_eq]
  omega

theorem isInf_iff (f : Fmt) (a : Datum) : isInf f a = true ↔ place f a = infMag f := by
  have hb : 0 < 2 ^ fracBits f := Nat.two_pow_pos _
  have hm := Nat.div_add_mod (place f a) (2 ^ fracBits f)
  unfold isInf infMag
  rw [expField_eq, fracField_eq]
  simp only [Bool.and_eq_true, beq_iff_eq]
  constructor
  · rintro ⟨h1, h2⟩
    rw [h1, h2] at hm
    rw [← hm]; ring
  · intro h
    rw [h]
    exact ⟨Nat.mul_div_cancel _ hb, Nat.mul_mod_left _ _⟩

theorem isNan_iff (f : Fmt) (a : Datum) : isNan f a = true ↔ infMag f < place f a := by
  have h1 := isFinite_iff f a
  have h2 := isInf_iff f a
  have h3 : isNan f a = true ↔ ¬(isFinite f a = true) ∧ ¬(isInf f a = true) := by
    unfold isNan isFinite isInf
    by_cases h : expField f a = expMax f <;> simp [h]
  rw [h3, h1, h2]
  omega

theorem ord_eq (f : Fmt) (a : Datum) : ord f a = if sign f a then -(place f a : Int) else place f a := rfl

/-- What `withSign` makes of a sign and a number that fits the fields. -/
theorem withSign_toNat (f : Fmt) (s : Bool) (m : Nat) (h : m < 2 ^ signBit f) :
    (withSign f s m).toNat = (if s then 2 ^ signBit f else 0) + m := by
  unfold withSign
  rw [BitVec.toNat_ofNat, Nat.mod_eq_of_lt]
  have : 2 ^ signBit f + 2 ^ signBit f ≤ 2 ^ 64 := by cases f <;> decide
  split <;> omega

theorem place_withSign (f : Fmt) (s : Bool) (m : Nat) (h : m < 2 ^ signBit f) : place f (withSign f s m) = m := by
  unfold place
  rw [withSign_toNat f s m h]
  cases s
  · simp [Nat.mod_eq_of_lt h]
  · simp [Nat.mod_eq_of_lt h]

theorem sign_withSign (f : Fmt) (s : Bool) (m : Nat) (h : m < 2 ^ signBit f) : sign f (withSign f s m) = s := by
  unfold sign
  rw [BitVec.getLsbD, withSign_toNat f s m h]
  cases s
  · simpa using Nat.testBit_lt_two_pow h
  · rw [if_pos rfl, Nat.testBit_two_pow_add_eq, Nat.testBit_lt_two_pow h]; rfl

theorem withSign_fits (f : Fmt) (s : Bool) (m : Nat) (h : m < 2 ^ signBit f) : (withSign f s m).toNat < 2 ^ f.width := by
  rw [withSign_toNat f s m h, width_eq, Nat.pow_succ]
  split <;> omega

theorem roundMag_le (f : Fmt) (num den : Nat) : roundMag f num den ≤ infMag f := Nat.min_le_right _ _

theorem roundMag_lt (f : Fmt) (num den : Nat) : roundMag f num den < 2 ^ signBit f := by
  have := roundMag_le f num den
  have := infMag_lt f
  have : 0 < 2 ^ fracBits f := Nat.two_pow_pos _
  omega

/-- Rounding keeps the order: a value that is not larger rounds to a place that is not higher. -/
theorem roundMag_mono (f : Fmt) (num den num' den' : Nat) (hd : 0 < den) (hd' : 0 < den')
    (h : num * den' ≤ num' * den) : roundMag f num den ≤ roundMag f num' den' := by
  obtain ⟨p, h1, h2, h3⟩ := roundMag_spec f num den hd
  obtain ⟨p', h1', h2', h3'⟩ := roundMag_spec f num' den' hd'
  rw [h3, h3']
  apply min_le_min_right
  have hpp : p ≤ p' := by
    by_contra hlt
    have hle : magOf f (p' + 1) ≤ magOf f p := (magOf_strictMono f).monotone (by omega)
    have a1 : num' * den < magOf f (p' + 1) * den' * den := Nat.mul_lt_mul_of_pos_right h2' hd
    have a2 : magOf f p * den * den' ≤ num * den' := Nat.mul_le_mul_right _ h1
    have a3 : magOf f (p' + 1) * den' * den ≤ magOf f p * den * den' := by
      calc magOf f (p' + 1) * den' * den = magOf f (p' + 1) * (den * den') := by ring
        _ ≤ magOf f p * (den * den') := Nat.mul_le_mul_right _ hle
        _ = magOf f p * den * den' := by ring
    omega
  rcases Nat.lt_or_ge p p' with hlt | hge
  · split <;> split <;> omega
  · obtain rfl : p = p' := by omega
    generalize magOf f p + magOf f (p + 1) = mid at *
    by_cases hc : mid * den < 2 * num ∨ (mid * den = 2 * num ∧ p % 2 = 1)
    · rw [if_pos hc, if_pos]
      have b1 : mid * den * den' ≤ 2 * num * den' := Nat.mul_le_mul_right _ (by omega)
      have b2 : 2 * num * den' ≤ 2 * num' * den := by
        rw [Nat.mul_assoc, Nat.mul_assoc]; exact Nat.mul_le_mul_left 2 h
      have b3 : mid * den' * den ≤ 2 * num' * den := by
        calc mid * den' * den = mid * den * den' := by ring
          _ ≤ _ := le_trans b1 b2
      have b4 : mid * den' ≤ 2 * num' := Nat.le_of_mul_le_mul_right b3 hd
      rcases hc with hc | hc
      · have c1 : mid * den * den' < 2 * num * den' := Nat.mul_lt_mul_of_pos_right hc hd'
        have c2 : mid * den' * den < 2 * num' * den := by
          calc mid * den' * den = mid * den * den' := by ring
            _ < _ := lt_of_lt_of_le c1 b2
        exact .inl (Nat.lt_of_mul_lt_mul_right c2)
      · rcases Nat.lt_or_eq_of_le b4 with hlt | heq
        · exact .inl hlt
        · exact .inr ⟨heq, hc.2⟩
    · rw [if_neg hc]; split <;> omega

/-- A value that the format has rounds to itself. -/
theorem roundMag_exact (f : Fmt) (p den : Nat) (hd : 0 < den) (hp : p ≤ infMag f) :
    roundMag f (magOf f p * den) den = p := by
  obtain ⟨p', h1, h2, h3⟩ := roundMag_spec f (magOf f p * den) den hd
  have e1 : magOf f p' ≤ magOf f p := Nat.le_of_mul_le_mul_right h1 hd
  have e2 : magOf f p < magOf f (p' + 1) := Nat.lt_of_mul_lt_mul_right h2
  have e3 : p' = p := by
    have := (magOf_strictMono f).le_iff_le.mp e1
    have := (magOf_strictMono f).lt_iff_lt.mp e2
    omega
  subst e3
  rw [h3, if_neg, Nat.min_eq_left hp]
  have : 2 * (magOf f p' * den) < (magOf f p' + magOf f (p' + 1)) * den := by
    have := Nat.mul_lt_mul_of_pos_right e2 hd
    rw [Nat.add_mul]; omega
  omega

end Sys2Proof.Fp
end

