-- ==== Sys2Proof/Laws/Ops.lean ====
section
/-! SUPPORT. What each shared operation can do, once: the loops of the stream commands, the checks before them, and the
shape of every command's outcome. -/

namespace Sys2Proof.Machine

/-- Reading a byte after bytes were stored from index 0 on. -/
theorem State.byteAt_storeAll (s : State) (bs : List Byte) (k : Nat) :
    (Memory.lookup (w := 8) (Memory.storeAll (w := 8) s.bbuf 0 bs) k).getD (Config.freeByte s.epoch k) =
      if h : k < bs.length then bs[k] else s.byteAt k := by
  rw [Memory.lookup_storeAll]
  by_cases h : k < bs.length
  · simp [h]
  · simp [h, State.byteAt]

/-- Reading a code after codes were stored from index 0 on. -/
theorem State.codeAt_storeCodes (s : State) (cs : List Nat) (k : Nat) :
    (s.storeCodes cs).codeAt k = if h : k < cs.length then BitVec.ofNat 32 cs[k] else s.codeAt k := by
  unfold State.codeAt
  rw [State.storeCodes_cbuf, Memory.lookup_storeAll]
  by_cases h : k < cs.length
  · simp [h]
  · simp [h]

/-- Reading a value after values were stored from index 0 on. -/
theorem State.valueAt_storeValues (s : State) (cs : List Nat) (k : Nat) :
    (s.storeValues cs).valueAt k =
      if h : k < cs.length then dequantize s.params.fmt s.cfg cs[k] else s.valueAt k := by
  unfold State.valueAt
  rw [State.storeValues_vbuf, Memory.lookup_storeAll]
  by_cases h : k < cs.length
  · simp [h]
  · simp [h]

/-- A draw of unspecified bytes leaves every byte at or past its length. -/
theorem State.byteAt_drawBytes (s : State) (len k : Nat) (h : len ≤ k) : (s.drawBytes len).byteAt k = s.byteAt k := by
  have := s.byteAt_storeAll ((List.range len).map (Config.freeByte s.draws)) k
  unfold State.byteAt at *
  rw [State.drawBytes_bbuf, State.drawBytes_epoch, this, dif_neg (by simpa using h)]

/-- PACK and ENCODE, once for all outcomes (spec 42_packer R77, 43_codec R81): not configured; beyond capacity; stopped
at the first element without a code, with the bytes it would have written unspecified; or done, with the stream bits
of the codes in the bytes it stores. -/
theorem State.packStream_cases (s : State) (code : Nat → Option Nat) (e : ErrCode) :
    (s.status.cfgValid = false ∧ s.packStream code e = s.raise .notConfigured 0) ∨
    (s.status.cfgValid = true ∧ s.params.maxCount < s.count.toNat ∧ s.packStream code e = s.raise .capacity 0) ∨
    (s.status.cfgValid = true ∧ s.count.toNat ≤ s.params.maxCount ∧
      ∃ i, i < s.count.toNat ∧ code i = none ∧ (∀ l, l < i → code l ≠ none) ∧
        s.packStream code e = (s.drawBytes (ceilDiv (s.count.toNat * s.cfg.n.toNat) 8)).raise e i) ∨
    (s.status.cfgValid = true ∧ s.count.toNat ≤ s.params.maxCount ∧
      ∃ (cs : List Nat) (bs : List Byte), cs.length = s.count.toNat ∧ (∀ j, j < s.count.toNat → code j = cs[j]?) ∧
        bs.length = ceilDiv (s.count.toNat * s.cfg.n.toNat) 8 ∧
        (∀ q, q < 8 * bs.length → listBit bs q =
          (decide (q < s.count.toNat * s.cfg.n.toNat) &&
            (cs.getD (q / s.cfg.n.toNat) 0).testBit (s.cfg.n.toNat - 1 - q % s.cfg.n.toNat))) ∧
        s.packStream code e = ({ s with
          bbuf := Memory.storeAll (w := 8) s.bbuf 0 bs
          blen := BitVec.ofNat 32 (ceilDiv (s.count.toNat * s.cfg.n.toNat) 8)
          curByte := BitVec.ofNat 32 (s.count.toNat * s.cfg.n.toNat / 8)
          curBit := BitVec.ofNat 32 (s.count.toNat * s.cfg.n.toNat % 8) } : State).complete) := by
  unfold State.packStream
  by_cases h1 : s.status.cfgValid = false
  · exact .inl ⟨h1, by rw [if_pos h1]⟩
  · rw [if_neg h1]
    have h1' : s.status.cfgValid = true := by simpa using h1
    by_cases h2 : s.params.maxCount < s.count.toNat
    · exact .inr (.inl ⟨h1', h2, by rw [if_pos h2]⟩)
    · rw [if_neg h2]
      simp only
      refine .inr (.inr ?_)
      rcases packAll_spec s.cfg.n.toNat code s.count.toNat 0
          (List.replicate (ceilDiv (s.count.toNat * s.cfg.n.toNat) 8) 0) Cursor.start (by decide) with
        ⟨cs, bs, c, he, hl, hcs, hbl, hco, hcp, hb⟩ | ⟨j, hj, he, hn, hf⟩
      · refine .inr ⟨h1', by omega, cs, bs, hl, by simpa using hcs, by simpa using hbl, fun q hq => ?_, ?_⟩
        · have := hb q (by rw [← hbl]; exact hq)
          rw [listBit_replicate, Cursor.pos_start] at this
          simpa using this
        · rw [Cursor.pos_start, Nat.zero_add] at hcp
          have hc := Cursor.eq_of_pos c hco
          rw [hcp] at hc
          rw [he]
          simp only
          rw [hc]
      · refine .inl ⟨h1', by omega, j, hj, by simpa using hn, by simpa using hf, ?_⟩
        rw [he, Nat.zero_add]

/-- The codes and the final cursor of UNPACK and DECODE (spec 42_packer R78). -/
theorem State.unpackCodes_eq (s : State) (count : Nat) :
    s.unpackCodes count = ((List.range count).map (deserializeCode s.byteAt s.cfg.n.toNat),
      { byte := count * s.cfg.n.toNat / 8, off := count * s.cfg.n.toNat % 8 }) := by
  obtain ⟨h1, h2, h3⟩ := unpackAll_spec s.cfg.n.toNat s.byteAt count 0 Cursor.start (by decide) (by simp [Cursor.pos_start])
  rw [Cursor.pos_start, Nat.zero_add] at h3
  have hc := Cursor.eq_of_pos _ h2
  rw [h3] at hc
  unfold State.unpackCodes
  exact Prod.ext (by rw [h1]; simp) hc

/-- The checks of UNPACK and DECODE pass exactly when the command is configured, within capacity, its count is not 0
and its bits are there (spec 60_exceptions R88). -/
theorem State.unpackError_eq_none (s : State) : s.unpackError = none ↔
    (s.status.cfgValid = true ∧ s.count.toNat ≤ s.params.maxCount ∧ s.blen.toNat ≤ maxBytes s.params ∧
      s.count.toNat ≠ 0 ∧ s.count.toNat * s.cfg.n.toNat ≤ 8 * s.blen.toNat) := by
  unfold State.unpackError
  cases h : s.status.cfgValid
  · simp
  · simp only [Bool.true_eq_false, if_false, true_and]
    split
    · simp; omega
    · split
      · simp; omega
      · split
        · simp; omega
        · simp; omega

/-- The checks of UNPACKI and DECODEI (spec 60_exceptions R88). -/
theorem State.inferError_eq_none (s : State) : s.inferError = none ↔
    (s.status.cfgValid = true ∧ s.blen.toNat ≤ maxBytes s.params ∧
      inferCount s.blen.toNat s.cfg.n.toNat ≠ 0 ∧ inferCount s.blen.toNat s.cfg.n.toNat ≤ s.params.maxCount) := by
  unfold State.inferError
  cases h : s.status.cfgValid
  · simp
  · simp only [Bool.true_eq_false, if_false, true_and]
    split
    · simp; omega
    · split
      · simp; omega
      · split
        · simp; omega
        · simp; omega

/-- CFG does one of two things (spec 40_configure R63). -/
theorem execCfg_cases (s : State) :
    (cfgCheck s.params.fmt s.setN.toNat s.setLb s.setUb s.setMap.toNat = true ∧
      execCfg s = .next ({ s with
        cfg := cfgDerive s.params.fmt s.setN s.setLb s.setUb s.setMap
        status := s.status.configured } : State).complete) ∨
    (cfgCheck s.params.fmt s.setN.toNat s.setLb s.setUb s.setMap.toNat = false ∧
      execCfg s = .next (s.raise .configError 0)) := by
  unfold execCfg
  cases h : cfgCheck s.params.fmt s.setN.toNat s.setLb s.setUb s.setMap.toNat
  · exact .inr ⟨rfl, rfl⟩
  · exact .inl ⟨rfl, rfl⟩

/-- QENC does one of three things (spec 41_quantizer R68). -/
theorem execQenc_cases (s : State) :
    (s.status.cfgValid = false ∧ execQenc s = .next (s.raise .notConfigured 0)) ∨
    (s.status.cfgValid = true ∧ quantEncode s.params.fmt s.cfg s.sv = none ∧
      execQenc s = .next (s.raise .invalidInput 0)) ∨
    (s.status.cfgValid = true ∧ ∃ r, quantEncode s.params.fmt s.cfg s.sv = some r ∧
      execQenc s = .next ({ s with sc := BitVec.ofNat 32 r } : State).complete) := by
  unfold execQenc
  cases h : s.status.cfgValid
  · exact .inl ⟨rfl, rfl⟩
  · cases hq : quantEncode s.params.fmt s.cfg s.sv
    · exact .inr (.inl ⟨rfl, rfl, rfl⟩)
    · exact .inr (.inr ⟨rfl, _, rfl, rfl⟩)

/-- QDEC does one of three things (spec 41_quantizer R69). -/
theorem execQdec_cases (s : State) :
    (s.status.cfgValid = false ∧ execQdec s = .next (s.raise .notConfigured 0)) ∨
    (s.status.cfgValid = true ∧ 2 ^ s.cfg.n.toNat ≤ s.sc.toNat ∧ execQdec s = .next (s.raise .codeRange 0)) ∨
    (s.status.cfgValid = true ∧ s.sc.toNat < 2 ^ s.cfg.n.toNat ∧
      execQdec s = .next ({ s with sv := dequantize s.params.fmt s.cfg s.sc.toNat } : State).complete) := by
  unfold execQdec quantDecode
  cases h : s.status.cfgValid
  · exact .inl ⟨rfl, rfl⟩
  · by_cases hc : 2 ^ s.cfg.n.toNat ≤ s.sc.toNat
    · exact .inr (.inl ⟨rfl, hc, by simp [hc]⟩)
    · exact .inr (.inr ⟨rfl, by omega, by simp [hc]⟩)

/-- The value of a quantized element is missing exactly for a NaN (spec 41_quantizer R66). -/
theorem quantEncode_eq_none (f : Fmt) (c : CodecConfig) (v : Datum) : quantEncode f c v = none ↔ Fp.isNan f v = true := by
  unfold quantEncode
  cases Fp.isNan f v
  · simp only [Bool.false_eq_true, if_false, iff_false]
    split
    · simp
    · split
      · simp
      · split <;> simp
  · simp

/-- UNPACK and UNPACKI, DECODE and DECODEI: the first failing check, or the codes of the stream delivered (spec R78, R79,
R82, R83). -/
theorem execUnpack_cases (s : State) :
    (∃ e, s.unpackError = some e ∧ execUnpack s = .next (s.raise e 0) ∧ execDecode s = .next (s.raise e 0)) ∨
    (s.unpackError = none ∧
      execUnpack s = .next ((s.storeCodes (s.unpackCodes s.count.toNat).1).setCursor
        (s.unpackCodes s.count.toNat).2).complete ∧
      execDecode s = .next ((s.storeValues (s.unpackCodes s.count.toNat).1).setCursor
        (s.unpackCodes s.count.toNat).2).complete) := by
  unfold execUnpack execDecode
  cases h : s.unpackError
  · exact .inr ⟨rfl, rfl, rfl⟩
  · exact .inl ⟨_, rfl, rfl, rfl⟩

theorem execUnpacki_cases (s : State) :
    (∃ e, s.inferError = some e ∧ execUnpacki s = .next (s.raise e 0) ∧ execDecodei s = .next (s.raise e 0)) ∨
    (s.inferError = none ∧ ∃ count r, count = inferCount s.blen.toNat s.cfg.n.toNat ∧ r = s.unpackCodes count ∧
      execUnpacki s = .next
        ({ (s.storeCodes r.1).setCursor r.2 with count := BitVec.ofNat 32 count } : State).complete ∧
      execDecodei s = .next
        ({ (s.storeValues r.1).setCursor r.2 with count := BitVec.ofNat 32 count } : State).complete) := by
  unfold execUnpacki execDecodei
  cases h : s.inferError
  · exact .inr ⟨rfl, _, _, rfl, rfl, rfl, rfl⟩
  · exact .inl ⟨_, rfl, rfl, rfl⟩

/-- No command faults or refuses (spec 60_exceptions R86). -/
theorem exec_isNext (i : Instr) (s : State) : ∃ t, exec i s = .next t := by
  cases i
  case cfg => rcases execCfg_cases s with ⟨_, h⟩ | ⟨_, h⟩ <;> exact ⟨_, h⟩
  case qenc => rcases execQenc_cases s with ⟨_, h⟩ | ⟨_, _, h⟩ | ⟨_, _, _, h⟩ <;> exact ⟨_, h⟩
  case qdec => rcases execQdec_cases s with ⟨_, h⟩ | ⟨_, _, h⟩ | ⟨_, _, h⟩ <;> exact ⟨_, h⟩
  case pack => exact ⟨_, rfl⟩
  case encode => exact ⟨_, rfl⟩
  case unpack => rcases execUnpack_cases s with ⟨_, _, h, _⟩ | ⟨_, h, _⟩ <;> exact ⟨_, h⟩
  case decode => rcases execUnpack_cases s with ⟨_, _, _, h⟩ | ⟨_, _, h⟩ <;> exact ⟨_, h⟩
  case unpacki => rcases execUnpacki_cases s with ⟨_, _, h, _⟩ | ⟨_, _, _, _, _, h, _⟩ <;> exact ⟨_, h⟩
  case decodei => rcases execUnpacki_cases s with ⟨_, _, _, h⟩ | ⟨_, _, _, _, _, _, h⟩ <;> exact ⟨_, h⟩

end Sys2Proof.Machine
end

