-- ==== Sys2Proof/Laws/PerInstr.lean ====
section
/-! SUPPORT. Statements for all commands, one lemma per constructor. -/

namespace Sys2Proof.Laws

/-- The word of a command has the fields of its row of the opcode map, and they are well-formed (spec 30_encoding R52,
R54). -/
def WordFields.Statement (i : Instr) : Prop := fieldsOf (encode i) = i.fields ∧ i.fields.wf = true

theorem WordFields.cfg : WordFields.Statement .cfg := by unfold WordFields.Statement; decide
theorem WordFields.qenc : WordFields.Statement .qenc := by unfold WordFields.Statement; decide
theorem WordFields.qdec : WordFields.Statement .qdec := by unfold WordFields.Statement; decide
theorem WordFields.pack : WordFields.Statement .pack := by unfold WordFields.Statement; decide
theorem WordFields.unpack : WordFields.Statement .unpack := by unfold WordFields.Statement; decide
theorem WordFields.unpacki : WordFields.Statement .unpacki := by unfold WordFields.Statement; decide
theorem WordFields.encode : WordFields.Statement .encode := by unfold WordFields.Statement; decide
theorem WordFields.decode : WordFields.Statement .decode := by unfold WordFields.Statement; decide
theorem WordFields.decodei : WordFields.Statement .decodei := by unfold WordFields.Statement; decide

end Sys2Proof.Laws
end

