-- ==== Sys2Proof/Tests/Slice0.lean ====
section
/-! SUPPORT. Tests of one step each, their expected results from the vectors of spec 95_test_vectors, and for every
statement with hypotheses a concrete state and operands that meet them. -/

namespace Sys2Proof.Tests

open Sys2Proof Sys2Proof.Machine

-- One test after the other: many at once would ask for more threads than the memory of a check allows.
set_option Elab.async false

/-! ## Well-formedness: each check refuses an ill-formed term -/

theorem test_reserved_bit_refused : CmdFields.rsvOk { op := 0x01, infer := false, rsv := 1 } = false := by decide
theorem test_infer_flag_refused : CmdFields.inferOk { op := 0x04, infer := true, rsv := 0 } = false := by decide
theorem test_op_zero_refused : CmdFields.opOk { op := 0x00, infer := false, rsv := 0 } = false := by decide
theorem test_op_eight_refused : CmdFields.wf { op := 0x08, infer := false, rsv := 0 } = false := by decide

/-! ## Decoding: the words of the opcode map (R54, L2-DW1 to L2-DW11), bit 31 first -/

theorem test_decode_cfg : decode 0b00000000000000000000000000000001#32 = .ok .cfg := by decide
theorem test_decode_qenc : decode 0b00000000000000000000000000000010#32 = .ok .qenc := by decide
theorem test_decode_qdec : decode 0b00000000000000000000000000000011#32 = .ok .qdec := by decide
theorem test_decode_pack : decode 0b00000000000000000000000000000100#32 = .ok .pack := by decide
theorem test_decode_unpack : decode 0b00000000000000000000000000000101#32 = .ok .unpack := by decide
theorem test_decode_unpacki : decode 0b00000000000000000000000100000101#32 = .ok .unpacki := by decide
theorem test_decode_encode : decode 0b00000000000000000000000000000110#32 = .ok .encode := by decide
theorem test_decode_decode : decode 0b00000000000000000000000000000111#32 = .ok .decode := by decide
theorem test_decode_decodei : decode 0b00000000000000000000000100000111#32 = .ok .decodei := by decide
theorem test_illegal_words : ([0x0, 0x8, 0xFF, 0x101, 0x104, 0x106, 0x205, 0x80000001].map (decodeTableWord 32)).all
    Option.isNone = true := by decide

/-! ## States for the tests -/

/-- A small part. -/
def part (f : Fmt) : Params := { fmt := f, maxCount := 4 }

/-- Configured with the given width, bounds and mapping, idle. -/
def configured (f : Fmt) (n : Word) (lb ub : Datum) (map : Word) : State :=
  { State.resetOf (part f) with
    cfg := cfgDerive f n lb ub map
    status := { busy := false, cfgValid := true, err := false, ecode := 0 } }

/-- Configuration A of the vectors: `N = 8`, bounds -1.0 and 1.0, natural. -/
def confA : State := configured .binary64 8 0xBFF0000000000000 0x3FF0000000000000 0

/-- Configuration G: the same in Gray. -/
def confG : State := configured .binary64 8 0xBFF0000000000000 0x3FF0000000000000 1

/-- Configuration C: `N = 9`, bounds 0.0 and 512.0, natural. -/
def confC : State := configured .binary64 9 0 0x4080000000000000 0

/-- Configuration A of `binary32`. -/
def confA32 : State := configured .binary32 8 0xBF800000 0x3F800000 0

/-- The state after a command that completes. -/
def after (i : Instr) (s : State) : Option State :=
  match exec i s with
  | .next t => some t
  | .fault _ => none
  | .refused _ => none

/-! ## The commands, one step each -/

/-- L2-CF2. -/
theorem test_cfg_gray :
    (after .cfg { State.resetOf (part .binary64) with
      setN := 8, setLb := 0xBFF0000000000000, setUb := 0x3FF0000000000000, setMap := 1 }).map
        (fun t => (t.cfg.step, t.cfg.cub, t.status.toWord)) = some (0x3F80000000000000, 0x80, 0x2) := by decide +kernel
/-- L2-CF18. -/
theorem test_cfg_failure_keeps : (after .cfg { confA with setN := 40 }).map (fun t => (t.cfg == confA.cfg, t.status.toWord)) =
    some (true, 0x106) := by decide +kernel
/-- L2-QE5, Gray. -/
theorem test_qenc_saturates : (after .qenc { confG with sv := 0x3FEFFFFFFFFFFFFF }).map (fun t => t.sc) = some 0x80 := by
  decide +kernel
/-- L2-QE18. -/
theorem test_qenc_nan : (after .qenc { confA with sv := 0x7FF8000000000000, sc := 7 }).map
    (fun t => (t.sc, t.errIdx, t.status.toWord)) = some (7, 0, 0x506) := by decide +kernel
/-- L2-QD19. -/
theorem test_qdec_gray : (after .qdec { confG with sc := 0xFF }).map (fun t => t.sv) = some 0x3FD5000000000000 := by
  decide +kernel
/-- L2-QD25. -/
theorem test_qdec_binary32_rounds : (after .qdec { configured .binary32 32 0 0x4F800000 0 with sc := 0x01000001 }).map
    (fun t => t.sv) = some 0x4B800000 := by decide +kernel
/-- L2-PK1. -/
theorem test_pack_nine_bits : (after .pack { confC with count := 4, cbuf := [(0, 0x1FF), (1, 0), (2, 0x155), (3, 0xAA)] }).map
    (fun t => (t.bbuf, t.blen, t.curByte, t.curBit)) =
      some ([(0, 0xFF), (1, 0x80), (2, 0x2A), (3, 0xAA), (4, 0xA0)], 5, 4, 4) := by decide +kernel
/-- L2-PK20. -/
theorem test_pack_code_range : (after .pack { confC with count := 3, cbuf := [(0, 1), (1, 0x200), (2, 0x300)], blen := 9 }).map
    (fun t => (t.status.toWord, t.errIdx, t.blen)) = some (0x606, 1, 9) := by decide +kernel
/-- L2-UP2. -/
theorem test_unpack_ignores_padding :
    (after .unpack { configured .binary64 12 0 0x4080000000000000 0 with count := 1, blen := 2, bbuf := [(0, 0xAB), (1, 0xCF)] }).map
      (fun t => (t.cbuf, t.curByte, t.curBit)) = some ([(0, 0xABC)], 1, 4) := by decide +kernel
/-- L2-UP5. -/
theorem test_unpack_priority : (after .unpack confC).map (fun t => t.status.toWord) = some 0x306 := by decide +kernel
/-- L2-UP7. -/
theorem test_unpacki_infers :
    (after .unpacki { confC with count := 1, blen := 5, bbuf := [(0, 0xFF), (1, 0x80), (2, 0x2A), (3, 0xAA), (4, 0xA0)] }).map
      (fun t => (t.cbuf, t.count, t.curByte, t.curBit)) =
        some ([(0, 0x1FF), (1, 0), (2, 0x155), (3, 0xAA)], 4, 4, 4) := by decide +kernel
/-- L2-UP13. -/
theorem test_unpacki_capacity : (after .unpacki { confA with blen := 16, count := 3 }).map
    (fun t => (t.status.toWord, t.count)) = some (0x806, 3) := by decide +kernel
/-- L2-CD2. -/
theorem test_encode_nine_bits :
    (after .encode { configured .binary64 9 0xBFF0000000000000 0x3FF0000000000000 0 with
      count := 3, vbuf := [(0, 0x3FD3333333333333), (1, 0xBFE6666666666666), (2, 0x3FF0000000000000)] }).map
        (fun t => (t.bbuf, t.blen, t.curByte, t.curBit)) =
          some ([(0, 0xA6), (1, 0x13), (2, 0x3F), (3, 0xE0)], 4, 3, 3) := by decide +kernel
/-- L2-CD12. -/
theorem test_encode_nan :
    (after .encode { confA with
      count := 3, vbuf := [(0, 0x3FE0000000000000), (1, 0x7FF8000000000000), (2, 0xBFE0000000000000)] }).map
        (fun t => (t.status.toWord, t.errIdx, t.blen)) = some (0x506, 1, 0) := by decide +kernel
/-- L2-CD17. -/
theorem test_decode_nine_bits :
    (after .decode { confC with count := 4, blen := 5, bbuf := [(0, 0xFF), (1, 0x80), (2, 0x2A), (3, 0xAA), (4, 0xA0)] }).map
      (fun t => t.vbuf) =
        some [(0, 0x4080000000000000), (1, 0), (2, 0x4075500000000000), (3, 0x4065400000000000)] := by decide +kernel
/-- L2-CD14. -/
theorem test_decode_too_short : (after .decode { confA with count := 4, blen := 3 }).map (fun t => t.status.toWord) =
    some 0x206 := by decide +kernel
/-- L2-CD16. -/
theorem test_decodei_infers :
    (after .decodei { confA with blen := 3, bbuf := [(0, 0x00), (1, 0x80), (2, 0xFF)] }).map
      (fun t => (t.vbuf, t.count)) = some ([(0, 0xBFF0000000000000), (1, 0), (2, 0x3FF0000000000000)], 3) := by decide +kernel
/-- R83: `8 * BLEN < N`. -/
theorem test_decodei_count : (after .decodei { confC with blen := 1, count := 2 }).map (fun t => (t.status.toWord, t.count)) =
    some (0x306, 2) := by decide +kernel
/-- L2-GR2. -/
theorem test_gray_inverse : ([0x40, 0x7F, 0xAA, 0xFF, 0xFFFFFFFF, 0x80000000].map grayInv) =
    [0x7F, 0x55, 0xCC, 0xAA, 0xAAAAAAAA, 0xFFFFFFFF] := by decide +kernel

/-! ## The hypotheses of the statements can be met -/

/-- Running the command of the word `w`, with the events `sc` to come. -/
def running (w : Word) (sc : List Event) : State :=
  { confA with status := { confA.status with busy := true }, cmd := w, script := sc }

/-- Idle, with the events `sc` to come. -/
def idle (sc : List Event) : State := { confA with script := sc }

/-- The invariant holds of `t`, decided part by part. -/
def invBool (t : State) : Bool :=
  t.params.wf && Memory.wf t.vbuf && Memory.within (capacity t.params .vbuf) t.vbuf &&
  Memory.wf t.cbuf && Memory.within (capacity t.params .cbuf) t.cbuf &&
  Memory.wf (w := 8) t.bbuf && Memory.within (w := 8) (capacity t.params .bbuf) t.bbuf &&
  Fp.fits t.params.fmt t.setLb && Fp.fits t.params.fmt t.setUb && Fp.fits t.params.fmt t.cfg.lb &&
  Fp.fits t.params.fmt t.cfg.ub && Fp.fits t.params.fmt t.cfg.step && Fp.fits t.params.fmt t.sv &&
  t.vbuf.all (fun c => Fp.fits t.params.fmt c.2) && (t.status.err == (t.status.ecode != 0)) &&
  decide (t.status.ecode.toNat ≤ 8) && decide (t.errIdx.toNat < t.params.maxCount) && t.errIdx == 0 &&
  decide (t.curBit.toNat < 8) && decide (t.curByte.toNat ≤ maxBytes t.params) &&
  t.status.cfgValid && t.cfg.wf t.params.fmt && decide (t.epoch < t.draws)

theorem inv_of_invBool (t : State) (h : invBool t = true) : t.Inv := by
  simp only [invBool, Bool.and_eq_true, decide_eq_true_eq, beq_iff_eq] at h
  obtain ⟨⟨⟨⟨⟨⟨⟨⟨⟨⟨⟨⟨⟨⟨⟨⟨⟨⟨⟨⟨⟨⟨h1, h2⟩, h3⟩, h4⟩, h5⟩, h6⟩, h7⟩, h8⟩, h9⟩, h10⟩, h11⟩, h12⟩, h13⟩, h14⟩, h15⟩, h16⟩, h17⟩, h18⟩,
    h19⟩, h20⟩, h21⟩, h22⟩, h23⟩ := h
  exact ⟨h1, ⟨h2, h3⟩, ⟨h4, h5⟩, ⟨h6, h7⟩, ⟨h8, h9, h10, h11, h12, h13, h14⟩,
    ⟨by rw [h15]; simp, h16⟩, ⟨h17, fun h => absurd h18 h⟩, ⟨h19, h20⟩, fun _ => h22,
    fun h => absurd h21 (by simp [h]), h23⟩

theorem witness_DecodeEncodeInverse : Instr.wf .decodei = true ∧ decode 0x107 = .ok .decodei := by decide

theorem witness_IllegalWordsCompleteWithError :
    ∀ w ∈ [0x0#32, 0x8#32, 0xFF#32, 0x101#32, 0x106#32, 0x108#32, 0x201#32, 0x80000000#32],
      (running w []).status.busy = true ∧
      ((running w []).cmd.toNat % 256 = 0 ∨ 8 ≤ (running w []).cmd.toNat % 256 ∨
        ((running w []).cmd.toNat / 256 % 2 = 1 ∧ (running w []).cmd.toNat % 256 ≠ 5 ∧ (running w []).cmd.toNat % 256 ≠ 7) ∨
        (running w []).cmd.toNat / 512 ≠ 0) := by
  simp only [List.forall_mem_cons]
  refine ⟨?_, ?_, ?_, ?_, ?_, ?_, ?_, ?_, by simp⟩ <;> decide

theorem witness_StepRunsDecodedCommand :
    ((running 0x105 []).status.busy = true ∧ decode (running 0x105 []).cmd = .ok .unpacki ∧ (running 0x105 []).script = []) ∧
    (running 0x105 [.engine, .reset]).script = .engine :: [.reset] := by decide

theorem witness_IdleEngineKeepsState : (idle []).status.busy = false ∧ (idle []).script = [] ∧
    (idle [.engine]).status.busy = false ∧ (idle [.engine]).script = .engine :: [] := by decide

theorem witness_CmdWriteStartsCommand :
    ((idle [.access (.regWrite 0 1)]).status.busy = false ∧ (idle [.access (.regWrite 0 1)]).script = .access (.regWrite 0 1) :: []) ∧
    (idle [.access (.regRead 0)]).script = .access (.regRead 0) :: [] ∧
    ((running 1 [.access (.regWrite 0 1)]).status.busy = true ∧
      (running 1 [.access (.regWrite 0 1)]).script = .access (.regWrite 0 1) :: []) := by decide

theorem witness_RegisterReadsAndIgnoredWrites :
    (idle [.access (.regRead 0x3F)]).status.busy = false ∧ (idle [.access (.regRead 0x3F)]).script = .access (.regRead 0x3F) :: [] ∧
    (0x3F#6).toNat ∉ [0x00, 0x01, 0x02, 0x03, 0x04, 0x08, 0x09, 0x0A, 0x0B, 0x10, 0x11, 0x12, 0x13, 0x14, 0x15, 0x16,
      0x18, 0x19, 0x1A, 0x1B, 0x1C, 0x1D] ∧
    (idle [.access (.regWrite 0x01 5)]).script = .access (.regWrite 0x01 5) :: [] ∧
    (0x01#6).toNat ∉ [0x00, 0x08, 0x09, 0x0A, 0x0B, 0x18, 0x19, 0x1C, 0x1D] := by decide

/-- A write of five to each register, and one of `2^32 + 5`, which a register of 32 bits takes as five. -/
theorem witness_RegisterWriteReadsBack : ∀ num ∈ [0x08#6, 0x09#6, 0x0A#6, 0x0B#6, 0x18#6, 0x19#6, 0x1C#6, 0x1D#6],
    (idle [.access (.regWrite num 5)]).status.busy = false ∧
    (idle [.access (.regWrite num 5)]).script = .access (.regWrite num 5) :: [] ∧
    (5 : Datum).toNat = (5 : Datum).toNat % 2 ^ 32 ∧
    (5 : Datum).toNat = (5 : Datum).toNat % 2 ^ (idle [.access (.regWrite num 5)]).params.fmt.width ∧
    (5 : Datum).toNat = (0x100000005 : Datum).toNat % 2 ^ 32 ∧
    (5 : Datum).toNat = (0x100000005 : Datum).toNat % 2 ^ Fmt.width .binary32 ∧
    num.toNat ∈ [0x08, 0x09, 0x0A, 0x0B, 0x18, 0x19, 0x1C, 0x1D] := by decide

theorem witness_HostViolationIsStickyFault :
    ((running 1 [.access (.regRead 1)]).script = .access (.regRead 1) :: [] ∧ (running 1 [.access (.regRead 1)]).status.busy = true) ∧
    ((running 1 [.access (.regRead 2)]).script = .access (.regRead 2) :: [] ∧ (running 1 [.access (.regRead 2)]).status.busy = true ∧
      Access.regRead 2 ≠ .regRead 1) ∧
    (∀ x ∈ [(Space.vbuf, 4), (Space.cbuf, 4), (Space.bbuf, 16)],
      (idle [.access (.bufRead x.1 x.2)]).status.busy = false ∧ capacity (idle [.access (.bufRead x.1 x.2)]).params x.1 ≤ x.2) := by
  decide

theorem witness_BufferReadAfterWrite :
    ∀ x ∈ [(Space.vbuf, 3, Space.vbuf, 3), (Space.cbuf, 3, Space.cbuf, 2), (Space.bbuf, 15, Space.vbuf, 0)],
      let s := idle [.access (.bufWrite x.1 x.2.1 9), .access (.bufRead x.2.2.1 x.2.2.2)]
      s.status.busy = false ∧ x.2.1 < capacity s.params x.1 ∧ x.2.2.2 < capacity s.params x.2.2.1 ∧
      s.script = .access (.bufWrite x.1 x.2.1 9) :: .access (.bufRead x.2.2.1 x.2.2.2) :: [] := by decide

theorem witness_RunWaitsForCompletion : ∀ polls ∈ [0, 2], (idle (runEvents polls .pack)).status.busy = false ∧
    (idle (runEvents polls .pack)).script = runEvents polls .pack ++ [] := by decide

theorem witness_HostLeavesOutcomeAndConfiguration : ∃ t, (idle [rd .n]).script = .access (.regRead 0x10) :: [] ∧
    step (idle [rd .n]) = .next t := ⟨_, rfl, rfl⟩

theorem witness_ResetAtAnyTime : (running 6 [.reset]).script = .reset :: [] := by decide

theorem witness_ResetMeetsInvariant : (part .binary32).wf = true ∧ Params.wf ⟨.binary64, 1⟩ = true ∧
    Params.wf ⟨.binary64, 2 ^ 30 - 1⟩ = true := by decide

theorem witness_StepKeepsInvariant : ∃ t, (running 4 []).Inv ∧ step (running 4 []) = .next t :=
  ⟨_, inv_of_invBool _ (by decide +kernel), rfl⟩

theorem witness_CommandFootprints : ∃ t, exec .unpack confC = .next t := ⟨_, rfl⟩

theorem witness_FailedCommandFrame :
    (∃ t, exec .unpack confC = .next t ∧ t.status.err = true) ∧
    (∃ t, exec .pack { confC with count := 1, cbuf := [(0, 0x200)] } = .next t ∧ t.status.err = true ∧ t.status.ecode = 6) :=
  ⟨⟨_, rfl, by decide +kernel⟩, ⟨_, rfl, by decide +kernel⟩⟩

/-- The state before a CFG that the engine is about to run. -/
def beforeCfg : State :=
  { State.resetOf (part .binary64) with
    setN := 8
    setLb := 0xBFF0000000000000
    setUb := 0x3FF0000000000000
    cmd := 1
    status := { busy := true, cfgValid := false, err := false, ecode := 0 } }

theorem witness_OnlyCfgAndResetChangeConfiguration : ∃ t, step beforeCfg = .next t ∧
    (t.cfg ≠ beforeCfg.cfg ∨ t.status.cfgValid ≠ beforeCfg.status.cfgValid) := by
  have hd : decode beforeCfg.cmd = .ok .cfg := by decide
  have hs : step beforeCfg = execCfg beforeCfg := by
    unfold step
    rw [show beforeCfg.script = [] from rfl]
    simp only [engineTurn, hd, exec, show beforeCfg.status.busy = true from rfl, if_true]
  rw [hs]
  obtain ⟨_, h⟩ | ⟨h, _⟩ := execCfg_cases beforeCfg
  · exact ⟨_, h, .inr (by show true ≠ false; decide)⟩
  · exact absurd h (by decide +kernel)

theorem witness_NotConfiguredComesFirst : Instr.decodei ≠ .cfg ∧ State.reset.status.cfgValid = false := by decide

theorem witness_CfgConstructsOrKeeps :
    cfgCheck beforeCfg.params.fmt beforeCfg.setN.toNat beforeCfg.setLb beforeCfg.setUb beforeCfg.setMap.toNat = true ∧
    cfgCheck State.reset.params.fmt State.reset.setN.toNat State.reset.setLb State.reset.setUb State.reset.setMap.toNat = false := by
  decide +kernel

theorem witness_ValidConfigurationProperties : confA.cfg.wf .binary64 = true ∧ confG.cfg.wf .binary64 = true ∧
    confA32.cfg.wf .binary32 = true := by decide +kernel

theorem witness_QencQuantizesScalar : confA.status.cfgValid = true ∧ Fp.isNan confA.params.fmt confA.sv = false ∧
    Fp.isNan .binary64 0x7FF0000000000001 = true := by decide +kernel

theorem witness_QdecDequantizesScalar : confA.status.cfgValid = true ∧
    ({ confA with sc := 0xFF } : State).sc.toNat < 2 ^ confA.cfg.n.toNat ∧
    2 ^ confA.cfg.n.toNat ≤ ({ confA with sc := 0x100 } : State).sc.toNat := by decide +kernel

/-- The codes of the clauses on R67: the bounds' codes, and codes between them in both mappings. -/
theorem witness_QdecDequantizesScalar_code :
    (confA.cfg.wf confA.params.fmt = true ∧ confA.cfg.map = 0 ∧ 0 = confA.cfg.clb.toNat ∧ 0xFF = confA.cfg.cub.toNat ∧
      ∀ code ∈ [1, 0xFE], code < 2 ^ confA.cfg.n.toNat ∧ code ≠ confA.cfg.clb.toNat ∧ code ≠ confA.cfg.cub.toNat) ∧
    (confG.cfg.wf confG.params.fmt = true ∧ confG.cfg.map = 1 ∧ 0 = confG.cfg.clb.toNat ∧ 0x80 = confG.cfg.cub.toNat ∧
      confG.status.cfgValid = true ∧
      ∀ code ∈ [1, 0xFF], code < 2 ^ confG.cfg.n.toNat ∧ code ≠ confG.cfg.clb.toNat ∧ code ≠ confG.cfg.cub.toNat) := by
  decide +kernel

theorem witness_QuantEncodeFitsWidthAndClamps : confA.cfg.wf .binary64 = true ∧ Fp.isNan .binary64 0 = false ∧
    Fp.le .binary64 0xBFF0000000000000 confA.cfg.lb = true ∧ Fp.ge .binary64 0x3FF0000000000000 confA.cfg.ub = true ∧
    Fp.isInf .binary64 0xFFF0000000000000 = true := by decide +kernel

theorem witness_IndexIsSaturatedFloor :
    ∀ x ∈ [((0 : Datum), 128), (0x3FEFFFFFFFFFFFFF, 255)], confA.cfg.wf .binary64 = true ∧
      Fp.lt .binary64 confA.cfg.lb x.1 = true ∧ Fp.lt .binary64 x.1 confA.cfg.ub = true ∧
      quantEncode .binary64 confA.cfg x.1 = some (if confA.cfg.map = 0 then x.2 else gray x.2) ∧
      x.2 < 2 ^ confA.cfg.n.toNat := by decide +kernel

theorem witness_NaturalCodeIsMonotone : confA.cfg.wf .binary64 = true ∧ confA.cfg.map = 0 ∧
    Fp.le .binary64 0 0x3FE0000000000000 = true ∧ quantEncode .binary64 confA.cfg 0 = some 0x80 ∧
    quantEncode .binary64 confA.cfg 0x3FE0000000000000 = some 0xC0 := by decide +kernel

theorem witness_BoundsRoundTripExactly : confG.cfg.wf .binary64 = true := by decide +kernel

theorem witness_DecodedValueIsNeverNan : confG.cfg.wf .binary64 = true ∧ 0xFF < 2 ^ confG.cfg.n.toNat := by decide +kernel

/-- A configuration and a code for the derived claim of R67, in the format where it fails (log entry 11). -/
theorem witness_DecodedValueIsAlwaysFinite :
    (cfgDerive .binary32 32 0x73C00000 0x7F7FFFFF 0).wf .binary32 = true ∧
    2 ^ 32 - 2 < 2 ^ (cfgDerive .binary32 32 0x73C00000 0x7F7FFFFF 0).n.toNat := by decide +kernel

theorem witness_GrayInverseUndoesGray : 0xFF < 2 ^ 8 := by decide

theorem witness_GrayCodesAdjacent : 0 < 2 ^ 8 - 1 ∧ 254 < 2 ^ 8 - 1 := by decide

theorem witness_SerializedStreamLayout :
    let cs := [0x1FF, 0, 0x155, 0xAA]
    (3 < cs.length ∧ 0 < 9) ∧ (3 < cs.length ∧ 8 < 9) ∧
    (cs.length * 9 ≤ 36 ∧ 36 < 8 * ceilDiv (cs.length * 9) 8) ∧ (cs.length * 9 ≤ 39 ∧ 39 < 8 * ceilDiv (cs.length * 9) 8) := by
  decide

theorem witness_AlignedCodesAreBigEndian : 4 ∈ [1, 2, 3, 4] ∧ 1 < [0xDEADBEEF, 1].length ∧ 3 < 4 := by decide

theorem witness_InferredCountIsPackedCount : 8 ≤ 8 ∧ 8 ≤ 32 := by decide

/-- Four codes of nine bits. -/
def codesC : State := { confC with count := 4, cbuf := [(0, 0x1FF), (1, 0), (2, 0x155), (3, 0xAA)] }

theorem witness_PackSerializesCodes : codesC.Inv ∧ codesC.status.cfgValid = true ∧ codesC.count.toNat ≤ codesC.params.maxCount ∧
    ∀ i, i < codesC.count.toNat → (codesC.codeAt i).toNat < 2 ^ codesC.cfg.n.toNat :=
  ⟨inv_of_invBool _ (by decide +kernel), by decide, by decide, by decide +kernel⟩

/-- The second of three codes has ten bits. -/
def codesBad : State := { confC with count := 3, cbuf := [(0, 1), (1, 0x200), (2, 0x300)] }

theorem witness_PackErrors : codesBad.status.cfgValid = true ∧
    ({ codesBad with count := 5 } : State).params.maxCount < ({ codesBad with count := 5 } : State).count.toNat ∧
    codesBad.count.toNat ≤ codesBad.params.maxCount ∧ 1 < codesBad.count.toNat ∧
    2 ^ codesBad.cfg.n.toNat ≤ (codesBad.codeAt 1).toNat ∧
    ∀ j, j < 1 → (codesBad.codeAt j).toNat < 2 ^ codesBad.cfg.n.toNat := by decide +kernel

/-- The stream of the four codes, all of it supplied. -/
def streamC : State := { confC with count := 4, blen := 5, bbuf := [(0, 0xFF), (1, 0x80), (2, 0x2A), (3, 0xAA), (4, 0xA0)] }

theorem witness_UnpackDeserializesCodes : streamC.Inv ∧ streamC.status.cfgValid = true ∧
    streamC.count.toNat ≤ streamC.params.maxCount ∧ streamC.blen.toNat ≤ maxBytes streamC.params ∧ streamC.count.toNat ≠ 0 ∧
    streamC.count.toNat * streamC.cfg.n.toNat ≤ 8 * streamC.blen.toNat :=
  ⟨inv_of_invBool _ (by decide +kernel), by decide +kernel⟩

theorem witness_UnpackiInfersAndDeserializes : streamC.Inv ∧ streamC.status.cfgValid = true ∧
    streamC.blen.toNat ≤ maxBytes streamC.params ∧ 4 = (8 * streamC.blen.toNat) / streamC.cfg.n.toNat ∧ 4 ≠ 0 ∧
    4 ≤ streamC.params.maxCount :=
  ⟨inv_of_invBool _ (by decide +kernel), by decide +kernel⟩

/-- Under configuration C, with the given `COUNT` and `BLEN`. -/
def askC (count blen : Word) : State := { confC with count := count, blen := blen }

/-- The error that the statement names for UNPACK and DECODE, case by case. -/
theorem witness_UnpackErrorPriority : ∀ x ∈ [(askC 5 5, (8 : BitVec 8)), (askC 4 17, 8), (askC 0 0, 3), (askC 4 4, 2)],
    x.1.status.cfgValid = true ∧ x.2 ≠ 0 ∧
    x.2 = (if x.1.params.maxCount < x.1.count.toNat ∨ maxBytes x.1.params < x.1.blen.toNat then 8
      else if x.1.count.toNat = 0 then 3
      else if 8 * x.1.blen.toNat < x.1.count.toNat * x.1.cfg.n.toNat then 2 else 0) := by
  simp only [List.forall_mem_cons]
  refine ⟨?_, ?_, ?_, ?_, by simp⟩ <;> decide

/-- The error that the statement names for UNPACKI and DECODEI, case by case. -/
theorem witness_UnpackErrorPriority_inferred : ∀ x ∈ [(askC 0 17, (8 : BitVec 8)), (askC 0 1, 3), (askC 0 6, 8)],
    x.1.status.cfgValid = true ∧ x.2 ≠ 0 ∧
    x.2 = (if maxBytes x.1.params < x.1.blen.toNat then 8
      else if (8 * x.1.blen.toNat) / x.1.cfg.n.toNat = 0 then 3
      else if x.1.params.maxCount < (8 * x.1.blen.toNat) / x.1.cfg.n.toNat then 8 else 0) := by
  simp only [List.forall_mem_cons]
  refine ⟨?_, ?_, ?_, by simp⟩ <;> decide

theorem witness_PackUnpackRoundTrip : ∃ t, codesC.Inv ∧ exec .pack codesC = .next t ∧ t.status.err = false ∧ codesC.count.toNat ≠ 0 :=
  ⟨_, inv_of_invBool _ (by decide +kernel), rfl, by decide +kernel, by decide⟩

theorem witness_PackerDependsOnlyOnWidth : ∃ t, Instr.pack ∈ [Instr.pack, .unpack, .unpacki] ∧ confG.cfg.n = confA.cfg.n ∧
    exec .pack confA = .next t := ⟨_, by decide, rfl, rfl⟩

/-- Three values under configuration A. -/
def valuesA : State := { confA with count := 3, vbuf := [(0, 0xBFF0000000000000), (1, 0), (2, 0x3FF0000000000000)] }

theorem witness_EncodePacksQuantizedValues : valuesA.Inv ∧ valuesA.status.cfgValid = true ∧
    valuesA.count.toNat ≤ valuesA.params.maxCount ∧
    ∀ i, i < valuesA.count.toNat → Fp.isNan valuesA.params.fmt (valuesA.valueAt i) = false :=
  ⟨inv_of_invBool _ (by decide +kernel), by decide, by decide, by decide +kernel⟩

/-- The second of three values is a NaN. -/
def valuesNan : State := { valuesA with vbuf := [(0, 0), (1, 0x7FF8000000000000), (2, 0)] }

theorem witness_EncodeStopsAtFirstNan : valuesNan.status.cfgValid = true ∧ valuesNan.count.toNat ≤ valuesNan.params.maxCount ∧
    1 < valuesNan.count.toNat ∧ Fp.isNan valuesNan.params.fmt (valuesNan.valueAt 1) = true ∧
    ∀ j, j < 1 → Fp.isNan valuesNan.params.fmt (valuesNan.valueAt j) = false := by decide +kernel

theorem witness_DecodeDequantizesCodes : streamC.Inv ∧ streamC.status.cfgValid = true ∧
    streamC.count.toNat ≤ streamC.params.maxCount ∧ streamC.blen.toNat ≤ maxBytes streamC.params ∧ streamC.count.toNat ≠ 0 ∧
    streamC.count.toNat * streamC.cfg.n.toNat ≤ 8 * streamC.blen.toNat := witness_UnpackDeserializesCodes

theorem witness_DecodeiInfersAndDequantizes : streamC.Inv ∧ streamC.status.cfgValid = true ∧
    streamC.blen.toNat ≤ maxBytes streamC.params ∧ 4 = (8 * streamC.blen.toNat) / streamC.cfg.n.toNat ∧ 4 ≠ 0 ∧
    4 ≤ streamC.params.maxCount := witness_UnpackiInfersAndDeserializes

theorem witness_EncodeDecodeRoundTrip : ∃ t, valuesA.Inv ∧ exec .encode valuesA = .next t ∧ t.status.err = false ∧
    valuesA.count.toNat ≠ 0 :=
  ⟨_, inv_of_invBool _ (by decide +kernel), rfl, by decide +kernel, by decide⟩

/-- Finite operands, among them 1.0 and -1.0 (90_conflicts C1) and zeros of either sign, whose sum or difference is 0. -/
theorem witness_SumAndDifferenceCorrectlyRounded :
    (Fp.isFinite .binary64 0x7FEFFFFFFFFFFFFF = true ∧ Fp.isFinite .binary32 0x80000001 = true) ∧
    (Fp.isFinite .binary64 0x3FF0000000000000 = true ∧ Fp.isFinite .binary64 0xBFF0000000000000 = true ∧
      Fp.units .binary64 0x3FF0000000000000 + Fp.units .binary64 0xBFF0000000000000 = 0) ∧
    (Fp.isFinite .binary64 0x8000000000000000 = true ∧
      Fp.units .binary64 0x8000000000000000 + Fp.units .binary64 0x8000000000000000 = 0) ∧
    (Fp.isFinite .binary32 0x80000000 = true ∧ Fp.isFinite .binary32 0 = true ∧
      Fp.units .binary32 0x80000000 - Fp.units .binary32 0 = 0) := by decide +kernel

theorem witness_ProductAndQuotientCorrectlyRounded : Fp.isFinite .binary64 0x8000000000000001 = true ∧
    Fp.isFinite .binary64 0x4080000000000000 = true ∧ Fp.isFinite .binary64 0x8000000000000000 = true ∧
    Fp.units .binary64 0x8000000000000001 ≠ 0 := by decide +kernel

theorem witness_NaturalConversions : (2 ^ 32 - 1 < 2 ^ 32 ∧ Fmt.binary64 = .binary64) ∧ (2 ^ 24 < 2 ^ 32 ∧ 2 ^ 24 ≤ 2 ^ 24) ∧
    32 ≤ 32 ∧ (Fp.isFinite .binary32 0x80000000 = true ∧ 0 ≤ Fp.units .binary32 0x80000000) := by decide +kernel

theorem witness_ComparisonsCompareValues : Fp.isFinite .binary64 0x8000000000000000 = true ∧ Fp.isFinite .binary64 0 = true ∧
    Fp.isNan .binary64 0x7FF8000000000000 = true := by decide

end Sys2Proof.Tests
end

/-! The floating-point primitives meet R13: correct rounding of the four operations, the conversions from and to
natural numbers, and the comparisons. Rounding is proved once, for a sign and a magnitude
(`correctlyRounded_withSign`); each operation is then such a sign and magnitude. -/

namespace Sys2Proof.Fp

/-! ### The value of a datum by its place in the order -/

/-- The value, in units, at the place `x` of the order of the data. -/
def unitsAt (f : Fmt) (x : Int) : Int := x.sign * magOf f x.natAbs

theorem unitsAt_natCast (f : Fmt) (p : Nat) : unitsAt f p = magOf f p := by
  rcases Nat.eq_zero_or_pos p with rfl | hp
  · simp [unitsAt, magOf_zero]
  · simp [unitsAt, Int.sign_eq_one_of_pos (Int.natCast_pos.mpr hp)]

theorem unitsAt_neg (f : Fmt) (x : Int) : unitsAt f (-x) = -unitsAt f x := by simp [unitsAt]

theorem unitsAt_zero (f : Fmt) : unitsAt f 0 = 0 := by simp [unitsAt]

/-- The value rises along the order of the data. -/
theorem unitsAt_strictMono (f : Fmt) : StrictMono (unitsAt f) := by
  refine strictMono_of_odd_strictMonoOn_nonneg (unitsAt_neg f) fun x hx y hy hxy => ?_
  lift x to Nat using hx
  lift y to Nat using hy
  rw [unitsAt_natCast, unitsAt_natCast]
  exact_mod_cast magOf_strictMono f (by exact_mod_cast hxy)

theorem units_eq_unitsAt (f : Fmt) (a : Datum) : units f a = unitsAt f (ord f a) := by
  unfold units
  rw [ord_eq, mag_eq]
  cases sign f a
  · simp [unitsAt_natCast]
  · simp [unitsAt_neg, unitsAt_natCast]

theorem ord_nonneg_iff (f : Fmt) (a : Datum) : 0 ≤ ord f a ↔ 0 ≤ units f a := by
  rw [units_eq_unitsAt, ← (unitsAt_strictMono f).le_iff_le, unitsAt_zero]

theorem mag_eq_natAbs_units (f : Fmt) (a : Datum) : mag f a = (units f a).natAbs := by
  unfold units
  split <;> simp

theorem isNan_eq_false_of_isFinite {f : Fmt} {a : Datum} (h : isFinite f a = true) : isNan f a = false := by
  rw [isFinite_iff] at h
  rw [← Bool.not_eq_true, isNan_iff]
  omega

theorem isInf_eq_false_of_isFinite {f : Fmt} {a : Datum} (h : isFinite f a = true) : isInf f a = false := by
  rw [isFinite_iff] at h
  rw [← Bool.not_eq_true, isInf_iff]
  omega

/-! ### Negation -/

theorem sign_neg (f : Fmt) (a : Datum) : sign f (neg f a) = !sign f a := by
  have hlt : signBit f < 64 := by cases f <;> decide
  unfold sign neg
  rw [BitVec.getLsbD_xor, BitVec.getLsbD_ofNat, Nat.testBit_two_pow_self, decide_eq_true hlt,
    Bool.and_self, Bool.xor_true]

theorem place_neg (f : Fmt) (a : Datum) : place f (neg f a) = place f a := by
  have hbit : 2 ^ signBit f % 2 ^ 64 = 2 ^ signBit f := by cases f <;> decide
  unfold place neg
  rw [BitVec.toNat_xor, BitVec.toNat_ofNat, hbit, Nat.xor_mod_two_pow, Nat.mod_self, Nat.xor_zero]

theorem units_neg (f : Fmt) (a : Datum) : units f (neg f a) = -units f a := by
  unfold units
  rw [sign_neg, mag_eq, mag_eq, place_neg]
  cases sign f a <;> simp

theorem isFinite_neg (f : Fmt) (a : Datum) : isFinite f (neg f a) = isFinite f a := by
  rw [Bool.eq_iff_iff, isFinite_iff, isFinite_iff, place_neg]

/-! ### Magnitudes: which place rounding picks -/

theorem infMag_eq (f : Fmt) : infMag f = (expMax f - 2) * 2 ^ fracBits f + 2 ^ (fracBits f + 1) := by
  cases f <;> decide

theorem maxUnits_eq (f : Fmt) : maxUnits f = magOf f (infMag f - 1) := by
  have h1 : 2 ^ fracBits f ≤ 2 ^ (fracBits f + 1) - 1 := by cases f <;> decide
  have h2 : infMag f - 1 = (expMax f - 2) * 2 ^ fracBits f + (2 ^ (fracBits f + 1) - 1) := by
    rw [infMag_eq, Nat.add_sub_assoc (Nat.two_pow_pos _)]
  rw [h2, magOf_at f _ _ (Nat.sub_le _ _) (fun _ => h1), maxUnits]

/-- The bound of `CorrectlyRounded.overflow` is the sum of the last finite place's value and the next one. -/
theorem overflowBound_eq (f : Fmt) :
    2 * maxUnits f + 2 ^ (expMax f - 2) = magOf f (infMag f - 1) + magOf f (infMag f) := by
  have h : magOf f (infMag f) = maxUnits f + 2 ^ (expMax f - 2) := by
    rw [infMag_eq, magOf_at f _ _ le_rfl (fun _ => Nat.pow_le_pow_right (by decide) (Nat.le_succ _)), maxUnits,
      ← Nat.succ_mul, Nat.succ_eq_add_one, Nat.sub_add_cancel (Nat.two_pow_pos _)]
  rw [← maxUnits_eq, h]
  omega

/-- No place's value is nearer than the one rounding picks, and of two as near the even one is picked. -/
theorem roundMag_nearest (f : Fmt) (num den : Nat) (hd : 0 < den) (hfin : roundMag f num den < infMag f) (q : Nat) :
    ((num : Int) - magOf f (roundMag f num den) * den).natAbs ≤ ((num : Int) - magOf f q * den).natAbs ∧
    (q ≠ roundMag f num den →
      ((num : Int) - magOf f (roundMag f num den) * den).natAbs = ((num : Int) - magOf f q * den).natAbs →
      roundMag f num den % 2 = 0) := by
  obtain ⟨p, hlo, hhi, hround⟩ := roundMag_spec f num den hd
  have hscaled : StrictMono fun x => magOf f x * den := fun x y hxy =>
    Nat.mul_lt_mul_of_pos_right (magOf_strictMono f hxy) hd
  have hbelow : q < p → magOf f q * den < magOf f p * den := fun h => hscaled h
  have habove : p + 1 < q → magOf f (p + 1) * den < magOf f q * den := fun h => hscaled h
  rw [Nat.add_mul] at hround
  rw [hround] at hfin ⊢
  rw [min_eq_left (by omega)] at hfin ⊢
  have hcases : q < p ∨ q = p ∨ q = p + 1 ∨ p + 1 < q := by omega
  simp only [← Nat.cast_mul]
  split
  · rcases hcases with h | rfl | rfl | h <;> omega
  · rcases hcases with h | rfl | rfl | h <;> omega

/-- Rounding overflows exactly from the midpoint of the last finite place's value and the next one on. -/
theorem roundMag_eq_infMag_iff (f : Fmt) (num den : Nat) (hd : 0 < den) :
    roundMag f num den = infMag f ↔ (2 * maxUnits f + 2 ^ (expMax f - 2)) * den ≤ 2 * num := by
  obtain ⟨p, hlo, hhi, hround⟩ := roundMag_spec f num den hd
  have heven : infMag f % 2 = 0 := by cases f <;> decide
  have hpos : 0 < infMag f := by cases f <;> decide
  have hscaled : StrictMono fun x => magOf f x * den := fun x y hxy =>
    Nat.mul_lt_mul_of_pos_right (magOf_strictMono f hxy) hd
  rw [overflowBound_eq, hround, Nat.add_mul, Nat.add_mul]
  rcases Nat.lt_trichotomy (p + 1) (infMag f) with h | h | h
  · have h1 : magOf f (p + 1) * den ≤ magOf f (infMag f - 1) * den := hscaled.monotone (by omega)
    have h2 : magOf f (infMag f - 1) * den < magOf f (infMag f) * den := hscaled (by omega)
    split <;> omega
  · rw [← h, Nat.add_sub_cancel]
    split <;> omega
  · have h1 : magOf f (infMag f) * den ≤ magOf f p * den := hscaled.monotone (by omega)
    have h2 : magOf f (infMag f - 1) * den < magOf f (infMag f) * den := hscaled (by omega)
    split <;> omega

/-! ### Correct rounding of a sign and a magnitude -/

theorem units_withSign (f : Fmt) (s : Bool) (p : Nat) (hp : p < 2 ^ signBit f) :
    units f (withSign f s p) = if s then -(magOf f p : Int) else magOf f p := by
  unfold units
  rw [sign_withSign f s p hp, mag_eq, place_withSign f s p hp]

theorem withSign_toNat_mod_two (f : Fmt) (s : Bool) (p : Nat) (hp : p < 2 ^ signBit f) :
    (withSign f s p).toNat % 2 = p % 2 := by
  have heven : 2 ^ signBit f % 2 = 0 := by cases f <;> decide
  rw [withSign_toNat f s p hp]
  split <;> omega

/-- Writing `n`, `x` with the sign `s`, and `y` with either sign: if `x` is as near to `n` as `y` is, it stays so. -/
theorem nearest_of_magnitudes {n x y : Nat} {v w z : Int} (s : Bool) (hv : v = if s then -(n : Int) else n)
    (hw : w = if s then -(x : Int) else x) (hz : z = y ∨ z = -(y : Int))
    (h : ((n : Int) - x).natAbs ≤ ((n : Int) - y).natAbs) : (v - w).natAbs ≤ (v - z).natAbs := by
  cases s <;> simp only [Bool.false_eq_true, if_false, if_true] at hv hw <;> omega

/-- A tie of the signed numbers is a tie of the magnitudes, where `x` is as near to `n` as `y` and 0 are. -/
theorem tie_of_magnitudes {n x y : Nat} {v w z : Int} (s : Bool) (hv : v = if s then -(n : Int) else n)
    (hw : w = if s then -(x : Int) else x) (hz : z = y ∨ z = -(y : Int))
    (h : ((n : Int) - x).natAbs ≤ ((n : Int) - y).natAbs) (h0 : ((n : Int) - x).natAbs ≤ n)
    (hne : z ≠ w) (htie : (v - w).natAbs = (v - z).natAbs) :
    y ≠ x ∧ ((n : Int) - x).natAbs = ((n : Int) - y).natAbs := by
  cases s <;> simp only [Bool.false_eq_true, if_false, if_true] at hv hw <;> omega

/-- The value of a datum scaled by `den` is its place's value scaled, with either sign. -/
theorem units_mul_eq_or_neg (f : Fmt) (c : Datum) (den : Nat) :
    units f c * den = (magOf f (place f c) * den : Nat) ∨
      units f c * den = -((magOf f (place f c) * den : Nat) : Int) := by
  unfold units
  rw [mag_eq]
  split
  · exact .inr (by push_cast; ring)
  · exact .inl (by push_cast; ring)

/-- Rounding to nearest as R13 asks for it, once for all operations: the sign of the exact value with the rounded
magnitude. Where the exact value is zero, either sign will do. -/
theorem correctlyRounded_withSign (f : Fmt) (s : Bool) (n den : Nat) (num : Int) (hd : 0 < den)
    (hnum : num = if s then -(n : Int) else n) :
    CorrectlyRounded f num den (withSign f s (roundMag f n den)) := by
  have hlt := roundMag_lt f n den
  have hplace := place_withSign f s _ hlt
  have hnear := roundMag_nearest f n den hd
  have hover := roundMag_eq_infMag_iff f n den hd
  have hnat : num.natAbs = n := by rw [hnum]; split <;> simp
  have hunits : units f (withSign f s (roundMag f n den)) * den = if s then
      -((magOf f (roundMag f n den) * den : Nat) : Int) else (magOf f (roundMag f n den) * den : Nat) := by
    rw [units_withSign f s _ hlt]
    split <;> simp
  simp only [← Nat.cast_mul] at hnear
  constructor
  case notNan =>
    rw [← Bool.not_eq_true, isNan_iff, hplace]
    exact Nat.not_lt.mpr (roundMag_le f n den)
  case nearest =>
    intro hfin c _
    rw [isFinite_iff, hplace] at hfin
    exact nearest_of_magnitudes s hnum hunits (units_mul_eq_or_neg f c den) (hnear hfin (place f c)).1
  case tiesToEven =>
    intro hfin c _ hne htie
    rw [isFinite_iff, hplace] at hfin
    have hzero := (hnear hfin 0).1
    simp only [magOf_zero, Nat.zero_mul, Nat.cast_zero, Int.sub_zero, Int.natAbs_natCast] at hzero
    obtain ⟨hle, heven⟩ := hnear hfin (place f c)
    have hne' : units f c * den ≠ units f (withSign f s (roundMag f n den)) * den := fun h =>
      hne (Int.eq_of_mul_eq_mul_right (by omega) h)
    obtain ⟨hplaces, htie'⟩ := tie_of_magnitudes s hnum hunits (units_mul_eq_or_neg f c den) hle hzero hne' htie
    rw [withSign_toNat_mod_two f s _ hlt]
    exact heven (fun h => hplaces (by rw [h])) htie'
  case overflow => rw [isInf_iff, hplace, hnat, hover]
  case signOfInf =>
    rw [isInf_iff, hplace, hover, sign_withSign f s _ hlt]
    intro hinf
    have hbound : 0 < (2 * maxUnits f + 2 ^ (expMax f - 2)) * den := Nat.mul_pos (by positivity) hd
    cases s <;> simp only [Bool.false_eq_true, if_false, if_true] at hnum
    · exact (decide_eq_false (by omega)).symm
    · exact (decide_eq_true (by omega)).symm

theorem roundMag_zero (f : Fmt) (den : Nat) (hd : 0 < den) : roundMag f 0 den = 0 := by
  simpa [magOf_zero] using roundMag_exact f 0 den hd (Nat.zero_le _)

/-! ### Addition and subtraction -/

/-- The sum of finite data, an exact zero included, is a sign and a rounded magnitude. -/
theorem sum_eq_withSign {f : Fmt} (op : FpOp) {a b : Datum} (ha : isFinite f a = true) (hb : isFinite f b = true) :
    sum f op a b = withSign f
      (if units f a + units f b = 0 then sign f a && sign f b else decide (units f a + units f b < 0))
      (roundMag f (units f a + units f b).natAbs 1) := by
  simp only [sum, isNan_eq_false_of_isFinite, isInf_eq_false_of_isFinite, ha, hb, Bool.or_self,
    Bool.false_eq_true, if_false]
  split
  next h => rw [h, Int.natAbs_zero, roundMag_zero f 1 Nat.one_pos]
  next => rfl

theorem correctlyRounded_sum {f : Fmt} (op : FpOp) {a b : Datum} (ha : isFinite f a = true) (hb : isFinite f b = true) :
    CorrectlyRounded f (units f a + units f b) 1 (sum f op a b) := by
  rw [sum_eq_withSign op ha hb]
  refine correctlyRounded_withSign f _ _ 1 _ Nat.one_pos ?_
  by_cases h0 : units f a + units f b = 0
  · simp [h0]
  · rw [if_neg h0]
    by_cases hneg : units f a + units f b < 0
    · rw [decide_eq_true hneg, if_pos rfl]; omega
    · rw [decide_eq_false hneg, if_neg Bool.false_ne_true]; omega

theorem sum_toNat_of_zero {f : Fmt} (op : FpOp) {a b : Datum} (ha : isFinite f a = true) (hb : isFinite f b = true)
    (h : units f a + units f b = 0) :
    (sum f op a b).toNat = if sign f a = true ∧ sign f b = true then 2 ^ (f.width - 1) else 0 := by
  rw [sum_eq_withSign op ha hb, if_pos h, h, Int.natAbs_zero, roundMag_zero f 1 Nat.one_pos,
    withSign_toNat f _ 0 (Nat.two_pow_pos _)]
  simp only [Bool.and_eq_true, signBit, Nat.add_zero]

/-- Settles O57: subtraction is the sum with the negated datum, so both are `sum` of finite data. -/
theorem sumAndDifferenceCorrectlyRounded : Obligations.SumAndDifferenceCorrectlyRounded := by
  intro f a b ha hb
  have hnb : isFinite f (neg f b) = true := by rw [isFinite_neg, hb]
  have hdiff : units f a - units f b = units f a + units f (neg f b) := by rw [units_neg, Int.sub_eq_add_neg]
  refine ⟨correctlyRounded_sum .add ha hb, ?_, sum_toNat_of_zero .add ha hb, fun h0 => ?_⟩
  · rw [hdiff]
    exact correctlyRounded_sum .sub ha hnb
  · rw [hdiff] at h0
    simpa only [sub, sign_neg, Bool.not_eq_true'] using sum_toNat_of_zero .sub ha hnb h0

/-! ### Multiplication and division -/

theorem mul_eq_withSign {f : Fmt} {a b : Datum} (ha : isFinite f a = true) (hb : isFinite f b = true) :
    mul f a b = withSign f (sign f a != sign f b) (roundMag f (mag f a * mag f b) (2 ^ unitExp f)) := by
  simp [mul, isNan_eq_false_of_isFinite, isInf_eq_false_of_isFinite, ha, hb]

theorem div_eq_withSign {f : Fmt} {a b : Datum} (ha : isFinite f a = true) (hb : isFinite f b = true)
    (h0 : mag f b ≠ 0) :
    div f a b = withSign f (sign f a != sign f b) (roundMag f (mag f a * 2 ^ unitExp f) (mag f b)) := by
  simp [div, isNan_eq_false_of_isFinite, isInf_eq_false_of_isFinite, ha, hb, h0]

/-- The product of two values is the product of the magnitudes with the sign rule. -/
theorem units_mul_units (f : Fmt) (a b : Datum) :
    units f a * units f b =
      if (sign f a != sign f b) = true then -((mag f a * mag f b : Nat) : Int) else (mag f a * mag f b : Nat) := by
  unfold units
  cases sign f a <;> cases sign f b <;> simp

theorem units_neg_iff (f : Fmt) (b : Datum) (h0 : mag f b ≠ 0) : units f b < 0 ↔ sign f b = true := by
  unfold units
  cases sign f b
  · simp
  · simpa using Nat.pos_of_ne_zero h0

/-- The dividend with the sign of the divisor moved into it: the magnitudes with the sign rule. -/
theorem units_mul_signed_one (f : Fmt) (a b : Datum) (h0 : mag f b ≠ 0) :
    units f a * (if units f b < 0 then -(2 ^ unitExp f) else 2 ^ unitExp f) =
      if (sign f a != sign f b) = true then -((mag f a * 2 ^ unitExp f : Nat) : Int)
      else (mag f a * 2 ^ unitExp f : Nat) := by
  simp only [units_neg_iff f b h0]
  unfold units
  cases sign f a <;> cases sign f b <;> simp

/-- Settles O58: both results are the exclusive-or of the signs with the rounded product or quotient of magnitudes. -/
theorem productAndQuotientCorrectlyRounded : Obligations.ProductAndQuotientCorrectlyRounded := by
  intro f a b ha hb
  rw [mul_eq_withSign ha hb, sign_withSign f _ _ (roundMag_lt f _ _), bne_iff_ne]
  refine ⟨?_, Iff.rfl, fun hunits => ?_⟩
  · exact correctlyRounded_withSign f _ _ _ _ (Nat.two_pow_pos _) (units_mul_units f a b)
  · have h0 : mag f b ≠ 0 := by rwa [mag_eq_natAbs_units, Int.natAbs_ne_zero]
    rw [div_eq_withSign ha hb h0, sign_withSign f _ _ (roundMag_lt f _ _), bne_iff_ne]
    exact ⟨correctlyRounded_withSign f _ _ _ _ (Nat.pos_of_ne_zero h0) (units_mul_signed_one f a b h0), Iff.rfl⟩

/-! ### Natural numbers -/

/-- A number of at most `2 ^ (fracBits + 1)` has a multiple by a power of two with the leading bit of a significand. -/
theorem exists_normalized (f : Fmt) (m : Nat) (h0 : m ≠ 0) (hm : m ≤ 2 ^ (fracBits f + 1)) :
    ∃ j, j ≤ fracBits f ∧ 2 ^ fracBits f ≤ m * 2 ^ j ∧ m * 2 ^ j ≤ 2 ^ (fracBits f + 1) := by
  have hlo : 2 ^ m.log2 ≤ m := Nat.log2_self_le h0
  have hhi : m < 2 ^ (m.log2 + 1) := Nat.lt_log2_self
  rcases Nat.le_or_le m.log2 (fracBits f) with hlog | hlog
  · obtain ⟨j, hj⟩ := Nat.exists_eq_add_of_le hlog
    refine ⟨j, by omega, ?_, ?_⟩
    · rw [hj, Nat.pow_add]
      exact Nat.mul_le_mul_right _ hlo
    · rw [hj, Nat.add_right_comm, Nat.pow_add]
      exact Nat.mul_le_mul_right _ hhi.le
  · exact ⟨0, Nat.zero_le _, by simpa using (Nat.pow_le_pow_right (by decide) hlog).trans hlo, by simpa using hm⟩

/-- A significand, the carry `2 ^ (fracBits + 1)` included, times a power of two is a value of the format. -/
theorem exists_magOf_eq (f : Fmt) (m e : Nat) (hm : m ≤ 2 ^ (fracBits f + 1)) (hlo : fracBits f ≤ e)
    (hhi : e + 2 ≤ expMax f) : ∃ p, p ≤ infMag f ∧ magOf f p = m * 2 ^ e := by
  rcases Nat.eq_zero_or_pos m with rfl | hpos
  · exact ⟨0, Nat.zero_le _, by simp [magOf_zero]⟩
  · obtain ⟨j, hj, hge, hle⟩ := exists_normalized f m (by omega) hm
    refine ⟨(e - j) * 2 ^ fracBits f + m * 2 ^ j, ?_, ?_⟩
    · rw [infMag_eq]
      exact Nat.add_le_add (Nat.mul_le_mul_right _ (by omega)) hle
    · rw [magOf_at f _ _ hle fun _ => hge, Nat.mul_assoc, ← Nat.pow_add]
      congr 2
      omega

theorem fromNat_correctlyRounded (f : Fmt) (k : Nat) :
    CorrectlyRounded f (k * 2 ^ unitExp f : Nat) 1 (fromNat f k) :=
  correctlyRounded_withSign f false _ 1 _ Nat.one_pos rfl

/-- `fp_from_nat` is exact on a significand times a power of two. -/
theorem units_fromNat (f : Fmt) (m i : Nat) (hm : m ≤ 2 ^ (fracBits f + 1)) (hi : i ≤ 32) :
    units f (fromNat f (m * 2 ^ i)) = (m * 2 ^ i * 2 ^ unitExp f : Nat) := by
  have hrange : fracBits f ≤ unitExp f ∧ 32 + unitExp f + 2 ≤ expMax f := by cases f <;> decide
  obtain ⟨p, hp, hval⟩ := exists_magOf_eq f m (i + unitExp f) hm (by omega) (by omega)
  have hexact := roundMag_exact f p 1 Nat.one_pos hp
  rw [hval, Nat.mul_one, Nat.pow_add, ← Nat.mul_assoc] at hexact
  rw [fromNat, units_withSign f _ _ (roundMag_lt f _ _), hexact, hval, Nat.pow_add, ← Nat.mul_assoc]
  rfl

theorem floorNat_of_nonneg (f : Fmt) (q : Datum) (hq : isFinite f q = true) (h0 : 0 ≤ units f q) :
    floorNat f q = (units f q).toNat / 2 ^ unitExp f := by
  have hord := (ord_nonneg_iff f q).mpr h0
  have hmag : mag f q = (units f q).toNat := by rw [mag_eq_natAbs_units]; omega
  rw [floorNat, hq, decide_eq_true hord, Bool.and_self, if_pos rfl, Nat.shiftRight_eq_div_pow, hmag]

/-- Settles O59: `2 ^ 32` in `binary32` is exact although above `2 ^ 24`, its significand being 1. -/
theorem naturalConversions : Obligations.NaturalConversions := by
  refine ⟨fun f k hk => ⟨fromNat_correctlyRounded f k, fun hsmall => ?_⟩, fun f k hk => ?_, floorNat_of_nonneg⟩
  · have hm : k ≤ 2 ^ (fracBits f + 1) := by
      rcases hsmall with rfl | h24
      · exact hk.le.trans (by decide)
      · exact h24.trans (by cases f <;> decide)
    simpa using units_fromNat f k 0 hm (Nat.zero_le _)
  · simpa [pow2] using units_fromNat f 1 k Nat.one_le_two_pow hk

/-! ### Comparisons -/

/-- Settles O60: the order of the data is the order of their values. -/
theorem comparisonsCompareValues : Obligations.ComparisonsCompareValues := by
  intro f a b
  have hmono := unitsAt_strictMono f
  refine ⟨fun ha hb => ?_, fun hnan => ?_⟩
  · simp only [lt, le, ge, eq, isNan_eq_false_of_isFinite, ha, hb, units_eq_unitsAt, hmono.lt_iff_lt, hmono.le_iff_le,
      hmono.injective.eq_iff, Bool.not_false, Bool.true_and, and_self]
  · rcases hnan with h | h <;> simp [lt, le, ge, eq, h]

end Sys2Proof.Fp

/-! The registers, the host port, and what every step keeps (10_state). What a step, the engine's turn, a host access
and a command can do is said once each (`step_cases`, `engineTurn_cases`, `hostAccess_cases`, `completion_of_exec`); the
invariant and the frames are read off these. -/

namespace Sys2Proof.Fp

/-! ### Every datum the machine makes fits its format -/

theorem fits_of_lt {f : Fmt} {a : Datum} (h : a.toNat < 2 ^ f.width) : fits f a = true := decide_eq_true h

theorem fits_withSign {f : Fmt} (s : Bool) {m : Nat} (h : m < 2 ^ signBit f) : fits f (withSign f s m) = true :=
  fits_of_lt (withSign_fits f s m h)

theorem fits_zero (f : Fmt) : fits f 0 = true := fits_of_lt (Nat.two_pow_pos _)

theorem trunc_toNat (f : Fmt) (a : Datum) : (trunc f a).toNat = a.toNat % 2 ^ f.width := by
  rw [trunc, BitVec.toNat_ofNat, Nat.mod_eq_of_lt ((Nat.mod_le _ _).trans_lt a.isLt)]

theorem fits_trunc (f : Fmt) (a : Datum) : fits f (trunc f a) = true :=
  fits_of_lt (by rw [trunc_toNat]; exact Nat.mod_lt _ (Nat.two_pow_pos _))

theorem infMag_lt_signBit (f : Fmt) : infMag f < 2 ^ signBit f := by cases f <;> decide

theorem fits_nan (f : Fmt) (op : FpOp) (a b : Datum) : fits f (nan f op a b) = true := by
  refine fits_withSign _ ?_
  have hpayload : (Config.nanBits op a b).toNat % 2 ^ (fracBits f - 1) < 2 ^ (fracBits f - 1) :=
    Nat.mod_lt _ (Nat.two_pow_pos _)
  have hquiet : infMag f + 2 ^ (fracBits f - 1) + 2 ^ (fracBits f - 1) = 2 ^ signBit f := by cases f <;> decide
  omega

theorem fits_sum (f : Fmt) (op : FpOp) (a b : Datum) : fits f (sum f op a b) = true := by
  unfold sum
  dsimp only
  split_ifs
  · exact fits_nan f op a b
  · exact fits_nan f op a b
  · exact fits_withSign _ (infMag_lt_signBit f)
  · exact fits_withSign _ (infMag_lt_signBit f)
  · exact fits_withSign _ (Nat.two_pow_pos _)
  · exact fits_withSign _ (roundMag_lt f _ _)

theorem fits_mul (f : Fmt) (a b : Datum) : fits f (mul f a b) = true := by
  unfold mul
  dsimp only
  split_ifs
  · exact fits_nan f .mul a b
  · exact fits_nan f .mul a b
  · exact fits_withSign _ (infMag_lt_signBit f)
  · exact fits_withSign _ (roundMag_lt f _ _)

theorem fits_div (f : Fmt) (a b : Datum) : fits f (div f a b) = true := by
  unfold div
  dsimp only
  split_ifs
  · exact fits_nan f .div a b
  · exact fits_nan f .div a b
  · exact fits_withSign _ (infMag_lt_signBit f)
  · exact fits_withSign _ (Nat.two_pow_pos _)
  · exact fits_nan f .div a b
  · exact fits_withSign _ (infMag_lt_signBit f)
  · exact fits_withSign _ (roundMag_lt f _ _)

end Sys2Proof.Fp

namespace Sys2Proof

/-! ### Registers by number -/

/-- The numbers of the register map (R17); every other number is reserved. -/
def Reg.numbers : List Nat :=
  [0x00, 0x01, 0x02, 0x03, 0x04, 0x08, 0x09, 0x0A, 0x0B, 0x10, 0x11, 0x12, 0x13, 0x14, 0x15, 0x16, 0x18, 0x19, 0x1A,
    0x1B, 0x1C, 0x1D]

/-- The numbers of the registers that the host may write, but for `CMD`, whose write also starts a command (R18). -/
def Reg.dataNumbers : List Nat := [0x08, 0x09, 0x0A, 0x0B, 0x18, 0x19, 0x1C, 0x1D]

/-- The numbers of those that hold a datum of `W` bits; the others hold 32 bits. -/
def Reg.datumNumbers : List Nat := [0x09, 0x0A, 0x1C]

theorem Reg.ofNumber_number (r : Reg) : Reg.ofNumber r.number = some r := by cases r <;> rfl

theorem Reg.number_injective : Function.Injective Reg.number := fun r r' h =>
  Option.some.inj (by rw [← Reg.ofNumber_number, h, Reg.ofNumber_number])

theorem Reg.ofNumber_eq_none_iff (num : BitVec 6) : Reg.ofNumber num = none ↔ num.toNat ∉ Reg.numbers := by
  revert num
  decide

theorem Reg.eq_number_of_ofNumber {num : BitVec 6} {r : Reg} (h : Reg.ofNumber num = some r) : num = r.number := by
  have hall : ∀ n : BitVec 6, ∀ q ∈ Reg.ofNumber n, n = q.number := by decide
  exact hall num r h

/-- A number is reserved or names one register. -/
theorem Reg.ofNumber_cases (num : BitVec 6) : Reg.ofNumber num = none ∨ ∃ r : Reg, num = r.number := by
  cases h : Reg.ofNumber num with
  | none => exact .inl rfl
  | some r => exact .inr ⟨r, Reg.eq_number_of_ofNumber h⟩

theorem Reg.exists_number_of_mem {num : BitVec 6} (h : num.toNat ∈ Reg.dataNumbers) : ∃ r : Reg, num = r.number := by
  have hsub : Reg.dataNumbers ⊆ Reg.numbers := by decide
  exact (Reg.ofNumber_cases num).resolve_left fun hn => (Reg.ofNumber_eq_none_iff num).mp hn (hsub h)

/-- The value that a register of the host takes from the data lines (log entry 10). -/
def Reg.fromLines (f : Fmt) (r : Reg) (v : Datum) : Datum :=
  if r.number.toNat ∈ Reg.datumNumbers then Fp.trunc f v else (v.setWidth 32).setWidth 64

end Sys2Proof

namespace Sys2Proof.Machine

open Host (Outcome)

/-! ### What a step, the engine's turn and a host access can do -/

section
variable {s t : State} {a : Access} {rest : List Event}

theorem step_nil (h : s.script = []) : step s = engineTurn s := by rw [step, h]

theorem step_engine (h : s.script = .engine :: rest) : step s = engineTurn { s with script := rest } := by rw [step, h]

theorem step_access (h : s.script = .access a :: rest) : step s = hostAccess a { s with script := rest } := by
  rw [step, h]

theorem step_reset (h : s.script = .reset :: rest) :
    step s = .next ({ s with script := rest } : State).assertReset := by
  rw [step, h]

/-- A step is the engine's turn, a host access or a reset, with the event that asked for it taken off the script. -/
theorem step_cases (h : step s = .next t) :
    (∃ rest, (s.script = [] ∧ rest = [] ∨ s.script = .engine :: rest) ∧
      engineTurn { s with script := rest } = .next t) ∨
    (∃ a rest, s.script = .access a :: rest ∧ hostAccess a { s with script := rest } = .next t) ∨
    (∃ rest, s.script = .reset :: rest ∧ t = ({ s with script := rest } : State).assertReset) := by
  match hs : s.script with
  | [] =>
    have heta : ({ s with script := [] } : State) = s := by rw [← hs]
    exact .inl ⟨[], .inl ⟨rfl, rfl⟩, by rw [heta, ← step_nil hs, h]⟩
  | .engine :: rest => exact .inl ⟨rest, .inr rfl, step_engine hs ▸ h⟩
  | .access a :: rest => exact .inr (.inl ⟨a, rest, rfl, step_access hs ▸ h⟩)
  | .reset :: rest => exact .inr (.inr ⟨rest, rfl, (Outcome.next.inj (step_reset hs ▸ h)).symm⟩)

theorem engineTurn_of_decode {i : Instr} (hb : s.status.busy = true) (hd : decode s.cmd = .ok i) :
    engineTurn s = exec i s := by rw [engineTurn, if_pos hb, hd]

/-- The engine runs the decoded command, completes an illegal word with an error, or is idle. -/
theorem engineTurn_cases (h : engineTurn s = .next t) :
    (s.status.busy = true ∧ ∃ i, decode s.cmd = .ok i ∧ exec i s = .next t) ∨
    (s.status.busy = true ∧ (∃ e, decode s.cmd = .error e) ∧ t = s.raise .illegalCommand 0) ∨
    (s.status.busy = false ∧ t = s) := by
  unfold engineTurn at h
  cases hb : s.status.busy with
  | false =>
    rw [hb, if_neg Bool.false_ne_true] at h
    exact .inr (.inr ⟨rfl, (Outcome.next.inj h).symm⟩)
  | true =>
    rw [hb, if_pos rfl] at h
    cases hd : decode s.cmd with
    | ok i => exact .inl ⟨rfl, i, rfl, by rwa [hd] at h⟩
    | error e =>
      rw [hd] at h
      exact .inr (.inl ⟨rfl, ⟨e, rfl⟩, (Outcome.next.inj h).symm⟩)

/-- The host protocol lets an access through while no command runs, and a read of `STATUS` always (R101). -/
theorem hostAccess_regWrite {num : BitVec 6} {v : Datum} (hb : s.status.busy = false) :
    hostAccess (.regWrite num v) s = .next (s.writeNumber num v) := by
  rw [hostAccess.eq_def, hb, Bool.false_and, if_neg Bool.false_ne_true]

theorem hostAccess_regRead {num : BitVec 6} (h : s.status.busy = true → num = Reg.status.number) :
    hostAccess (.regRead num) s = .next (s.note (s.readNumber num)) := by
  rw [hostAccess.eq_def, if_neg]
  cases hb : s.status.busy with
  | false => simp
  | true => simp [isStatusRead, h hb]

theorem hostAccess_busy (hb : s.status.busy = true) (ha : isStatusRead a = false) :
    hostAccess a s = .fault (.hostBusy a) := by
  rw [hostAccess.eq_def, hb, ha, Bool.not_false, Bool.and_self, if_pos rfl]

/-- A host access that meets no fault writes a register, reads one, or writes or reads a buffer element in range; only a
read of `STATUS` does while a command runs. -/
theorem hostAccess_cases (h : hostAccess a s = .next t) :
    (∃ num v, a = .regWrite num v ∧ s.status.busy = false ∧ t = s.writeNumber num v) ∨
    (∃ num, a = .regRead num ∧ (s.status.busy = true → num = Reg.status.number) ∧ t = s.note (s.readNumber num)) ∨
    (∃ sp i v, a = .bufWrite sp i v ∧ s.status.busy = false ∧ i < capacity s.params sp ∧ t = s.storeElement sp i v) ∨
    (∃ sp i, a = .bufRead sp i ∧ s.status.busy = false ∧ i < capacity s.params sp ∧
      t = s.note (s.elementAt sp i)) := by
  have hallowed : s.status.busy = true → isStatusRead a = true := fun hb => by
    cases ha : isStatusRead a with
    | true => rfl
    | false => rw [hostAccess_busy hb ha] at h; cases h
  have hidle : isStatusRead a = false → s.status.busy = false := fun ha => by
    cases hb : s.status.busy with
    | false => rfl
    | true => rw [hallowed hb] at ha; cases ha
  rw [hostAccess.eq_def, if_neg (by simpa using hallowed)] at h
  cases a with
  | regWrite num v => exact .inl ⟨num, v, rfl, hidle (by simp [isStatusRead]), (Outcome.next.inj h).symm⟩
  | regRead num =>
    exact .inr (.inl ⟨num, rfl, fun hb => by simpa [isStatusRead] using hallowed hb, (Outcome.next.inj h).symm⟩)
  | bufWrite sp i v =>
    dsimp only at h
    split_ifs at h with hi
    exact .inr (.inr (.inl ⟨sp, i, v, rfl, hidle (by simp [isStatusRead]), hi, (Outcome.next.inj h).symm⟩))
  | bufRead sp i =>
    dsimp only at h
    split_ifs at h with hi
    exact .inr (.inr (.inr ⟨sp, i, rfl, hidle (by simp [isStatusRead]), hi, (Outcome.next.inj h).symm⟩))

end

/-! ### Reads and writes of registers -/

section
variable (s : State) (r : Reg) (num : BitVec 6) (v : Datum)

theorem State.readNumber_number : s.readNumber r.number = s.readReg r := by
  rw [State.readNumber, Reg.ofNumber_number]

theorem State.writeNumber_number : s.writeNumber r.number v = s.writeReg r v := by
  rw [State.writeNumber, Reg.ofNumber_number]

theorem State.readNumber_reserved {num : BitVec 6} (h : Reg.ofNumber num = none) : s.readNumber num = 0 := by
  rw [State.readNumber, h]

theorem State.writeNumber_reserved {num : BitVec 6} (h : Reg.ofNumber num = none) : s.writeNumber num v = s := by
  rw [State.writeNumber, h]

/-- No register reads the events to come. -/
theorem State.readNumber_setScript (script : List Event) :
    ({ s with script := script } : State).readNumber num = s.readNumber num := by
  rcases Reg.ofNumber_cases num with hn | ⟨r, rfl⟩
  · rw [State.readNumber_reserved _ hn, State.readNumber_reserved _ hn]
  · rw [State.readNumber_number, State.readNumber_number]
    cases r <;> rfl

/-- A read-only register ignores a write (R16). -/
theorem State.writeReg_readOnly (h : r.number.toNat ∉ 0x00 :: Reg.dataNumbers) : s.writeReg r v = s := by
  cases r
  case cmd | setN | setLb | setUb | setMap | count | blen | sv | sc => exact absurd (by decide) h
  all_goals rfl

/-- A reserved number ignores a write too. -/
theorem State.writeNumber_ignored (h : num.toNat ∉ 0x00 :: Reg.dataNumbers) : s.writeNumber num v = s := by
  rcases Reg.ofNumber_cases num with hn | ⟨r, rfl⟩
  · exact s.writeNumber_reserved v hn
  · rw [State.writeNumber_number, s.writeReg_readOnly r v h]

/-- What no write of a register changes, whichever it is. -/
theorem State.writeReg_frame :
    (s.writeReg r v).status = { s.status with busy := (s.writeReg r v).status.busy } ∧
    (s.writeReg r v).errIdx = s.errIdx ∧ (s.writeReg r v).cfg = s.cfg ∧ (s.writeReg r v).curByte = s.curByte ∧
    (s.writeReg r v).curBit = s.curBit ∧ (s.writeReg r v).params = s.params ∧ (s.writeReg r v).script = s.script ∧
    (s.writeReg r v).reads = s.reads ∧ ∀ sp i, (s.writeReg r v).elementAt sp i = s.elementAt sp i := by
  cases r <;> exact ⟨rfl, rfl, rfl, rfl, rfl, rfl, rfl, rfl, fun sp i => by cases sp <;> rfl⟩

/-- Read after write for every pair of registers, the written one being a register of the host other than `CMD`. -/
theorem State.readReg_writeReg (other : Reg) (h : r.number.toNat ∈ Reg.dataNumbers) :
    (s.writeReg r v).readReg other = if other = r then r.fromLines s.params.fmt v else s.readReg other := by
  cases r
  case setN | setLb | setUb | setMap | count | blen | sv | sc => cases other <;> rfl
  all_goals exact absurd h (by decide)

/-- The same by number, a reserved number included. -/
theorem State.readNumber_writeReg (h : r.number.toNat ∈ Reg.dataNumbers) :
    (s.writeReg r v).readNumber num =
      if num = r.number then r.fromLines s.params.fmt v else s.readNumber num := by
  rcases Reg.ofNumber_cases num with hn | ⟨other, rfl⟩
  · have hne : num ≠ r.number := by
      rintro rfl
      rw [Reg.ofNumber_number] at hn
      cases hn
    rw [if_neg hne, State.readNumber_reserved _ hn, State.readNumber_reserved _ hn]
  · rw [State.readNumber_number, State.readNumber_number, s.readReg_writeReg r v other h]
    simp only [Reg.number_injective.eq_iff]

end

theorem step_regWrite {s : State} {num : BitVec 6} {v : Datum} {rest : List Event} (hb : s.status.busy = false)
    (h : s.script = .access (.regWrite num v) :: rest) :
    step s = .next (({ s with script := rest } : State).writeNumber num v) :=
  (step_access h).trans (hostAccess_regWrite hb)

theorem step_regRead {s : State} {num : BitVec 6} {rest : List Event} (hb : s.status.busy = false)
    (h : s.script = .access (.regRead num) :: rest) :
    step s = .next { s with script := rest, reads := s.readNumber num :: s.reads } := by
  rw [step_access h, ← State.readNumber_setScript s num rest]
  exact hostAccess_regRead fun hbusy => absurd (hb.symm.trans hbusy) Bool.false_ne_true

/-! ### What a command can do -/

/-- What the commands do, one constructor per kind of completion (R57, R86, R87); `completion_of_exec` ties it to
`exec`. -/
inductive Completion (s : State) : Instr → State → Prop where
  /-- a failing command that changes `STATUS` and `ERRIDX` only -/
  | failed (i : Instr) (e : ErrCode) : Completion s i (s.raise e 0)
  /-- PACK or ENCODE stopped at element `j`, the bytes it would have written unspecified -/
  | stopped (i : Instr) (e : ErrCode) (j : Nat) (hi : i ∈ [Instr.pack, .encode])
      (he : e = .codeRange ∨ e = .invalidInput) (hv : s.status.cfgValid = true)
      (hc : s.count.toNat ≤ s.params.maxCount) (hj : j < s.count.toNat) :
      Completion s i ((s.drawBytes (ceilDiv (s.count.toNat * s.cfg.n.toNat) 8)).raise e j)
  | configured (hc : cfgCheck s.params.fmt s.setN.toNat s.setLb s.setUb s.setMap.toNat = true) :
      Completion s .cfg ({ s with
        cfg := cfgDerive s.params.fmt s.setN s.setLb s.setUb s.setMap
        status := s.status.configured } : State).complete
  | quantized (r : Nat) : Completion s .qenc ({ s with sc := BitVec.ofNat 32 r } : State).complete
  | dequantized : Completion s .qdec ({ s with sv := dequantize s.params.fmt s.cfg s.sc.toNat } : State).complete
  | packed (i : Instr) (bs : List Byte) (hi : i ∈ [Instr.pack, .encode]) (hv : s.status.cfgValid = true)
      (hc : s.count.toNat ≤ s.params.maxCount) (hb : bs.length = ceilDiv (s.count.toNat * s.cfg.n.toNat) 8) :
      Completion s i ({ s with
        bbuf := Memory.storeAll (w := 8) s.bbuf 0 bs
        blen := BitVec.ofNat 32 (ceilDiv (s.count.toNat * s.cfg.n.toNat) 8)
        curByte := BitVec.ofNat 32 (s.count.toNat * s.cfg.n.toNat / 8)
        curBit := BitVec.ofNat 32 (s.count.toNat * s.cfg.n.toNat % 8) } : State).complete
  /-- UNPACK or UNPACKI of `k` codes; UNPACK leaves `COUNT` -/
  | unpacked (i : Instr) (k : Nat) (count : Word) (hi : i ∈ [Instr.unpack, .unpacki])
      (hv : s.status.cfgValid = true) (hk : k ≤ s.params.maxCount) :
      Completion s i
        ({ (s.storeCodes (s.unpackCodes k).1).setCursor (s.unpackCodes k).2 with count := count } : State).complete
  /-- DECODE or DECODEI of `k` codes; DECODE leaves `COUNT` -/
  | decoded (i : Instr) (k : Nat) (count : Word) (hi : i ∈ [Instr.decode, .decodei])
      (hv : s.status.cfgValid = true) (hk : k ≤ s.params.maxCount) :
      Completion s i
        ({ (s.storeValues (s.unpackCodes k).1).setCursor (s.unpackCodes k).2 with count := count } : State).complete

theorem completion_packStream (s : State) {i : Instr} (code : Nat → Option Nat) {e : ErrCode}
    (hi : i ∈ [Instr.pack, .encode]) (he : e = .codeRange ∨ e = .invalidInput) :
    Completion s i (s.packStream code e) := by
  rcases s.packStream_cases code e with ⟨_, h⟩ | ⟨_, _, h⟩ | ⟨hv, hc, j, hj, _, _, h⟩ | ⟨hv, hc, _, bs, _, _, hb, _, h⟩
  · rw [h]; exact .failed i _
  · rw [h]; exact .failed i _
  · rw [h]; exact .stopped i e j hi he hv hc hj
  · rw [h]; exact .packed i bs hi hv hc hb

theorem completion_of_exec {i : Instr} {s t : State} (h : exec i s = .next t) : Completion s i t := by
  cases i
  case cfg =>
    rcases execCfg_cases s with ⟨hc, he⟩ | ⟨_, he⟩
    all_goals obtain rfl := Outcome.next.inj (he.symm.trans h)
    · exact .configured hc
    · exact .failed _ _
  case qenc =>
    rcases execQenc_cases s with ⟨_, he⟩ | ⟨_, _, he⟩ | ⟨_, r, _, he⟩
    all_goals obtain rfl := Outcome.next.inj (he.symm.trans h)
    · exact .failed _ _
    · exact .failed _ _
    · exact .quantized r
  case qdec =>
    rcases execQdec_cases s with ⟨_, he⟩ | ⟨_, _, he⟩ | ⟨_, _, he⟩
    all_goals obtain rfl := Outcome.next.inj (he.symm.trans h)
    · exact .failed _ _
    · exact .failed _ _
    · exact .dequantized
  case pack =>
    obtain rfl := Outcome.next.inj h
    exact completion_packStream s _ (by decide) (.inl rfl)
  case encode =>
    obtain rfl := Outcome.next.inj h
    exact completion_packStream s _ (by decide) (.inr rfl)
  case unpack =>
    rcases execUnpack_cases s with ⟨e, _, he, _⟩ | ⟨hn, he, _⟩
    all_goals obtain rfl := Outcome.next.inj (he.symm.trans h)
    · exact .failed _ e
    · obtain ⟨hv, hk, _⟩ := s.unpackError_eq_none.mp hn
      exact .unpacked _ _ s.count (by decide) hv hk
  case decode =>
    rcases execUnpack_cases s with ⟨e, _, _, he⟩ | ⟨hn, _, he⟩
    all_goals obtain rfl := Outcome.next.inj (he.symm.trans h)
    · exact .failed _ e
    · obtain ⟨hv, hk, _⟩ := s.unpackError_eq_none.mp hn
      exact .decoded _ _ s.count (by decide) hv hk
  case unpacki =>
    rcases execUnpacki_cases s with ⟨e, _, he, _⟩ | ⟨hn, _, _, rfl, rfl, he, _⟩
    all_goals obtain rfl := Outcome.next.inj (he.symm.trans h)
    · exact .failed _ e
    · obtain ⟨hv, _, _, hk⟩ := s.inferError_eq_none.mp hn
      exact .unpacked _ _ _ (by decide) hv hk
  case decodei =>
    rcases execUnpacki_cases s with ⟨e, _, _, he⟩ | ⟨hn, _, _, rfl, rfl, _, he⟩
    all_goals obtain rfl := Outcome.next.inj (he.symm.trans h)
    · exact .failed _ e
    · obtain ⟨hv, _, _, hk⟩ := s.inferError_eq_none.mp hn
      exact .decoded _ _ _ (by decide) hv hk

/-! ### The sizes of a stream command are inside the buffers -/

theorem cfgCheck_width {f : Fmt} {n : Nat} {lb ub : Datum} {map : Nat} (h : cfgCheck f n lb ub map = true) :
    8 ≤ n ∧ n ≤ 32 := by
  unfold cfgCheck at h
  split at h
  · cases h
  · omega

theorem CodecConfig.width_of_wf {f : Fmt} {c : CodecConfig} (h : c.wf f = true) : 8 ≤ c.n.toNat ∧ c.n.toNat ≤ 32 :=
  cfgCheck_width (Bool.and_eq_true_iff.mp h).1

theorem CodecConfig.wf_cfgDerive {f : Fmt} {n : Word} {lb ub : Datum} {map : Word}
    (h : cfgCheck f n.toNat lb ub map.toNat = true) : (cfgDerive f n lb ub map).wf f = true :=
  Bool.and_eq_true_iff.mpr ⟨h, beq_self_eq_true _⟩

/-- The bytes of at most `MAX_COUNT` codes of at most 32 bits are inside `BBUF` (R9). -/
theorem codeBytes_le {p : Params} {k n : Nat} (hk : k ≤ p.maxCount) (hn : n ≤ 32) :
    k * n / 8 ≤ maxBytes p ∧ ceilDiv (k * n) 8 ≤ maxBytes p := by
  have hbits : k * n ≤ p.maxCount * 32 := Nat.mul_le_mul hk hn
  unfold ceilDiv maxBytes
  omega

theorem toNat_ofNat_le {w : Nat} (x : Nat) : (BitVec.ofNat w x).toNat ≤ x := by
  rw [BitVec.toNat_ofNat]
  exact Nat.mod_le _ _

/-! ### Every operation keeps the invariant -/

/-- Reset gives a state that meets the invariant, whatever the draw, the events and the reads. -/
theorem State.Inv.ofReset {p : Params} (hp : p.wf = true) {epoch draws : Nat} (hd : epoch < draws)
    (script : List Event) (reads : List Datum) :
    ({ State.resetOf p with epoch := epoch, draws := draws, script := script, reads := reads } : State).Inv where
  params := hp
  vbuf := ⟨rfl, rfl⟩
  cbuf := ⟨rfl, rfl⟩
  bbuf := ⟨rfl, rfl⟩
  data := have hz := Fp.fits_zero p.fmt; ⟨hz, hz, hz, hz, hz, hz, rfl⟩
  outcome := ⟨⟨(nomatch ·), (absurd rfl ·)⟩, Nat.zero_le _⟩
  errIdx := ⟨(of_decide_eq_true hp).1, fun h => absurd rfl h⟩
  cursor := ⟨Nat.succ_pos 7, Nat.zero_le _⟩
  valid := fun h => by cases h
  invalid := fun _ => rfl
  draws := hd

section
variable {s : State} (h : s.Inv)
include h

theorem State.Inv.maxCount_pos : 0 < s.params.maxCount := (of_decide_eq_true h.params).1

theorem State.Inv.width_le (hv : s.status.cfgValid = true) : s.cfg.n.toNat ≤ 32 :=
  (CodecConfig.width_of_wf (h.valid hv)).2

theorem State.Inv.setScript (script : List Event) : ({ s with script := script } : State).Inv := { h with }

theorem State.Inv.note (v : Datum) : (s.note v).Inv := { h with }

theorem State.Inv.setCount (count : Word) : ({ s with count := count } : State).Inv := { h with }

theorem State.Inv.assertReset : s.assertReset.Inv := .ofReset h.params (Nat.lt_succ_self _) _ _

theorem State.Inv.complete : s.complete.Inv :=
  { h with
    outcome := ⟨by simp, by simp⟩
    errIdx := ⟨h.maxCount_pos, fun hne => absurd rfl hne⟩ }

/-- A completion with an error, the index being that of an element where the error is one of an element (R20). -/
theorem State.Inv.raise (e : ErrCode) (j : Nat) (hj : j < s.params.maxCount)
    (he : j = 0 ∨ e = .codeRange ∨ e = .invalidInput) : (s.raise e j).Inv :=
  { h with
    outcome := ⟨by simpa using e.code_ne_zero, e.code_le⟩
    errIdx := by
      refine ⟨(toNat_ofNat_le j).trans_lt hj, fun hne => ?_⟩
      rcases he with rfl | rfl | rfl
      · exact absurd rfl hne
      · exact .inr rfl
      · exact .inl rfl }

theorem State.Inv.storeBytes (bs : List Byte) (hb : bs.length ≤ maxBytes s.params) :
    ({ s with bbuf := Memory.storeAll (w := 8) s.bbuf 0 bs } : State).Inv :=
  { h with
    bbuf := ⟨Memory.wf_storeAll bs _ _ h.bbuf.1,
      Memory.within_storeAll _ bs _ _ (by simpa [capacity] using hb) h.bbuf.2⟩ }

theorem State.Inv.drawBytes (len : Nat) (hl : len ≤ maxBytes s.params) : (s.drawBytes len).Inv :=
  { h.storeBytes _ (by simpa using hl) with draws := h.draws.trans (Nat.lt_succ_self _) }

theorem State.Inv.storeCodes (cs : List Nat) (hc : cs.length ≤ s.params.maxCount) : (s.storeCodes cs).Inv :=
  { h with
    cbuf := ⟨Memory.wf_storeAll _ _ _ h.cbuf.1,
      Memory.within_storeAll _ _ _ _ (by simpa [capacity] using hc) h.cbuf.2⟩ }

/-- A decoded value is a bound, which fits, or a sum, which the operation makes fit. -/
theorem State.Inv.fits_dequantize (code : Nat) : Fp.fits s.params.fmt (dequantize s.params.fmt s.cfg code) = true := by
  obtain ⟨_, _, hlb, hub, _⟩ := h.data
  unfold dequantize
  split_ifs
  · exact hlb
  · exact hub
  · exact Fp.fits_sum _ _ _ _
  · exact Fp.fits_sum _ _ _ _

theorem State.Inv.storeValues (cs : List Nat) (hc : cs.length ≤ s.params.maxCount) : (s.storeValues cs).Inv := by
  obtain ⟨hsetLb, hsetUb, hlb, hub, hstep, hsv, hvals⟩ := h.data
  have hnew : (s.storeValues cs).vbuf.all (fun c => Fp.fits s.params.fmt c.2) = true :=
    Memory.all_storeAll _ _ _ _ (fun k hk => by simpa using h.fits_dequantize _) hvals
  exact { h with
    vbuf := ⟨Memory.wf_storeAll _ _ _ h.vbuf.1,
      Memory.within_storeAll _ _ _ _ (by simpa [capacity] using hc) h.vbuf.2⟩
    data := ⟨hsetLb, hsetUb, hlb, hub, hstep, hsv, hnew⟩ }

theorem State.Inv.setCursor (c : Cursor) (ho : c.off < 8) (hb : c.byte ≤ maxBytes s.params) : (s.setCursor c).Inv :=
  { h with cursor := ⟨(toNat_ofNat_le _).trans_lt ho, (toNat_ofNat_le _).trans hb⟩ }

theorem State.Inv.setSv (v : Datum) (hv : Fp.fits s.params.fmt v = true) : ({ s with sv := v } : State).Inv := by
  obtain ⟨hsetLb, hsetUb, hlb, hub, hstep, _, hvals⟩ := h.data
  exact { h with data := ⟨hsetLb, hsetUb, hlb, hub, hstep, hv, hvals⟩ }

theorem State.Inv.configure
    (hc : cfgCheck s.params.fmt s.setN.toNat s.setLb s.setUb s.setMap.toNat = true) :
    ({ s with
      cfg := cfgDerive s.params.fmt s.setN s.setLb s.setUb s.setMap
      status := s.status.configured } : State).Inv := by
  obtain ⟨hsetLb, hsetUb, _, _, _, hsv, hvals⟩ := h.data
  exact { h with
    data := ⟨hsetLb, hsetUb, hsetLb, hsetUb, Fp.fits_div _ _ _, hsv, hvals⟩
    valid := fun _ => CodecConfig.wf_cfgDerive hc
    invalid := fun hv => by cases hv }

/-- The number of codes and the cursor that `unpackCodes` gives suit the buffers. -/
theorem State.Inv.unpackCodes_bounds {k : Nat} (hv : s.status.cfgValid = true) (hk : k ≤ s.params.maxCount) :
    (s.unpackCodes k).1.length ≤ s.params.maxCount ∧ (s.unpackCodes k).2.off < 8 ∧
      (s.unpackCodes k).2.byte ≤ maxBytes s.params := by
  rw [State.unpackCodes_eq]
  exact ⟨by simpa using hk, Nat.mod_lt _ (by decide), (codeBytes_le hk (h.width_le hv)).1⟩

/-- Every command keeps the invariant. -/
theorem State.Inv.of_completion {i : Instr} {t : State} (ht : Completion s i t) : t.Inv := by
  cases ht with
  | failed _ e => exact h.raise e 0 h.maxCount_pos (.inl rfl)
  | stopped _ e j hi he hv hc hj =>
    have hlen := (codeBytes_le hc (h.width_le hv)).2
    exact (h.drawBytes _ hlen).raise e j (hj.trans_le hc) (.inr he)
  | configured hc => exact (h.configure hc).complete
  | quantized r => exact { h.complete with }
  | dequantized => exact (h.setSv _ (h.fits_dequantize _)).complete
  | packed _ bs hi hv hc hb =>
    obtain ⟨hbyte, hlen⟩ := codeBytes_le hc (h.width_le hv)
    have hcursor := (h.storeBytes bs (hb ▸ hlen)).setCursor
      { byte := s.count.toNat * s.cfg.n.toNat / 8, off := s.count.toNat * s.cfg.n.toNat % 8 }
      (Nat.mod_lt _ (by decide)) hbyte
    exact { hcursor.complete with }
  | unpacked _ k count hi hv hk =>
    obtain ⟨hlen, hoff, hbyte⟩ := h.unpackCodes_bounds hv hk
    exact (((h.storeCodes _ hlen).setCursor _ hoff hbyte).setCount count).complete
  | decoded _ k count hi hv hk =>
    obtain ⟨hlen, hoff, hbyte⟩ := h.unpackCodes_bounds hv hk
    exact (((h.storeValues _ hlen).setCursor _ hoff hbyte).setCount count).complete

theorem State.Inv.engineTurn {t : State} (ht : engineTurn s = .next t) : t.Inv := by
  rcases engineTurn_cases ht with ⟨_, i, _, he⟩ | ⟨_, _, rfl⟩ | ⟨_, rfl⟩
  · exact h.of_completion (completion_of_exec he)
  · exact h.raise .illegalCommand 0 h.maxCount_pos (.inl rfl)
  · exact h

/-- A write of a register keeps the invariant: a datum is cut to its `W` bits. -/
theorem State.Inv.writeReg (r : Reg) (v : Datum) : (s.writeReg r v).Inv := by
  obtain ⟨hsetLb, hsetUb, hlb, hub, hstep, hsv, hvals⟩ := h.data
  have hfits := Fp.fits_trunc s.params.fmt v
  cases r
  case setLb => exact { h with data := ⟨hfits, hsetUb, hlb, hub, hstep, hsv, hvals⟩ }
  case setUb => exact { h with data := ⟨hsetLb, hfits, hlb, hub, hstep, hsv, hvals⟩ }
  case sv => exact h.setSv _ hfits
  all_goals exact { h with }

theorem State.Inv.writeNumber (num : BitVec 6) (v : Datum) : (s.writeNumber num v).Inv := by
  unfold State.writeNumber
  split
  · exact h.writeReg _ v
  · exact h

theorem State.Inv.storeElement (sp : Space) (i : Nat) (v : Datum) (hi : i < capacity s.params sp) :
    (s.storeElement sp i v).Inv := by
  obtain ⟨hsetLb, hsetUb, hlb, hub, hstep, hsv, hvals⟩ := h.data
  cases sp with
  | vbuf =>
    exact { h with
      vbuf := ⟨Memory.wf_store _ _ _ h.vbuf.1, Memory.within_store _ _ _ _ hi h.vbuf.2⟩
      data := ⟨hsetLb, hsetUb, hlb, hub, hstep, hsv, Memory.all_store _ _ _ _ (Fp.fits_trunc _ _) hvals⟩ }
  | cbuf => exact { h with cbuf := ⟨Memory.wf_store _ _ _ h.cbuf.1, Memory.within_store _ _ _ _ hi h.cbuf.2⟩ }
  | bbuf => exact { h with bbuf := ⟨Memory.wf_store _ _ _ h.bbuf.1, Memory.within_store _ _ _ _ hi h.bbuf.2⟩ }

theorem State.Inv.hostAccess {a : Access} {t : State} (ht : hostAccess a s = .next t) : t.Inv := by
  rcases hostAccess_cases ht with ⟨num, v, _, _, rfl⟩ | ⟨num, _, _, rfl⟩ | ⟨sp, i, v, _, _, hi, rfl⟩ |
    ⟨sp, i, _, _, _, rfl⟩
  · exact h.writeNumber num v
  · exact h.note _
  · exact h.storeElement sp i v hi
  · exact h.note _

end

/-- Settles O19: the engine's turn, a host access and reset each keep the invariant. -/
theorem stepKeepsInvariant : Obligations.StepKeepsInvariant := by
  intro s t h hstep
  rcases step_cases hstep with ⟨rest, _, he⟩ | ⟨a, rest, _, ha⟩ | ⟨rest, _, rfl⟩
  · exact (h.setScript rest).engineTurn he
  · exact (h.setScript rest).hostAccess ha
  · exact (h.setScript rest).assertReset

/-- Settles O18: both states are `State.Inv.ofReset` with draw 0 past and draw 1 next. -/
theorem resetMeetsInvariant : Obligations.ResetMeetsInvariant :=
  ⟨fun _ hp => .ofReset hp Nat.one_pos [] [], .ofReset (p := Params.standard) (by decide) Nat.one_pos [] []⟩

/-! ### Frames of the steps -/

/-- A host access changes no outcome, no configuration and no cursor, and leaves the part and the events. -/
theorem hostAccess_frame {a : Access} {s t : State} (h : hostAccess a s = .next t) :
    t.status = { s.status with busy := t.status.busy } ∧ t.errIdx = s.errIdx ∧ t.cfg = s.cfg ∧
    t.curByte = s.curByte ∧ t.curBit = s.curBit ∧ t.params = s.params ∧ t.script = s.script := by
  rcases hostAccess_cases h with ⟨num, v, _, _, rfl⟩ | ⟨num, _, _, rfl⟩ | ⟨sp, i, v, _, _, _, rfl⟩ |
    ⟨sp, i, _, _, _, rfl⟩
  · unfold State.writeNumber
    split
    · next r _ =>
      obtain ⟨hst, hidx, hcfg, hbyte, hbit, hpar, hscr, _⟩ := s.writeReg_frame r v
      exact ⟨hst, hidx, hcfg, hbyte, hbit, hpar, hscr⟩
    · exact ⟨rfl, rfl, rfl, rfl, rfl, rfl, rfl⟩
  · exact ⟨rfl, rfl, rfl, rfl, rfl, rfl, rfl⟩
  · cases sp <;> exact ⟨rfl, rfl, rfl, rfl, rfl, rfl, rfl⟩
  · exact ⟨rfl, rfl, rfl, rfl, rfl, rfl, rfl⟩

/-- Settles O15: the step is the access itself, whose frame is `hostAccess_frame`. -/
theorem hostLeavesOutcomeAndConfiguration : Obligations.HostLeavesOutcomeAndConfiguration := by
  intro s t a rest hs hstep
  rw [step_access hs] at hstep
  exact hostAccess_frame hstep

/-- A command that changes the active configuration or `CFG_VALID` is a CFG whose staging registers pass the check. -/
theorem Completion.configuration {s t : State} {i : Instr} (h : Completion s i t) :
    (t.cfg = s.cfg ∧ t.status.cfgValid = s.status.cfgValid) ∨
    (i = .cfg ∧ cfgCheck s.params.fmt s.setN.toNat s.setLb s.setUb s.setMap.toNat = true ∧
      t.status.cfgValid = true) := by
  cases h with
  | configured hc => exact .inr ⟨rfl, hc, rfl⟩
  | _ => exact .inl ⟨rfl, rfl⟩

/-- Settles O23: of the steps that are no reset, a host access leaves the configuration (`hostAccess_frame`), and so
does the engine but for a CFG. -/
theorem onlyCfgAndResetChangeConfiguration : Obligations.OnlyCfgAndResetChangeConfiguration := by
  intro s t hstep hchange
  have hkept : ¬(t.cfg = s.cfg ∧ t.status.cfgValid = s.status.cfgValid) := by tauto
  rcases step_cases hstep with ⟨rest, _, he⟩ | ⟨a, rest, _, ha⟩ | ⟨rest, hs, _⟩
  · rcases engineTurn_cases he with ⟨hb, i, hd, hexec⟩ | ⟨_, _, rfl⟩ | ⟨_, rfl⟩
    · rcases (completion_of_exec hexec).configuration with hsame | ⟨rfl, hc, hv⟩
      · exact absurd hsame hkept
      · exact .inr ⟨hb, hd, hc, hv⟩
    · exact absurd ⟨rfl, rfl⟩ hkept
    · exact absurd ⟨rfl, rfl⟩ hkept
  · obtain ⟨hst, _, hcfg, _⟩ := hostAccess_frame ha
    exact absurd ⟨hcfg, by rw [hst]⟩ hkept
  · exact .inl ⟨rest, hs⟩

/-! ### Writes and reads of registers -/

/-- Settles O8: the write is `writeReg` of the register that the number names, and `readNumber_writeReg` reads it. -/
theorem registerWriteReadsBack : Obligations.RegisterWriteReadsBack := by
  intro s num v word datum rest hb hs hword hdatum
  have hw : v.setWidth 32 = word.setWidth 32 := by
    apply BitVec.eq_of_toNat_eq
    rw [BitVec.toNat_setWidth, BitVec.toNat_setWidth, hword, Nat.mod_mod]
  have hword64 : (v.setWidth 32).setWidth 64 = word := by
    apply BitVec.eq_of_toNat_eq
    rw [BitVec.toNat_setWidth, BitVec.toNat_setWidth, ← hword, Nat.mod_eq_of_lt word.isLt]
  have hd : Fp.trunc s.params.fmt v = datum := BitVec.eq_of_toNat_eq (by rw [Fp.trunc_toNat, hdatum])
  rw [step_regWrite hb hs, ← hw, ← hd, ← hword64]
  refine ⟨?_, ?_, ?_, ?_, ?_, ?_, ?_, ?_, fun hmem => ?_⟩
  -- at each of the eight numbers `writeNumber` is the update of that field
  iterate 8 (rintro rfl; rfl)
  obtain ⟨r, rfl⟩ := Reg.exists_number_of_mem hmem
  obtain ⟨_, _, _, _, _, hparams, hscript, hreads, helem⟩ := State.writeReg_frame { s with script := rest } r v
  have hread := fun n => State.readNumber_writeReg { s with script := rest } r n v hmem
  rw [State.writeNumber_number]
  refine ⟨_, rfl, hscript, hparams, hreads, ?_, fun other hne => ?_, helem⟩
  · rw [hread, if_pos rfl]
    rfl
  · rw [hread, if_neg hne, State.readNumber_setScript]

/-- Settles O6: `CMD` is register number 0, and only a read of `STATUS` passes while a command runs. -/
theorem cmdWriteStartsCommand : Obligations.CmdWriteStartsCommand := by
  intro s v rest
  refine ⟨step_regWrite, step_regRead, fun hb hs => ?_⟩
  rw [step_access hs]
  exact hostAccess_busy hb (by simp [isStatusRead, Reg.number])

/-- Settles O7: the numbers of the map by evaluation, the reserved ones and the ignored writes by `ofNumber_cases`. -/
theorem registerReadsAndIgnoredWrites : Obligations.RegisterReadsAndIgnoredWrites := by
  intro s
  refine ⟨⟨rfl, rfl, rfl, rfl, rfl⟩, ⟨rfl, rfl, rfl, rfl⟩, ⟨rfl, rfl, rfl, rfl, rfl, rfl, rfl⟩,
    ⟨rfl, rfl, rfl, rfl, rfl, rfl⟩, fun num v rest => ⟨fun hnum => ?_, step_regRead, fun hb hs hnum => ?_⟩⟩
  · exact State.readNumber_reserved s ((Reg.ofNumber_eq_none_iff num).mpr hnum)
  · rw [step_regWrite hb hs, State.writeNumber_ignored _ _ _ hnum]

/-- Settles O9: `NMIN` and `NMAX` are read as registers of the map. -/
theorem widthLimitsAreConstant : Obligations.WidthLimitsAreConstant := fun s =>
  ⟨s.readNumber_number .nMin, s.readNumber_number .nMax⟩

/-- Settles O16: a reserved number reads as 0 in every state, and a number of the map as its register. -/
theorem resetRegisterValues : Obligations.ResetRegisterValues := by
  refine fun p num => ⟨?_, rfl⟩
  rcases Reg.ofNumber_cases num with hn | ⟨r, rfl⟩
  · have hnMin : num ≠ 0x03 := by rintro rfl; cases hn
    have hnMax : num ≠ 0x04 := by rintro rfl; cases hn
    rw [State.readNumber_reserved _ hn, if_neg hnMin, if_neg hnMax]
  · have hstatus : (State.resetOf p).status.toWord = 0 := by
      change Status.toWord ⟨false, false, false, 0⟩ = 0
      decide
    rw [State.readNumber_number]
    cases r
    case status => exact congrArg (BitVec.setWidth 64) hstatus
    all_goals rfl

/-! ### The word of STATUS -/

/-- Bit by bit, the word that `STATUS` reads as (R19). -/
theorem Status.getLsbD_toWord (st : Status) (k : Nat) :
    st.toWord.getLsbD k =
      if k = 0 then st.busy else if k = 1 then st.cfgValid else if k = 2 then st.err
      else if k < 8 then false else if k < 16 then st.ecode.getLsbD (k - 8) else false := by
  unfold Status.toWord
  simp only [BitVec.getLsbD_append, BitVec.getLsbD_ofBool]
  rcases k with _ | _ | _ | k
  · simp
  · simp
  · simp
  · simpa using Bool.and_left_comm _ _ _

/-- Settles O10: `STATUS` reads as the word of `getLsbD_toWord`, zero-extended. -/
theorem statusWordFields : Obligations.StatusWordFields := by
  intro s
  have hbit : ∀ k, (s.readNumber 0x01).getLsbD k = (decide (k < 64) && s.status.toWord.getLsbD k) := fun k => by
    change (s.status.toWord.setWidth 64).getLsbD k = _
    rw [BitVec.getLsbD_setWidth]
  simp only [hbit, Status.getLsbD_toWord]
  refine ⟨by simp, by simp, by simp, fun k h3 h7 => ?_, fun k h8 => ?_, fun k h16 => ?_⟩
  · have hne : k ≠ 0 ∧ k ≠ 1 ∧ k ≠ 2 ∧ k < 8 := by omega
    simp [hne]
  · have hne : 8 + k ≠ 1 ∧ 8 + k ≠ 2 ∧ ¬8 + k < 8 ∧ 8 + k < 16 ∧ 8 + k < 64 ∧ 8 + k - 8 = k := by omega
    simp [hne]
  · have hne : k ≠ 0 ∧ k ≠ 1 ∧ k ≠ 2 ∧ ¬k < 8 ∧ ¬k < 16 := by omega
    simp [hne]

/-! ### The engine's turn -/

theorem decode_encode (i : Instr) : decode (encode i) = .ok i := by cases i <;> rfl

theorem State.withFetchWord_encode {s : State} (i : Instr) (hs : s.script = []) :
    s.withFetchWord 32 (encode i).toNat =
      { s with cmd := encode i, status := { s.status with busy := true } } := by
  simp [State.withFetchWord, Status.started, hs, engineFirst, Nat.mod_eq_of_lt (encode i).isLt]

/-- Settles O4: the turn is the engine's, and `decode_encode` reads the placed word. -/
theorem stepRunsDecodedCommand : Obligations.StepRunsDecodedCommand := by
  refine ⟨fun s i hb hd => ⟨fun hs => ?_, fun rest hs => ?_⟩, fun s => ⟨step_nil, fun rest => step_engine⟩,
    fun s i hs => ?_⟩
  · rw [step_nil hs, engineTurn_of_decode hb hd]
  · rw [step_engine hs]
    exact engineTurn_of_decode hb hd
  · have hplaced := State.withFetchWord_encode i hs
    have hscript : (s.withFetchWord 32 (encode i).toNat).script = [] := by rw [hplaced, hs]
    have hdecode : decode (s.withFetchWord 32 (encode i).toNat).cmd = .ok i := by rw [hplaced, decode_encode]
    rw [step_nil hscript, engineTurn_of_decode rfl hdecode, hplaced]

end Sys2Proof.Machine

/-! The buffers on the host port and the layout of the packed stream (20_memory). A write of an element is read back
through `State.elementAt_storeElement`; the stream and its bytes are read off bit by bit with `serialize_spec`. -/

namespace Sys2Proof

/-- The bits of an element of a space (R35). -/
def Space.width (f : Fmt) : Space → Nat
  | .vbuf => f.width
  | .cbuf => 32
  | .bbuf => 8

/-- The value that an element of a space takes from the data lines (log entry 10). -/
def Space.fromLines (f : Fmt) (sp : Space) (v : Datum) : Datum := BitVec.ofNat 64 (v.toNat % 2 ^ sp.width f)

theorem Space.toNat_fromLines (f : Fmt) (sp : Space) (v : Datum) :
    (sp.fromLines f v).toNat = v.toNat % 2 ^ sp.width f := by
  rw [fromLines, BitVec.toNat_ofNat, Nat.mod_eq_of_lt ((Nat.mod_le _ _).trans_lt v.isLt)]

end Sys2Proof

namespace Sys2Proof.Machine

/-! ### Writes and reads of buffer elements -/

section
variable (s : State) (sp : Space) (i : Nat) (v : Datum)

@[simp] theorem State.storeElement_params : (s.storeElement sp i v).params = s.params := by cases sp <;> rfl
@[simp] theorem State.storeElement_status : (s.storeElement sp i v).status = s.status := by cases sp <;> rfl

/-- A write of an element changes the buffers only. -/
theorem State.storeElement_frame :
    s.storeElement sp i v = { s with
      vbuf := (s.storeElement sp i v).vbuf
      cbuf := (s.storeElement sp i v).cbuf
      bbuf := (s.storeElement sp i v).bbuf } := by
  cases sp <;> rfl

theorem State.storeElement_setScript (script : List Event) :
    ({ s with script := script } : State).storeElement sp i v = { s.storeElement sp i v with script := script } := by
  cases sp <;> rfl

/-- No buffer element depends on the events to come. -/
theorem State.elementAt_setScript (script : List Event) :
    ({ s with script := script } : State).elementAt sp i = s.elementAt sp i := by
  cases sp <;> rfl

theorem State.valueAt_storeElement (j : Nat) : (s.storeElement .vbuf i v).valueAt j =
    if j = i then Fp.trunc s.params.fmt v else s.valueAt j := by
  simp only [State.valueAt, State.storeElement, Memory.lookup_store]
  split <;> rfl

theorem State.codeAt_storeElement (j : Nat) : (s.storeElement .cbuf i v).codeAt j =
    if j = i then v.setWidth 32 else s.codeAt j := by
  simp only [State.codeAt, State.storeElement, Memory.lookup_store]
  split <;> rfl

theorem State.byteAt_storeElement (j : Nat) : (s.storeElement .bbuf i v).byteAt j =
    if j = i then v.setWidth 8 else s.byteAt j := by
  simp only [State.byteAt, State.storeElement, Memory.lookup_store]
  split <;> rfl

/-- Cut to `w` bits and zero-extended to the data lines. -/
theorem setWidth_setWidth_eq_ofNat (w : Nat) :
    (v.setWidth w).setWidth 64 = BitVec.ofNat 64 (v.toNat % 2 ^ w) :=
  BitVec.eq_of_toNat_eq (by rw [BitVec.toNat_setWidth, BitVec.toNat_setWidth, BitVec.toNat_ofNat])

/-- Read after write for every pair of elements of the same space. -/
theorem State.elementAt_storeElement_same_space (j : Nat) : (s.storeElement sp i v).elementAt sp j =
    if j = i then sp.fromLines s.params.fmt v else s.elementAt sp j := by
  cases sp
  case vbuf => exact s.valueAt_storeElement i v j
  case cbuf =>
    rw [State.elementAt, State.codeAt_storeElement, apply_ite (BitVec.setWidth 64), setWidth_setWidth_eq_ofNat]
    rfl
  case bbuf =>
    rw [State.elementAt, State.byteAt_storeElement, apply_ite (BitVec.setWidth 64), setWidth_setWidth_eq_ofNat]
    rfl

theorem State.elementAt_storeElement_other_space {sp' : Space} (hne : sp' ≠ sp) (j : Nat) :
    (s.storeElement sp i v).elementAt sp' j = s.elementAt sp' j := by
  cases sp <;> cases sp'
  case vbuf.vbuf | cbuf.cbuf | bbuf.bbuf => exact absurd rfl hne
  all_goals rfl

/-- Read after write for every pair of elements. -/
theorem State.elementAt_storeElement (sp' : Space) (j : Nat) : (s.storeElement sp i v).elementAt sp' j =
    if sp' = sp ∧ j = i then sp.fromLines s.params.fmt v else s.elementAt sp' j := by
  by_cases hsp : sp' = sp
  · subst hsp
    simpa using s.elementAt_storeElement_same_space sp' i v j
  · rw [if_neg fun h => hsp h.1, s.elementAt_storeElement_other_space sp i v hsp]

end

section
variable {s : State} {sp : Space} {i : Nat} {v : Datum} {rest : List Event}

theorem hostAccess_bufWrite (hb : s.status.busy = false) (hi : i < capacity s.params sp) :
    hostAccess (.bufWrite sp i v) s = .next (s.storeElement sp i v) := by
  rw [hostAccess.eq_def, hb, Bool.false_and, if_neg Bool.false_ne_true]
  exact if_pos hi

theorem hostAccess_bufRead (hb : s.status.busy = false) (hi : i < capacity s.params sp) :
    hostAccess (.bufRead sp i) s = .next (s.note (s.elementAt sp i)) := by
  rw [hostAccess.eq_def, hb, Bool.false_and, if_neg Bool.false_ne_true]
  exact if_pos hi

theorem step_bufWrite (hb : s.status.busy = false) (hi : i < capacity s.params sp)
    (h : s.script = .access (.bufWrite sp i v) :: rest) :
    step s = .next { s.storeElement sp i v with script := rest } := by
  rw [step_access h, ← s.storeElement_setScript sp i v rest]
  exact hostAccess_bufWrite hb hi

theorem step_bufRead (hb : s.status.busy = false) (hi : i < capacity s.params sp)
    (h : s.script = .access (.bufRead sp i) :: rest) :
    step s = .next { s with script := rest, reads := s.elementAt sp i :: s.reads } := by
  rw [step_access h, ← s.elementAt_setScript sp i rest]
  exact hostAccess_bufRead hb hi

/-- A run goes on from the state its first step answers. -/
theorem run_succ_of_step {M : Host.Core} {s t : M.State} (k : Nat) (h : M.step s = .next t) :
    M.run (k + 1) s = M.run k t := by
  rw [Host.Core.run, h]

/-- A write of an element followed by a read of an element (R36), both in range. -/
theorem run_bufWrite_bufRead {sp' : Space} {j : Nat} (hb : s.status.busy = false) (hi : i < capacity s.params sp)
    (hj : j < capacity s.params sp')
    (h : s.script = .access (.bufWrite sp i v) :: .access (.bufRead sp' j) :: rest) :
    Host.Core.run Sys2Proof.core 2 s = .next { s with
      vbuf := (s.storeElement sp i v).vbuf
      cbuf := (s.storeElement sp i v).cbuf
      bbuf := (s.storeElement sp i v).bbuf
      script := rest
      reads := (s.storeElement sp i v).elementAt sp' j :: s.reads } := by
  have hread := step_bufRead
    (s := { s.storeElement sp i v with script := .access (.bufRead sp' j) :: rest }) (by simpa using hb)
    (by simpa using hj) rfl
  rw [State.elementAt_setScript] at hread
  refine ((run_succ_of_step (M := Sys2Proof.core) 1 (step_bufWrite hb hi h)).trans
    (run_succ_of_step 0 hread)).trans ?_
  rw [s.storeElement_frame sp i v]
  rfl

end

/-- Settles O12: the run is `run_bufWrite_bufRead`, and `elementAt_storeElement` says what it reads. -/
theorem bufferReadAfterWrite : Obligations.BufferReadAfterWrite := by
  intro s sp sp' i j v rest hb hi hj hs
  refine ⟨_, (s.storeElement sp i v).elementAt sp' j, run_bufWrite_bufRead hb hi hj hs, rfl, fun hsame => ?_,
    fun hother => ?_⟩
  · rw [State.elementAt_storeElement, if_pos hsame, Space.toNat_fromLines]
    cases sp <;> rfl
  · rw [State.elementAt_storeElement, if_neg hother]

/-! ### The layout of the packed stream -/

/-- The bytes of `ceil_div` hold all the bits (R11, R40). -/
theorem le_mul_ceilDiv (k : Nat) : k ≤ 8 * ceilDiv k 8 := by
  unfold ceilDiv
  omega

theorem mul_add_lt_of_lt {i k r n : Nat} (hi : i < k) (hr : r < n) : i * n + r < k * n :=
  calc i * n + r < i * n + n := Nat.add_lt_add_left hr _
    _ = (i + 1) * n := (Nat.succ_mul i n).symm
    _ ≤ k * n := Nat.mul_le_mul_right n hi

/-- Bit `r` of the `n` stream bits of code `i`, the most-significant bit of the code first (R39). -/
theorem listBit_serialize_code (cs : List Nat) {n i r : Nat} (hi : i < cs.length) (hr : r < n) :
    listBit (serialize cs n) (i * n + r) = (cs.getD i 0).testBit (n - 1 - r) := by
  have hlt : i * n + r < cs.length * n := mul_add_lt_of_lt hi hr
  have hdiv : (i * n + r) / n = i := by
    rw [Nat.mul_comm, Nat.mul_add_div (Nat.zero_lt_of_lt hr), Nat.div_eq_of_lt hr, Nat.add_zero]
  have hmod : (i * n + r) % n = r := by rw [Nat.mul_comm, Nat.mul_add_mod, Nat.mod_eq_of_lt hr]
  rw [(serialize_spec cs n).2 _ (hlt.trans_le (le_mul_ceilDiv _)), decide_eq_true hlt, hdiv, hmod, Bool.true_and]

/-- The stream bits past the last code are padding (R40). -/
theorem listBit_serialize_padding (cs : List Nat) {n k : Nat} (hk : cs.length * n ≤ k)
    (hlen : k < 8 * ceilDiv (cs.length * n) 8) : listBit (serialize cs n) k = false := by
  rw [(serialize_spec cs n).2 k hlen, decide_eq_false (Nat.not_lt.mpr hk), Bool.false_and]

/-- Settles O42: the stream of the serialized bytes is `listBit`, and bit `p` of a code is its stream bit `n-1-p`. -/
theorem serializedStreamLayout : Obligations.SerializedStreamLayout := by
  refine fun cs n => ⟨(serialize_spec cs n).1, fun i p hi hp => ?_, fun k => listBit_serialize_padding cs⟩
  have hbit : n - 1 - (n - 1 - p) = p := by omega
  have hcode := listBit_serialize_code cs hi (show n - 1 - p < n by omega)
  rwa [hbit] at hcode

/-- Bit `b` of byte `k` in the stream (R38). -/
theorem testBit_getD_eq_listBit (bs : List Byte) (k : Nat) {b : Nat} (hb : b < 8) :
    (bs.getD k 0).toNat.testBit b = listBit bs (8 * k + (7 - b)) := by
  have hdiv : (8 * k + (7 - b)) / 8 = k := by omega
  have hmod : 7 - (8 * k + (7 - b)) % 8 = b := by omega
  rw [listBit, streamBitOf, hdiv, hmod, BitVec.testBit_toNat]

/-- Settles O43: bit `b` of byte `j` of a code is the code's stream bit `8j + (7-b)`, its bit `8m-8-8j+b`. -/
theorem alignedCodesAreBigEndian : Obligations.AlignedCodesAreBigEndian := by
  intro cs m i j _ hi hj
  apply Nat.eq_of_testBit_eq
  intro b
  rw [show 256 = 2 ^ 8 from rfl, Nat.testBit_mod_two_pow, Nat.testBit_shiftRight]
  by_cases hb : b < 8
  · have hpos : 8 * (i * m + j) + (7 - b) = i * (8 * m) + (8 * j + (7 - b)) := by ring
    have hbit : 8 * m - 1 - (8 * j + (7 - b)) = 8 * m - 8 - 8 * j + b := by omega
    rw [testBit_getD_eq_listBit _ _ hb, hpos, listBit_serialize_code cs hi (by omega), hbit, decide_eq_true hb,
      Bool.true_and]
  · rw [decide_eq_false hb, Bool.false_and, BitVec.testBit_toNat, BitVec.getLsbD_of_ge _ _ (Nat.not_lt.mp hb)]

end Sys2Proof.Machine

/-! Command words, the frame of every command, and `RUN` (30_encoding). A word decodes exactly when its fields, read as
numbers, pass the three checks, and only nine words do. The frame is read off `Completion`; `RUN` is a write of `CMD`,
polls of `STATUS`, and the engine's turn. -/

namespace Sys2Proof

/-! ### The fields of a command word -/

theorem fieldsOf_op_toNat (w : Word) : (fieldsOf w).op.toNat = w.toNat % 256 :=
  BitVec.extractLsb'_toNat 0 8 w

theorem fieldsOf_infer_iff (w : Word) : (fieldsOf w).infer = true ↔ w.toNat / 256 % 2 = 1 := by
  rw [fieldsOf, BitVec.getLsbD, Nat.testBit_eq_decide_div_mod_eq, decide_eq_true_iff]

theorem fieldsOf_rsv_toNat (w : Word) : (fieldsOf w).rsv.toNat = w.toNat / 512 := by
  rw [fieldsOf, BitVec.extractLsb'_toNat, Nat.shiftRight_eq_div_pow]
  omega

/-- The three checks of R52 and R55 in one line. -/
theorem CmdFields.wf_iff (c : CmdFields) : c.wf = true ↔
    c.rsv = 0 ∧ (c.infer = true → c.op = 0x05 ∨ c.op = 0x07) ∧ 1 ≤ c.op.toNat ∧ c.op.toNat ≤ 7 := by
  cases hi : c.infer <;> simp [CmdFields.wf, CmdFields.rsvOk, CmdFields.inferOk, CmdFields.opOk, and_assoc, hi]

theorem CmdFields.wf_fieldsOf_iff (w : Word) : (fieldsOf w).wf = true ↔
    w.toNat / 512 = 0 ∧ (w.toNat / 256 % 2 = 1 → w.toNat % 256 = 5 ∨ w.toNat % 256 = 7) ∧
    1 ≤ w.toNat % 256 ∧ w.toNat % 256 ≤ 7 := by
  rw [CmdFields.wf_iff, fieldsOf_infer_iff, ← BitVec.toNat_inj, ← BitVec.toNat_inj, ← BitVec.toNat_inj,
    fieldsOf_rsv_toNat, fieldsOf_op_toNat]
  rfl

/-! ### Decoding -/

/-- A word that decodes passes the three checks. -/
theorem wf_fieldsOf_of_decode {w : Word} {i : Instr} (h : decode w = .ok i) : (fieldsOf w).wf = true := by
  rw [CmdFields.wf_iff]
  unfold decode at h
  generalize fieldsOf w = c at h ⊢
  dsimp only at h
  split at h
  · cases h
  next hrsv =>
  split at h
  · cases h
  next hinfer =>
  refine ⟨not_not.mp hrsv, by tauto, ?_⟩
  split at h
  case h_8 => cases h
  all_goals omega

/-- The nine legal words (R54). -/
theorem exists_eq_encode_of_wf {w : Word} (h : (fieldsOf w).wf = true) : ∃ i, w = encode i := by
  obtain ⟨hrsv, hinfer, hlo, hhi⟩ := (CmdFields.wf_fieldsOf_iff w).mp h
  have hlegal : w.toNat = 1 ∨ w.toNat = 2 ∨ w.toNat = 3 ∨ w.toNat = 4 ∨ w.toNat = 5 ∨ w.toNat = 0x105 ∨
    w.toNat = 6 ∨ w.toNat = 7 ∨ w.toNat = 0x107 := by omega
  rcases hlegal with h | h | h | h | h | h | h | h | h
  · exact ⟨.cfg, BitVec.eq_of_toNat_eq h⟩
  · exact ⟨.qenc, BitVec.eq_of_toNat_eq h⟩
  · exact ⟨.qdec, BitVec.eq_of_toNat_eq h⟩
  · exact ⟨.pack, BitVec.eq_of_toNat_eq h⟩
  · exact ⟨.unpack, BitVec.eq_of_toNat_eq h⟩
  · exact ⟨.unpacki, BitVec.eq_of_toNat_eq h⟩
  · exact ⟨.encode, BitVec.eq_of_toNat_eq h⟩
  · exact ⟨.decode, BitVec.eq_of_toNat_eq h⟩
  · exact ⟨.decodei, BitVec.eq_of_toNat_eq h⟩

theorem decode_eq_ok_iff {w : Word} {i : Instr} : decode w = .ok i ↔ w = encode i := by
  refine ⟨fun h => ?_, fun h => h ▸ Machine.decode_encode i⟩
  obtain ⟨j, rfl⟩ := exists_eq_encode_of_wf (wf_fieldsOf_of_decode h)
  rw [Except.ok.inj ((Machine.decode_encode j).symm.trans h)]

theorem decode_isError_iff (w : Word) : (∃ e, decode w = .error e) ↔ ¬(fieldsOf w).wf = true := by
  constructor
  · rintro ⟨e, he⟩ hwf
    obtain ⟨i, rfl⟩ := exists_eq_encode_of_wf hwf
    cases (Machine.decode_encode i).symm.trans he
  · intro hwf
    cases hd : decode w with
    | ok i => exact absurd (wf_fieldsOf_of_decode hd) hwf
    | error e => exact ⟨e, rfl⟩

/-- The illegal words as numbers (R56). -/
theorem decode_isError_iff_toNat (w : Word) : (∃ e, decode w = .error e) ↔
    (w.toNat % 256 = 0 ∨ 8 ≤ w.toNat % 256 ∨
      (w.toNat / 256 % 2 = 1 ∧ w.toNat % 256 ≠ 5 ∧ w.toNat % 256 ≠ 7) ∨ w.toNat / 512 ≠ 0) := by
  rw [decode_isError_iff, CmdFields.wf_fieldsOf_iff]
  omega

/-- Settles O1: the legal words are those that `encode` gives, and 0x106 has the infer flag with `OP` = 0x06. -/
theorem tableWordsDecode : Obligations.TableWordsDecode :=
  ⟨Machine.decode_encode .cfg, Machine.decode_encode .qenc, Machine.decode_encode .pack,
    Machine.decode_encode .unpack, Machine.decode_encode .unpacki, rfl, Machine.decode_encode .decodei⟩

/-- Settles O2: a word that decodes passes the checks, and only nine words do (`exists_eq_encode_of_wf`). -/
theorem decodeEncodeInverse : Obligations.DecodeEncodeInverse :=
  ⟨fun i _ => Machine.decode_encode i, fun _ _ => decode_eq_ok_iff.mp⟩

end Sys2Proof

namespace Sys2Proof.Machine

open Host (Outcome)

theorem engineTurn_of_illegal {s : State} {e : Illegal} (hb : s.status.busy = true) (hd : decode s.cmd = .error e) :
    engineTurn s = .next (s.raise .illegalCommand 0) := by
  rw [engineTurn, if_pos hb, hd]

/-- Settles O3: the illegal words are those that fail a check, read as numbers; such a word is raised as an error. -/
theorem illegalWordsCompleteWithError : Obligations.IllegalWordsCompleteWithError := by
  refine ⟨decode_isError_iff_toNat, fun s hb hw => ?_⟩
  obtain ⟨e, he⟩ := (decode_isError_iff_toNat s.cmd).mpr hw
  exact engineTurn_of_illegal hb he

/-! ### The frame of every command -/

section
variable {s t : State} {i : Instr}

/-- What no command changes (R22, R23, R24). -/
theorem Completion.frame (h : Completion s i t) :
    t.params = s.params ∧ t.cmd = s.cmd ∧ t.setN = s.setN ∧ t.setLb = s.setLb ∧ t.setUb = s.setUb ∧
    t.setMap = s.setMap ∧ t.epoch = s.epoch ∧ t.script = s.script ∧ t.reads = s.reads := by
  cases h <;> exact ⟨rfl, rfl, rfl, rfl, rfl, rfl, rfl, rfl, rfl⟩

/-- A command ends idle (R86). -/
theorem Completion.status_busy (h : Completion s i t) : t.status.busy = false := by cases h <;> rfl

theorem Completion.sc_eq (h : Completion s i t) (hi : i ≠ .qenc) : t.sc = s.sc := by
  cases h with
  | quantized _ => exact absurd rfl hi
  | _ => rfl

theorem Completion.sv_eq (h : Completion s i t) (hi : i ≠ .qdec) : t.sv = s.sv := by
  cases h with
  | dequantized => exact absurd rfl hi
  | _ => rfl

theorem Completion.bytes_eq (h : Completion s i t) (hi : i ∉ [Instr.pack, .encode]) :
    (∀ k, t.byteAt k = s.byteAt k) ∧ t.blen = s.blen ∧ t.draws = s.draws := by
  cases h with
  | stopped _ _ _ hmem => exact absurd hmem hi
  | packed _ _ hmem => exact absurd hmem hi
  | _ => exact ⟨fun _ => rfl, rfl, rfl⟩

theorem Completion.codeAt_eq (h : Completion s i t) (hi : i ∉ [Instr.unpack, .unpacki]) (k : Nat) :
    t.codeAt k = s.codeAt k := by
  cases h with
  | unpacked _ _ _ hmem => exact absurd hmem hi
  | _ => rfl

theorem Completion.valueAt_eq (h : Completion s i t) (hi : i ∉ [Instr.decode, .decodei]) (k : Nat) :
    t.valueAt k = s.valueAt k := by
  cases h with
  | decoded _ _ _ hmem => exact absurd hmem hi
  | _ => rfl

/-- Only a stream command moves the cursor (R29). -/
theorem Completion.cursor_eq (h : Completion s i t)
    (hi : i ∉ [Instr.pack, .encode] ++ [.unpack, .unpacki] ++ [.decode, .decodei]) :
    t.curByte = s.curByte ∧ t.curBit = s.curBit := by
  simp only [List.mem_append, not_or] at hi
  obtain ⟨⟨hpack, hunpack⟩, hdecode⟩ := hi
  cases h with
  | packed _ _ hmem => exact absurd hmem hpack
  | unpacked _ _ _ hmem => exact absurd hmem hunpack
  | decoded _ _ _ hmem => exact absurd hmem hdecode
  | _ => exact ⟨rfl, rfl⟩

/-- A command that reads no packed codes leaves `COUNT`; UNPACK and DECODE do too, by `exec_count_eq`. -/
theorem Completion.count_eq (h : Completion s i t) (hi : i ∉ [Instr.unpack, .unpacki] ++ [.decode, .decodei]) :
    t.count = s.count := by
  simp only [List.mem_append, not_or] at hi
  obtain ⟨hunpack, hdecode⟩ := hi
  cases h with
  | unpacked _ _ _ hmem => exact absurd hmem hunpack
  | decoded _ _ _ hmem => exact absurd hmem hdecode
  | _ => rfl

/-- Only the commands that infer their count write `COUNT` (R27, R57). -/
theorem exec_count_eq (h : exec i s = .next t) (hi : i ∉ [Instr.unpacki, .decodei]) : t.count = s.count := by
  cases i
  case unpack =>
    rcases execUnpack_cases s with ⟨e, _, he, _⟩ | ⟨_, he, _⟩
    all_goals obtain rfl := Outcome.next.inj (he.symm.trans h); rfl
  case decode =>
    rcases execUnpack_cases s with ⟨e, _, _, he⟩ | ⟨_, _, he⟩
    all_goals obtain rfl := Outcome.next.inj (he.symm.trans h); rfl
  case unpacki | decodei => exact absurd (by decide) hi
  all_goals exact (completion_of_exec h).count_eq (by decide)

end

/-- Settles O21: each clause is the frame lemma of that part of the state. -/
theorem commandFootprints : Obligations.CommandFootprints := by
  intro i s t h
  have hc := completion_of_exec h
  obtain ⟨hparams, hcmd, hsetN, hsetLb, hsetUb, hsetMap, hepoch, hscript, hreads⟩ := hc.frame
  have hscalar : ∀ j ∈ [Instr.cfg, .qenc, .qdec],
      j ∉ [Instr.pack, .encode] ++ [.unpack, .unpacki] ++ [.decode, .decodei] := by decide
  exact ⟨hparams, hcmd, hsetN, hsetLb, hsetUb, hsetMap, hepoch, hscript, hreads,
    fun hi => hc.configuration.resolve_right fun hcfg => hi hcfg.1, hc.sc_eq, hc.sv_eq, hc.bytes_eq, hc.codeAt_eq,
    hc.valueAt_eq, exec_count_eq h, fun hi => hc.cursor_eq (hscalar i hi)⟩

/-! ### RUN -/

/-- Bit 0 is what a host program polls for (R19, R60). -/
theorem Status.getLsbD_toWord_zero (st : Status) : st.toWord.getLsbD 0 = st.busy := by
  rw [Status.getLsbD_toWord, if_pos rfl]

section
variable {s : State} {rest : List Event}

/-- The host may read `STATUS` at any time, a command running or not (R101). -/
theorem step_rd_status (h : s.script = rd .status :: rest) :
    step s = .next { s with script := rest, reads := s.status.toWord.setWidth 64 :: s.reads } := by
  rw [step_access h]
  exact hostAccess_regRead fun _ => rfl

/-- The write of a command's word (R18, R59). -/
theorem step_cmdOf {i : Instr} (hb : s.status.busy = false) (h : s.script = cmdOf i :: rest) :
    step s = .next { s with cmd := encode i, status := { s.status with busy := true }, script := rest } := by
  have hword : ((encode i).setWidth 64).setWidth 32 = encode i := by simp
  rw [← hword]
  exact step_regWrite hb h

/-- Polls of `STATUS` record its word and change nothing else. -/
theorem run_polls (k polls : Nat) : ∀ s : State, s.script = List.replicate polls (rd .status) ++ rest →
    Host.Core.run Sys2Proof.core (k + polls) s = Host.Core.run Sys2Proof.core k { s with
      script := rest
      reads := List.replicate polls (s.status.toWord.setWidth 64) ++ s.reads } := by
  induction polls with
  | zero =>
    intro s h
    obtain rfl : s.script = rest := h
    rfl
  | succ polls ih =>
    intro s h
    refine (run_succ_of_step (M := Sys2Proof.core) (k + polls) (step_rd_status h)).trans ((ih _ rfl).trans ?_)
    simp only [List.replicate_succ', List.append_assoc, List.singleton_append]

/-- The engine's turn runs the command, and the next read of `STATUS` finds it complete. -/
theorem run_engine_rd_status {i : Instr} {u : State} (hb : s.status.busy = true) (hd : decode s.cmd = .ok i)
    (h : s.script = .engine :: rd .status :: rest) (hu : exec i { s with script := rd .status :: rest } = .next u) :
    Host.Core.run Sys2Proof.core 2 s =
      .next { u with script := rest, reads := u.status.toWord.setWidth 64 :: u.reads } := by
  have hengine : step s = .next u := by
    rw [step_engine h]
    exact (engineTurn_of_decode (s := { s with script := rd .status :: rest }) hb hd).trans hu
  obtain ⟨_, _, _, _, _, _, _, hscript, _⟩ := (completion_of_exec hu).frame
  exact (run_succ_of_step (M := Sys2Proof.core) 1 hengine).trans
    (run_succ_of_step (M := Sys2Proof.core) 0 (step_rd_status hscript))

end

/-- Settles O14: the write of `CMD`, the polls, the engine's turn, and a read of `STATUS` that finds the command
complete. -/
theorem runWaitsForCompletion : Obligations.RunWaitsForCompletion := by
  intro s i polls rest hb hs
  obtain ⟨u, hu⟩ := exec_isNext i { s with
    cmd := encode i
    status := { s.status with busy := true }
    script := rd .status :: rest
    reads := List.replicate polls (({ s.status with busy := true } : Status).toWord.setWidth 64) ++ s.reads }
  have hc := completion_of_exec hu
  obtain ⟨_, hcmd, _, _, _, _, _, _, hreads⟩ := hc.frame
  have hwrite := run_succ_of_step (M := Sys2Proof.core) (2 + polls) (step_cmdOf hb hs)
  have hpolls := hwrite.trans (run_polls (rest := .engine :: rd .status :: rest) 2 polls _ (List.append_assoc _ _ _))
  have hrun := hpolls.trans (run_engine_rd_status rfl (decode_encode i) rfl hu)
  rw [Nat.add_comm 2 polls] at hrun
  refine ⟨_, _, hrun, hc.status_busy, rfl, hcmd, rfl, by rw [hreads],
    (Status.getLsbD_toWord_zero _).trans hc.status_busy, Status.getLsbD_toWord_zero _, u, hu, rfl⟩

end Sys2Proof.Machine

/-! Configuration (40_configure). The checks of R61 are read in exact values by the rules of the comparisons; that the
step of a valid configuration is finite and positive rests on the difference of the bounds being so and on the division
by a power of two, which never leads to a higher place (`place_div_pow2_le`). -/

namespace Sys2Proof.Fp

/-! ### Zeros, signs and finite data -/

theorem mag_eq_zero_iff (f : Fmt) (a : Datum) : mag f a = 0 ↔ place f a = 0 := by
  rw [mag_eq]
  simpa only [magOf_zero] using (magOf_strictMono f).injective.eq_iff (a := place f a) (b := 0)

theorem isFinite_zero (f : Fmt) : isFinite f zero = true := by cases f <;> decide

theorem units_zero (f : Fmt) : units f zero = 0 := by cases f <;> decide

/-- Infinities and NaNs have a magnitude that is not 0, so equality with `+0.0` needs no finite datum. -/
theorem eq_zero_iff (f : Fmt) (a : Datum) : eq f a zero = true ↔ mag f a = 0 := by
  by_cases hfin : isFinite f a = true
  · obtain ⟨_, _, _, heq⟩ := (comparisonsCompareValues f a zero).1 hfin (isFinite_zero f)
    rw [heq, units_zero, decide_eq_true_eq, mag_eq_natAbs_units, Int.natAbs_eq_zero]
  · have hplace : place f a ≠ 0 := by
      have hpos : 0 < infMag f := by cases f <;> decide
      rw [isFinite_iff] at hfin
      omega
    have hord : ord f a ≠ 0 := by rw [ord_eq]; split <;> omega
    have hzero : ord f zero = 0 := by cases f <;> decide
    simp [eq, hzero, hord, mag_eq_zero_iff, hplace]

theorem isFinite_of_not_isInf {f : Fmt} {a : Datum} (hnan : isNan f a = false) (hinf : isInf f a = false) :
    isFinite f a = true := by
  rw [← Bool.not_eq_true, isNan_iff] at hnan
  rw [← Bool.not_eq_true, isInf_iff] at hinf
  rw [isFinite_iff]
  omega

theorem units_of_sign_eq_false {f : Fmt} {a : Datum} (h : sign f a = false) : units f a = mag f a := by
  simp [units, h]

theorem zero_lt_of_mag_ne_zero {f : Fmt} {a : Datum} (ha : isFinite f a = true) (hs : sign f a = false)
    (h0 : mag f a ≠ 0) : lt f zero a = true := by
  obtain ⟨hlt, _⟩ := (comparisonsCompareValues f zero a).1 (isFinite_zero f) ha
  rw [hlt, units_zero, units_of_sign_eq_false hs, decide_eq_true_eq]
  omega

/-- The difference of two data in order is never `-0.0`, even where it is `+0.0` or overflows. -/
theorem sign_sub_of_lt {f : Fmt} {a b : Datum} (ha : isFinite f a = true) (hb : isFinite f b = true)
    (h : units f b < units f a) : sign f (sub f a b) = false := by
  have hnb : isFinite f (neg f b) = true := by rw [isFinite_neg, hb]
  rw [sub, sum_eq_withSign .sub ha hnb, sign_withSign f _ _ (roundMag_lt f _ _), units_neg, if_neg (by omega)]
  exact decide_eq_false (by omega)

/-! ### Division by a power of two -/

/-- Rounding depends on the fraction, not on how it is written. -/
theorem roundMag_mul_right (f : Fmt) (num den c : Nat) (hd : 0 < den) (hc : 0 < c) :
    roundMag f (num * c) (den * c) = roundMag f num den := by
  have hcross : num * c * den = num * (den * c) := by ring
  have hdc : 0 < den * c := Nat.mul_pos hd hc
  exact Nat.le_antisymm (roundMag_mono f _ _ _ _ hdc hd hcross.le) (roundMag_mono f _ _ _ _ hd hdc hcross.ge)

theorem sign_pow2 (f : Fmt) (k : Nat) : sign f (pow2 f k) = false := sign_withSign f _ _ (roundMag_lt f _ _)

theorem mag_pow2 (f : Fmt) {k : Nat} (hk : k ≤ 32) : mag f (pow2 f k) = 2 ^ k * 2 ^ unitExp f := by
  rw [mag_eq_natAbs_units, naturalConversions.2.1 f k hk, Int.natAbs_natCast]

theorem magOf_infMag (f : Fmt) : magOf f (infMag f) = 2 ^ (fracBits f + 1) * 2 ^ (expMax f - 2) := by
  rw [infMag_eq, magOf_at f _ _ le_rfl fun _ => Nat.pow_le_pow_right (by decide) (Nat.le_succ _)]

theorem isFinite_pow2 (f : Fmt) {k : Nat} (hk : k ≤ 32) : isFinite f (pow2 f k) = true := by
  have hexp : 32 + unitExp f < fracBits f + 1 + (expMax f - 2) := by cases f <;> decide
  rw [isFinite_iff, ← (magOf_strictMono f).lt_iff_lt, ← mag_eq, mag_pow2 f hk, magOf_infMag, ← Nat.pow_add,
    ← Nat.pow_add]
  exact Nat.pow_lt_pow_right (by decide) (by omega)

/-- Division by `2 ^ k` keeps the sign and rounds the magnitude over `2 ^ k`. -/
theorem div_pow2_eq {f : Fmt} {a : Datum} (ha : isFinite f a = true) {k : Nat} (hk : k ≤ 32) :
    div f a (pow2 f k) = withSign f (sign f a) (roundMag f (mag f a) (2 ^ k)) := by
  have hunit : 0 < 2 ^ unitExp f := Nat.two_pow_pos _
  have hpow : 0 < 2 ^ k := Nat.two_pow_pos _
  have h0 : mag f (pow2 f k) ≠ 0 := by
    rw [mag_pow2 f hk]
    exact (Nat.mul_pos hpow hunit).ne'
  rw [div_eq_withSign ha (isFinite_pow2 f hk) h0, sign_pow2, Bool.bne_false, mag_pow2 f hk,
    roundMag_mul_right f _ _ _ hpow hunit]

theorem sign_div_pow2 {f : Fmt} {a : Datum} (ha : isFinite f a = true) {k : Nat} (hk : k ≤ 32) :
    sign f (div f a (pow2 f k)) = sign f a := by
  rw [div_pow2_eq ha hk, sign_withSign f _ _ (roundMag_lt f _ _)]

/-- The quotient is no larger than the dividend, which the format has, so it rounds to no higher place. -/
theorem place_div_pow2_le {f : Fmt} {a : Datum} (ha : isFinite f a = true) {k : Nat} (hk : k ≤ 32) :
    place f (div f a (pow2 f k)) ≤ place f a := by
  have hself : roundMag f (mag f a * 1) 1 = place f a := by
    rw [mag_eq]
    exact roundMag_exact f _ 1 Nat.one_pos ((isFinite_iff f a).mp ha).le
  rw [div_pow2_eq ha hk, place_withSign f _ _ (roundMag_lt f _ _), ← hself]
  refine roundMag_mono f _ _ _ _ (Nat.two_pow_pos k) Nat.one_pos ?_
  rw [Nat.mul_one]
  exact Nat.le_mul_of_pos_right _ (Nat.two_pow_pos k)

theorem isFinite_div_pow2 {f : Fmt} {a : Datum} (ha : isFinite f a = true) {k : Nat} (hk : k ≤ 32) :
    isFinite f (div f a (pow2 f k)) = true :=
  (isFinite_iff f _).mpr ((place_div_pow2_le ha hk).trans_lt ((isFinite_iff f a).mp ha))

end Sys2Proof.Fp

namespace Sys2Proof.Machine

/-! ### The check -/

/-- The conditions of R61 as the model tests them. -/
theorem cfgCheck_iff (f : Fmt) (n : Nat) (lb ub : Datum) (map : Nat) :
    cfgCheck f n lb ub map = true ↔
      (8 ≤ n ∧ n ≤ 32) ∧ Fp.lt f lb ub = true ∧ (map = 0 ∨ map = 1) ∧
        (Fp.isFinite f lb = true ∧ Fp.isFinite f ub = true) ∧ Fp.isInf f (Fp.sub f ub lb) = false ∧
        Fp.eq f (Fp.div f (Fp.sub f ub lb) (Fp.pow2 f n)) Fp.zero = false := by
  unfold cfgCheck
  split
  next hn => exact iff_of_false Bool.false_ne_true fun ⟨hn', _⟩ => by omega
  split
  next hlt => simp [hlt]
  split
  next hmap => exact iff_of_false Bool.false_ne_true fun ⟨_, _, hmap', _⟩ => by omega
  split
  next hfin => rcases hfin with h | h <;> simp [h]
  dsimp only
  split
  next hinf => simp [hinf]
  next hn hlt hmap hfin hinf =>
    have hbounds : Fp.isFinite f lb = true ∧ Fp.isFinite f ub = true := by simpa using hfin
    rw [Bool.not_eq_true', Bool.eq_true_of_not_eq_false hlt, Bool.eq_false_of_not_eq_true hinf]
    exact ⟨fun hstep => ⟨by omega, rfl, by omega, hbounds, rfl, hstep⟩, fun ⟨_, _, _, _, _, hstep⟩ => hstep⟩

/-- Settles O26: the bounds being finite, `fp_lt` compares their values, and the step equals `+0.0` exactly when its
magnitude is 0. -/
theorem cfgCheckConditions : Obligations.CfgCheckConditions := by
  intro f n lb ub map
  have hlt : Fp.isFinite f lb = true ∧ Fp.isFinite f ub = true →
      (Fp.lt f lb ub = true ↔ Fp.units f lb < Fp.units f ub) := fun ⟨hlb, hub⟩ => by
    rw [((Fp.comparisonsCompareValues f lb ub).1 hlb hub).1, decide_eq_true_eq]
  rw [cfgCheck_iff, ← Bool.not_eq_true (Fp.eq _ _ _), Fp.eq_zero_iff]
  constructor
  · rintro ⟨⟨h8, h32⟩, hord, hmap, hfin, hinf, hstep⟩
    exact ⟨h8, h32, hmap, hfin.1, hfin.2, (hlt hfin).mp hord, hinf, hstep⟩
  · rintro ⟨h8, h32, hmap, hlb, hub, hord, hinf, hstep⟩
    exact ⟨⟨h8, h32⟩, (hlt ⟨hlb, hub⟩).mpr hord, hmap, ⟨hlb, hub⟩, hinf, hstep⟩

/-! ### The derived configuration -/

theorem topCode_eq (n map : Nat) : topCode n map = if map = 0 then 2 ^ n - 1 else 2 ^ (n - 1) := by
  rw [topCode, Nat.one_shiftLeft]

theorem topCode_bounds {n : Nat} (map : Nat) (hn : 8 ≤ n) : 0 < topCode n map ∧ topCode n map < 2 ^ n := by
  have hhalf : 2 ^ (n - 1) * 2 = 2 ^ n := by rw [← Nat.pow_succ]; congr 1; omega
  have hpos : 0 < 2 ^ (n - 1) := Nat.two_pow_pos _
  rw [topCode_eq]
  split <;> omega

/-- The code of the largest index fits the register (R62). -/
theorem toNat_ofNat_topCode {n : Nat} (map : Nat) (h8 : 8 ≤ n) (h32 : n ≤ 32) :
    (BitVec.ofNat 32 (topCode n map)).toNat = topCode n map := by
  rw [BitVec.toNat_ofNat]
  exact Nat.mod_eq_of_lt ((topCode_bounds map h8).2.trans_le (Nat.pow_le_pow_right (by decide) h32))

theorem CodecConfig.wf_iff (f : Fmt) (c : CodecConfig) :
    c.wf f = true ↔ cfgCheck f c.n.toNat c.lb c.ub c.map.toNat = true ∧ c = cfgDerive f c.n c.lb c.ub c.map := by
  rw [CodecConfig.wf, Bool.and_eq_true, beq_iff_eq]

theorem CodecConfig.cub_toNat {f : Fmt} {c : CodecConfig} (h : c.wf f = true) :
    c.cub.toNat = topCode c.n.toNat c.map.toNat := by
  obtain ⟨h8, h32⟩ := CodecConfig.width_of_wf h
  obtain ⟨_, hderive⟩ := (CodecConfig.wf_iff f c).mp h
  exact (congrArg (fun d : CodecConfig => d.cub.toNat) hderive).trans (toNat_ofNat_topCode _ h8 h32)

/-- The difference that the check found not to be infinite is finite, as no difference of finite data is a NaN. -/
theorem isFinite_range_of_cfgCheck {f : Fmt} {n : Nat} {lb ub : Datum} {map : Nat}
    (h : cfgCheck f n lb ub map = true) : Fp.isFinite f (Fp.sub f ub lb) = true := by
  obtain ⟨_, _, _, hlb, hub, _, hinf, _⟩ := (cfgCheckConditions f n lb ub map).mp h
  exact Fp.isFinite_of_not_isInf (Fp.sumAndDifferenceCorrectlyRounded f ub lb hub hlb).2.1.notNan hinf

/-- The step of a configuration that passes the check (R62). -/
theorem derivedStep_finite_pos_of_cfgCheck {f : Fmt} {n : Nat} {lb ub : Datum} {map : Nat}
    (h : cfgCheck f n lb ub map = true) :
    Fp.isFinite f (Fp.div f (Fp.sub f ub lb) (Fp.pow2 f n)) = true ∧
      Fp.lt f Fp.zero (Fp.div f (Fp.sub f ub lb) (Fp.pow2 f n)) = true := by
  obtain ⟨_, h32, _, hlb, hub, hlt, _, hstep⟩ := (cfgCheckConditions f n lb ub map).mp h
  have hrange := isFinite_range_of_cfgCheck h
  have hsign : Fp.sign f (Fp.div f (Fp.sub f ub lb) (Fp.pow2 f n)) = false := by
    rw [Fp.sign_div_pow2 hrange h32, Fp.sign_sub_of_lt hub hlb hlt]
  have hfin := Fp.isFinite_div_pow2 hrange h32
  exact ⟨hfin, Fp.zero_lt_of_mag_ne_zero hfin hsign hstep⟩

/-- Settles O27: the bounds and the mapping by the check, the step and the code bounds by how they are derived. -/
theorem validConfigurationProperties : Obligations.ValidConfigurationProperties := by
  intro f c h
  obtain ⟨hcheck, hderive⟩ := (CodecConfig.wf_iff f c).mp h
  obtain ⟨⟨h8, h32⟩, hlt, hmap, ⟨hlb, hub⟩, _⟩ := (cfgCheck_iff _ _ _ _ _).mp hcheck
  obtain ⟨hfin, hpos⟩ := derivedStep_finite_pos_of_cfgCheck hcheck
  have hstep : c.step = Fp.div f (Fp.sub f c.ub c.lb) (Fp.pow2 f c.n.toNat) := congrArg CodecConfig.step hderive
  have hclb : c.clb = 0 := congrArg CodecConfig.clb hderive
  have hcub := CodecConfig.cub_toNat h
  obtain ⟨htop, hfits⟩ := topCode_bounds c.map.toNat h8
  have hmap0 : c.map = 0 ↔ c.map.toNat = 0 := BitVec.toNat_inj.symm
  have hmap1 : c.map = 1 ↔ c.map.toNat = 1 := BitVec.toNat_inj.symm
  rw [← hstep] at hfin hpos
  refine ⟨h8, h32, hlb, hub, hlt, hmap.imp hmap0.mpr hmap1.mpr, hfin, hpos, hclb, ?_, hcub ▸ hfits, fun hne => ?_⟩
  · simp only [hcub, topCode_eq, hmap0]
  · rw [← hcub, ← hne, hclb] at htop
    exact absurd htop (by decide)

/-! ### The command CFG -/

/-- Settles O25: each of the two things CFG does is the record update of its clause. -/
theorem cfgConstructsOrKeeps : Obligations.CfgConstructsOrKeeps := by
  intro s
  rw [show exec .cfg s = execCfg s from rfl, ← topCode_eq]
  rcases execCfg_cases s with ⟨hcheck, hexec⟩ | ⟨hcheck, hexec⟩
  · exact ⟨fun _ => hexec, fun hfail => absurd (hfail.symm.trans hcheck) Bool.false_ne_true⟩
  · exact ⟨fun hpass => absurd (hcheck.symm.trans hpass) Bool.false_ne_true, fun _ => hexec⟩

end Sys2Proof.Machine

/-! The scalar quantizer (41_quantizer). The Gray reflection and its inverse are compared bit by bit (`testBit_gray`,
`testBit_grayInv`). What QuantEncode and QuantDecode do is said once per case (`quantEncode_of_le`, `quantEncode_of_ge`,
`quantEncode_between`, `dequantize_inner`); that the quotient between the bounds is finite rests on a rounded step being
at least half of the exact one (`le_two_mul_magOf_roundMag`). -/

namespace Sys2Proof.Machine

/-! ### The Gray reflection, bit by bit -/

theorem lt_two_pow_of_le {i m n : Nat} (h : i < 2 ^ m) (hle : m ≤ n) : i < 2 ^ n :=
  h.trans_le (Nat.pow_le_pow_right (by decide) hle)

theorem testBit_gray (i j : Nat) : (gray i).testBit j = (i.testBit j ^^ i.testBit (j + 1)) := by
  rw [gray, Nat.testBit_xor, Nat.testBit_shiftRight, Nat.add_comm 1]

/-- The exclusive OR of the `m` bits of `i` from bit `j` on: bit `j` of the Gray inverse (R65). -/
def xorBits (i j m : Nat) : Bool := (List.range m).foldl (fun b k => b ^^ i.testBit (j + k)) false

theorem xorBits_zero (i j : Nat) : xorBits i j 0 = false := rfl

theorem xorBits_succ_last (i j m : Nat) : xorBits i j (m + 1) = (xorBits i j m ^^ i.testBit (j + m)) := by
  simp only [xorBits, List.range_succ, List.foldl_append, List.foldl_cons, List.foldl_nil]

theorem xorBits_succ_first (i j m : Nat) : xorBits i j (m + 1) = (i.testBit j ^^ xorBits i (j + 1) m) := by
  induction m with
  | zero => simp [xorBits_succ_last, xorBits_zero]
  | succ m ih => rw [xorBits_succ_last, ih, xorBits_succ_last i (j + 1), Bool.xor_assoc, Nat.add_assoc, Nat.add_comm 1]

theorem xorBits_shiftRight_one (i j m : Nat) : xorBits (i >>> 1) j m = xorBits i (j + 1) m := by
  simp only [xorBits, Nat.testBit_shiftRight, Nat.add_comm 1, Nat.add_right_comm _ _ 1]

theorem xorBits_of_zero (j m : Nat) : xorBits 0 j m = false := by
  induction m with
  | zero => rfl
  | succ m ih => rw [xorBits_succ_last, ih, Nat.zero_testBit, Bool.xor_false]

/-- Each bit of the reflection is the exclusive OR of two neighbours, so a run of them leaves the two ends. -/
theorem xorBits_gray (i j m : Nat) : xorBits (gray i) j m = (i.testBit j ^^ i.testBit (j + m)) := by
  induction m with
  | zero => simp [xorBits_zero]
  | succ m ih =>
    rw [xorBits_succ_last, ih, testBit_gray, Bool.xor_assoc, ← Bool.xor_assoc (i.testBit (j + m)), Bool.xor_self,
      Bool.false_xor, Nat.add_assoc]

/-- Bits past the top of `i` add nothing. -/
theorem xorBits_add {i j m : Nat} (h : i < 2 ^ (j + m)) (extra : Nat) : xorBits i j (m + extra) = xorBits i j m := by
  induction extra with
  | zero => rfl
  | succ extra ih =>
    have htop : i < 2 ^ (j + (m + extra)) := lt_two_pow_of_le h (by omega)
    rw [← Nat.add_assoc, xorBits_succ_last, ih, Nat.testBit_lt_two_pow htop, Bool.xor_false]

theorem xorBits_eq_of_lt {i j m m' : Nat} (h : i < 2 ^ (j + m)) (h' : i < 2 ^ (j + m')) :
    xorBits i j m = xorBits i j m' := by
  rcases Nat.le_total m m' with hle | hle <;> obtain ⟨extra, rfl⟩ := Nat.exists_eq_add_of_le hle
  · exact (xorBits_add h extra).symm
  · exact xorBits_add h' extra

theorem testBit_grayFold (fuel acc s j : Nat) :
    (grayFold fuel acc s).testBit j = (acc.testBit j ^^ xorBits s j fuel) := by
  induction fuel generalizing acc s with
  | zero => rw [grayFold, xorBits_zero, Bool.xor_false]
  | succ fuel ih =>
    rw [grayFold]
    split
    next h0 => rw [h0, xorBits_of_zero, Bool.xor_false]
    next => rw [ih, Nat.testBit_xor, xorBits_shiftRight_one, xorBits_succ_first, Bool.xor_assoc]

/-- Bit `j` of the Gray inverse is the exclusive OR of the bits from `j` on, as many as reach the top bit (R65). -/
theorem testBit_grayInv {c j m : Nat} (h : c < 2 ^ (j + m)) : (grayInv c).testBit j = xorBits c j m := by
  have hlog : c < 2 ^ (j + (c.log2 + 1 + 1)) := lt_two_pow_of_le Nat.lt_log2_self (by omega)
  rw [grayInv, testBit_grayFold, xorBits_shiftRight_one, ← xorBits_succ_first]
  exact xorBits_eq_of_lt hlog h

theorem gray_lt {i n : Nat} (h : i < 2 ^ n) : gray i < 2 ^ n :=
  Nat.xor_lt_two_pow h ((Nat.shiftRight_le i 1).trans_lt h)

theorem grayInv_lt {c n : Nat} (h : c < 2 ^ n) : grayInv c < 2 ^ n :=
  Nat.lt_pow_two_of_testBit _ fun j hj =>
    (testBit_grayInv (m := 0) (lt_two_pow_of_le h hj)).trans (xorBits_zero c j)

theorem grayInv_gray (i : Nat) : grayInv (gray i) = i := by
  refine Nat.eq_of_testBit_eq fun j => ?_
  have hi : i < 2 ^ (j + i) := lt_two_pow_of_le Nat.lt_two_pow_self (Nat.le_add_left i j)
  rw [testBit_grayInv (gray_lt hi), xorBits_gray, Nat.testBit_lt_two_pow hi, Bool.xor_false]

theorem gray_grayInv (c : Nat) : gray (grayInv c) = c := by
  refine Nat.eq_of_testBit_eq fun j => ?_
  have hc (k : Nat) : c < 2 ^ (k + c) := lt_two_pow_of_le Nat.lt_two_pow_self (Nat.le_add_left c k)
  have hj : c < 2 ^ (j + (c + 1)) := lt_two_pow_of_le (hc j) (by omega)
  rw [testBit_gray, testBit_grayInv hj, testBit_grayInv (hc (j + 1)), xorBits_succ_first, Bool.xor_assoc,
    Bool.xor_self, Bool.xor_false]

/-- Settles O37: all bits past bit `n - 1` are 0, so `n - j` bits from `j` on reach the top one. -/
theorem grayInverseUndoesGray : Obligations.GrayInverseUndoesGray := fun n i hi =>
  ⟨gray_lt hi, grayInv_lt hi, grayInv_gray i, gray_grayInv i, fun j =>
    testBit_grayInv (m := n - j) (lt_two_pow_of_le hi (by omega))⟩

/-! ### Neighbouring Gray codes -/

theorem gray_xor (a b : Nat) : gray (a ^^^ b) = gray a ^^^ gray b := by
  simp only [gray, Nat.shiftRight_xor_distrib]
  ac_rfl

/-- Counting up by one flips a run of ones at the bottom and the zero above it. -/
theorem exists_xor_succ_eq (i : Nat) : ∃ k, i ^^^ (i + 1) = 2 ^ (k + 1) - 1 := by
  induction i using Nat.binaryRec with
  | zero => exact ⟨0, rfl⟩
  | bit b i ih =>
    obtain ⟨k, hk⟩ := ih
    cases b with
    | false =>
      have hsucc : Nat.bit false i + 1 = Nat.bit true i := rfl
      exact ⟨0, by rw [hsucc, Nat.xor_bit, Nat.xor_self]; rfl⟩
    | true =>
      have hsucc : Nat.bit true i + 1 = Nat.bit false (i + 1) := rfl
      have hpos : 0 < 2 ^ (k + 1) := Nat.two_pow_pos _
      refine ⟨k + 1, ?_⟩
      rw [hsucc, Nat.xor_bit, hk, Nat.pow_succ 2 (k + 1), Bool.bne_false, Nat.bit_true_apply]
      omega

theorem gray_two_pow_sub_one (k : Nat) : gray (2 ^ (k + 1) - 1) = 2 ^ k := by
  refine Nat.eq_of_testBit_eq fun j => ?_
  rw [testBit_gray, Nat.testBit_two_pow_sub_one, Nat.testBit_two_pow_sub_one, Nat.testBit_two_pow, Bool.eq_iff_iff]
  simp only [bne_iff_ne, ne_eq, decide_eq_decide, decide_eq_true_eq]
  omega

/-- Settles O38: the reflection distributes over exclusive OR, and maps a run of ones to its top bit. -/
theorem grayCodesAdjacent : Obligations.GrayCodesAdjacent := by
  intro n i hi
  obtain ⟨k, hk⟩ := exists_xor_succ_eq i
  have hdiff : gray i ^^^ gray (i + 1) = 2 ^ k := by rw [← gray_xor, hk, gray_two_pow_sub_one]
  have hlt : 2 ^ k < 2 ^ n := hdiff ▸ Nat.xor_lt_two_pow (gray_lt (by omega)) (gray_lt (by omega))
  exact ⟨k, (Nat.pow_lt_pow_iff_right (by decide)).mp hlt, hdiff⟩

end Sys2Proof.Machine

namespace Sys2Proof.Fp

/-! ### The order of the data, with infinities -/

theorem natAbs_ord (f : Fmt) (a : Datum) : (ord f a).natAbs = place f a := by
  rw [ord_eq]
  split <;> simp

theorem isFinite_iff_ord (f : Fmt) (a : Datum) : isFinite f a = true ↔ (ord f a).natAbs < infMag f := by
  rw [natAbs_ord, isFinite_iff]

theorem lt_iff_ord {f : Fmt} {a b : Datum} :
    lt f a b = true ↔ isNan f a = false ∧ isNan f b = false ∧ ord f a < ord f b := by
  simp [lt, and_assoc]

theorem le_iff_ord {f : Fmt} {a b : Datum} :
    le f a b = true ↔ isNan f a = false ∧ isNan f b = false ∧ ord f a ≤ ord f b := by
  simp [le, and_assoc]

theorem ge_iff_ord {f : Fmt} {a b : Datum} :
    ge f a b = true ↔ isNan f a = false ∧ isNan f b = false ∧ ord f b ≤ ord f a := by
  simp [ge, and_assoc]

theorem ord_of_isInf {f : Fmt} {a : Datum} (h : isInf f a = true) :
    ord f a = if sign f a then -(infMag f : Int) else infMag f := by
  rw [ord_eq, (isInf_iff f a).mp h]

theorem isNan_eq_false_of_isInf {f : Fmt} {a : Datum} (h : isInf f a = true) : isNan f a = false := by
  rw [isInf_iff] at h
  rw [← Bool.not_eq_true, isNan_iff]
  omega

theorem isFinite_of_between {f : Fmt} {a b v : Datum} (ha : isFinite f a = true) (hb : isFinite f b = true)
    (hav : lt f a v = true) (hvb : lt f v b = true) : isFinite f v = true := by
  obtain ⟨_, _, hav⟩ := lt_iff_ord.mp hav
  obtain ⟨_, _, hvb⟩ := lt_iff_ord.mp hvb
  rw [isFinite_iff_ord] at *
  omega

theorem units_lt_iff_ord_lt (f : Fmt) (a b : Datum) : units f a < units f b ↔ ord f a < ord f b := by
  rw [units_eq_unitsAt, units_eq_unitsAt, (unitsAt_strictMono f).lt_iff_lt]

theorem units_le_iff_ord_le (f : Fmt) (a b : Datum) : units f a ≤ units f b ↔ ord f a ≤ ord f b := by
  rw [units_eq_unitsAt, units_eq_unitsAt, (unitsAt_strictMono f).le_iff_le]

/-! ### Rounding a quotient -/

/-- A place is a significand at an exponent, normalized unless the exponent is the least. -/
theorem exists_significand (f : Fmt) (p : Nat) :
    ∃ e m, p = e * 2 ^ fracBits f + m ∧ m + 1 ≤ 2 ^ (fracBits f + 1) ∧ (e ≠ 0 → 2 ^ fracBits f ≤ m) := by
  have hdiv := Nat.div_add_mod' p (2 ^ fracBits f)
  have hmod : p % 2 ^ fracBits f < 2 ^ fracBits f := Nat.mod_lt _ (Nat.two_pow_pos _)
  rw [Nat.pow_succ]
  cases hq : p / 2 ^ fracBits f with
  | zero => exact ⟨0, p, by omega, by rw [hq] at hdiv; omega, by simp⟩
  | succ e =>
    rw [hq, Nat.succ_mul] at hdiv
    exact ⟨e, 2 ^ fracBits f + p % 2 ^ fracBits f, by omega, by omega, by omega⟩

/-- From one positive place to the next the value at most doubles. -/
theorem magOf_succ_le (f : Fmt) (p : Nat) (hp : 0 < p) : magOf f (p + 1) ≤ 2 * magOf f p := by
  obtain ⟨e, m, rfl, hm, hnorm⟩ := exists_significand f p
  have hm0 : 1 ≤ m := by
    by_cases he : e = 0
    · rw [he, Nat.zero_mul] at hp
      omega
    · exact (Nat.two_pow_pos _).trans_le (hnorm he)
  rw [Nat.add_assoc, magOf_at f e (m + 1) hm (fun he => (hnorm he).trans (Nat.le_succ m)),
    magOf_at f e m (by omega) hnorm, ← Nat.mul_assoc]
  exact Nat.mul_le_mul_right _ (by omega)

/-- A fraction that does not round to zero is at most twice its rounded value. -/
theorem le_two_mul_magOf_roundMag (f : Fmt) (num den : Nat) (hd : 0 < den) (hpos : 0 < roundMag f num den)
    (hfin : roundMag f num den < infMag f) : num ≤ 2 * magOf f (roundMag f num den) * den := by
  obtain ⟨p, _, hhi, hround⟩ := roundMag_spec f num den hd
  rw [hround] at hpos hfin ⊢
  rw [min_eq_left (by omega)] at hpos ⊢
  split at hpos
  next hup =>
    rw [if_pos hup]
    exact hhi.le.trans (Nat.mul_le_mul_right _ (Nat.le_mul_of_pos_left _ (by decide)))
  next hdown =>
    rw [if_neg hdown]
    exact hhi.le.trans (Nat.mul_le_mul_right _ (magOf_succ_le f p hpos))

/-- No fraction of at most `2 ^ 33` overflows. -/
theorem roundMag_lt_infMag (f : Fmt) {num den k : Nat} (hd : 0 < den) (hk : k ≤ 33)
    (h : num ≤ 2 ^ k * 2 ^ unitExp f * den) : roundMag f num den < infMag f := by
  refine lt_of_le_of_ne (roundMag_le f num den) fun heq => ?_
  have hover := (roundMag_eq_infMag_iff f num den hd).mp heq
  have hexp : k + unitExp f < expMax f - 2 := by cases f <;> simp only [unitExp, expMax, expBits] <;> omega
  have hfrac : 1 ≤ 2 ^ (fracBits f + 1) - 1 := by cases f <;> decide
  have hmax : 2 ^ (expMax f - 2) ≤ maxUnits f := Nat.le_mul_of_pos_left _ hfrac
  have hpow : 2 ^ k * 2 ^ unitExp f < 2 ^ (expMax f - 2) := by
    rw [← Nat.pow_add]
    exact Nat.pow_lt_pow_right (by decide) hexp
  have hlt : 2 ^ k * 2 ^ unitExp f * den < maxUnits f * den := Nat.mul_lt_mul_of_pos_right (hpow.trans_le hmax) hd
  rw [Nat.add_mul, Nat.mul_assoc] at hover
  omega

/-! ### The place of a result -/

theorem place_sub {f : Fmt} {a b : Datum} (ha : isFinite f a = true) (hb : isFinite f b = true) :
    place f (sub f a b) = roundMag f (units f a - units f b).natAbs 1 := by
  have hnb : isFinite f (neg f b) = true := by rw [isFinite_neg, hb]
  rw [sub, sum_eq_withSign .sub ha hnb, place_withSign f _ _ (roundMag_lt f _ _), units_neg, Int.sub_eq_add_neg]

theorem place_div {f : Fmt} {a b : Datum} (ha : isFinite f a = true) (hb : isFinite f b = true) (h0 : mag f b ≠ 0) :
    place f (div f a b) = roundMag f (mag f a * 2 ^ unitExp f) (mag f b) := by
  rw [div_eq_withSign ha hb h0, place_withSign f _ _ (roundMag_lt f _ _)]

theorem sign_div {f : Fmt} {a b : Datum} (ha : isFinite f a = true) (hb : isFinite f b = true) (h0 : mag f b ≠ 0) :
    sign f (div f a b) = (sign f a != sign f b) := by
  rw [div_eq_withSign ha hb h0, sign_withSign f _ _ (roundMag_lt f _ _)]

theorem isFinite_fromNat (f : Fmt) {k : Nat} (hk : k ≤ 2 ^ 32) : isFinite f (fromNat f k) = true := by
  rw [isFinite_iff, fromNat, place_withSign f _ _ (roundMag_lt f _ _)]
  refine roundMag_lt_infMag f (k := 32) Nat.one_pos (by decide) ?_
  rw [Nat.mul_one]
  exact Nat.mul_le_mul_right _ hk

/-- A sum with a finite second operand is a NaN only if the first operand is one. -/
theorem isNan_add_of_isFinite_right {f : Fmt} {a b : Datum} (ha : isNan f a = false) (hb : isFinite f b = true) :
    isNan f (add f a b) = false := by
  by_cases hinf : isInf f a = true
  · have hsum : add f a b = withSign f (sign f a) (infMag f) := by
      simp [add, sum, ha, hinf, isNan_eq_false_of_isFinite hb, isInf_eq_false_of_isFinite hb]
    rw [hsum, ← Bool.not_eq_true, isNan_iff, place_withSign f _ _ (infMag_lt_signBit f)]
    exact Nat.lt_irrefl _
  · have hfin := isFinite_of_not_isInf ha (Bool.eq_false_of_not_eq_true hinf)
    exact (sumAndDifferenceCorrectlyRounded f a b hfin hb).1.notNan

end Sys2Proof.Fp

namespace Sys2Proof.Machine

/-! ### What a valid configuration provides -/

section
variable {f : Fmt} {c : CodecConfig}

theorem CodecConfig.bounds_of_wf (hc : c.wf f = true) :
    Fp.isFinite f c.lb = true ∧ Fp.isFinite f c.ub = true ∧ Fp.lt f c.lb c.ub = true := by
  obtain ⟨_, _, hlb, hub, hlt, _⟩ := validConfigurationProperties f c hc
  exact ⟨hlb, hub, hlt⟩

theorem CodecConfig.codes_of_wf (hc : c.wf f = true) :
    c.clb.toNat = 0 ∧ c.cub.toNat < 2 ^ c.n.toNat ∧ c.cub.toNat ≠ c.clb.toNat := by
  obtain ⟨_, _, _, _, _, _, _, _, hclb, _, hcub, hne⟩ := validConfigurationProperties f c hc
  exact ⟨congrArg BitVec.toNat hclb, hcub, fun h => hne (BitVec.toNat_inj.mp h.symm)⟩

theorem CodecConfig.step_of_wf (hc : c.wf f = true) :
    Fp.isFinite f c.step = true ∧ Fp.sign f c.step = false ∧ Fp.mag f c.step ≠ 0 := by
  obtain ⟨_, _, _, _, _, _, hfin, hpos, _⟩ := validConfigurationProperties f c hc
  obtain ⟨hlt, _⟩ := (Fp.comparisonsCompareValues f Fp.zero c.step).1 (Fp.isFinite_zero f) hfin
  rw [hlt, Fp.units_zero, decide_eq_true_eq] at hpos
  refine ⟨hfin, ?_, by rw [Fp.mag_eq_natAbs_units]; omega⟩
  rw [← Bool.not_eq_true]
  intro hneg
  rw [Fp.units, if_pos hneg] at hpos
  omega

/-- The range `UB - LB` is at most twice the `2 ^ N` steps it was divided into, however the step was rounded. -/
theorem CodecConfig.mag_range_le (hc : c.wf f = true) :
    Fp.mag f (Fp.sub f c.ub c.lb) ≤ 2 ^ (c.n.toNat + 1) * Fp.mag f c.step := by
  obtain ⟨_, h32⟩ := CodecConfig.width_of_wf hc
  obtain ⟨hfin, _, hpos⟩ := CodecConfig.step_of_wf hc
  obtain ⟨hcheck, hderive⟩ := (CodecConfig.wf_iff f c).mp hc
  have hrange := isFinite_range_of_cfgCheck hcheck
  have hstep : c.step = Fp.div f (Fp.sub f c.ub c.lb) (Fp.pow2 f c.n.toNat) := congrArg CodecConfig.step hderive
  have hplace : Fp.place f c.step = Fp.roundMag f (Fp.mag f (Fp.sub f c.ub c.lb)) (2 ^ c.n.toNat) := by
    rw [hstep, Fp.div_pow2_eq hrange h32, Fp.place_withSign f _ _ (Fp.roundMag_lt f _ _)]
  rw [Ne, Fp.mag_eq_zero_iff, hplace] at hpos
  rw [Fp.isFinite_iff, hplace] at hfin
  have hle := Fp.le_two_mul_magOf_roundMag f _ _ (Nat.two_pow_pos _) (Nat.pos_of_ne_zero hpos) hfin
  rw [← hplace, ← Fp.mag_eq] at hle
  exact hle.trans_eq (by ring)

/-! ### The cases of QuantEncode -/

/-- The rounded quotient `q` of R66. -/
def quotient (f : Fmt) (c : CodecConfig) (v : Datum) : Datum := Fp.div f (Fp.sub f v c.lb) c.step

/-- The saturated natural index of R66. -/
def natIndex (f : Fmt) (c : CodecConfig) (v : Datum) : Nat :=
  min (Fp.floorNat f (quotient f c v)) (2 ^ c.n.toNat - 1)

/-- The code of a natural index in the mapping of the configuration (R66). -/
def CodecConfig.codeOf (c : CodecConfig) (idx : Nat) : Nat := if c.map = 0 then idx else gray idx

theorem CodecConfig.codeOf_lt {idx : Nat} (h : idx < 2 ^ c.n.toNat) : c.codeOf idx < 2 ^ c.n.toNat := by
  unfold CodecConfig.codeOf
  split
  · exact h
  · exact gray_lt h

theorem CodecConfig.codeOf_injective : Function.Injective c.codeOf := by
  unfold CodecConfig.codeOf
  split
  · exact fun _ _ h => h
  · exact Function.LeftInverse.injective grayInv_gray

theorem natIndex_lt (f : Fmt) (c : CodecConfig) (v : Datum) : natIndex f c v < 2 ^ c.n.toNat :=
  (Nat.min_le_right _ _).trans_lt (Nat.sub_lt (Nat.two_pow_pos _) Nat.one_pos)

variable {v w : Datum}

theorem quantEncode_of_le (h : Fp.le f v c.lb = true) : quantEncode f c v = some c.clb.toNat := by
  obtain ⟨hnan, _⟩ := Fp.le_iff_ord.mp h
  rw [quantEncode, hnan, if_neg Bool.false_ne_true, if_pos h]

theorem quantEncode_of_ge (hlt : Fp.lt f c.lb c.ub = true) (h : Fp.ge f v c.ub = true) :
    quantEncode f c v = some c.cub.toNat := by
  obtain ⟨hnan, _, hge⟩ := Fp.ge_iff_ord.mp h
  obtain ⟨_, _, hlt⟩ := Fp.lt_iff_ord.mp hlt
  have hle : ¬ Fp.le f v c.lb = true := fun hle => by
    obtain ⟨_, _, hle⟩ := Fp.le_iff_ord.mp hle
    omega
  rw [quantEncode, hnan, if_neg Bool.false_ne_true, if_neg hle, if_pos h]

theorem quantEncode_between (hlo : Fp.lt f c.lb v = true) (hhi : Fp.lt f v c.ub = true) :
    quantEncode f c v = some (c.codeOf (natIndex f c v)) := by
  obtain ⟨_, hnan, hlo⟩ := Fp.lt_iff_ord.mp hlo
  obtain ⟨_, _, hhi⟩ := Fp.lt_iff_ord.mp hhi
  have hle : ¬ Fp.le f v c.lb = true := fun hle => by
    obtain ⟨_, _, hle⟩ := Fp.le_iff_ord.mp hle
    omega
  have hge : ¬ Fp.ge f v c.ub = true := fun hge => by
    obtain ⟨_, _, hge⟩ := Fp.ge_iff_ord.mp hge
    omega
  rw [quantEncode, hnan, if_neg Bool.false_ne_true, if_neg hle, if_neg hge]
  exact (apply_ite some _ _ _).symm

/-- A value that is no NaN is at or below `LB`, at or above `UB`, or strictly between them. -/
theorem bounds_cases (hlt : Fp.lt f c.lb c.ub = true) (hv : Fp.isNan f v = false) :
    Fp.le f v c.lb = true ∨ Fp.ge f v c.ub = true ∨ (Fp.lt f c.lb v = true ∧ Fp.lt f v c.ub = true) := by
  obtain ⟨hlb, hub, _⟩ := Fp.lt_iff_ord.mp hlt
  simp only [Fp.le_iff_ord, Fp.ge_iff_ord, Fp.lt_iff_ord, hlb, hub, hv, true_and]
  omega

/-! ### Between the bounds -/

/-- The rounded difference is finite and not larger than the range, as rounding is monotonic. -/
theorem sub_lb_between (hc : c.wf f = true) (hlo : Fp.lt f c.lb v = true) (hhi : Fp.lt f v c.ub = true) :
    Fp.isFinite f (Fp.sub f v c.lb) = true ∧ Fp.sign f (Fp.sub f v c.lb) = false ∧
      Fp.mag f (Fp.sub f v c.lb) ≤ Fp.mag f (Fp.sub f c.ub c.lb) := by
  obtain ⟨hlb, hub, _⟩ := CodecConfig.bounds_of_wf hc
  obtain ⟨hcheck, _⟩ := (CodecConfig.wf_iff f c).mp hc
  have hv := Fp.isFinite_of_between hlb hub hlo hhi
  obtain ⟨_, _, hlo⟩ := Fp.lt_iff_ord.mp hlo
  obtain ⟨_, _, hhi⟩ := Fp.lt_iff_ord.mp hhi
  rw [← Fp.units_lt_iff_ord_lt] at hlo hhi
  have hplace : Fp.place f (Fp.sub f v c.lb) ≤ Fp.place f (Fp.sub f c.ub c.lb) := by
    rw [Fp.place_sub hv hlb, Fp.place_sub hub hlb]
    exact Fp.roundMag_mono f _ _ _ _ Nat.one_pos Nat.one_pos (by omega)
  refine ⟨?_, Fp.sign_sub_of_lt hv hlb hlo, ?_⟩
  · rw [Fp.isFinite_iff]
    exact hplace.trans_lt ((Fp.isFinite_iff f _).mp (isFinite_range_of_cfgCheck hcheck))
  · rw [Fp.mag_eq, Fp.mag_eq]
    exact (Fp.magOf_strictMono f).monotone hplace

/-- The quotient is at most `2 ^ (N + 1)` before it is rounded, so it is finite; and it is not negative (R66). -/
theorem quotient_between (hc : c.wf f = true) (hlo : Fp.lt f c.lb v = true) (hhi : Fp.lt f v c.ub = true) :
    Fp.isFinite f (quotient f c v) = true ∧ Fp.units f (quotient f c v) = Fp.mag f (quotient f c v) := by
  obtain ⟨_, h32⟩ := CodecConfig.width_of_wf hc
  obtain ⟨hstep, hstepSign, hstepPos⟩ := CodecConfig.step_of_wf hc
  obtain ⟨hd, hdSign, hdLe⟩ := sub_lb_between hc hlo hhi
  constructor
  · rw [Fp.isFinite_iff, quotient, Fp.place_div hd hstep hstepPos]
    refine Fp.roundMag_lt_infMag f (k := c.n.toNat + 1) (Nat.pos_of_ne_zero hstepPos) (by omega) ?_
    rw [Nat.mul_right_comm]
    exact Nat.mul_le_mul_right _ (hdLe.trans (CodecConfig.mag_range_le hc))
  · exact Fp.units_of_sign_eq_false (by rw [quotient, Fp.sign_div hd hstep hstepPos, hdSign, hstepSign]; rfl)

theorem natIndex_between (hc : c.wf f = true) (hlo : Fp.lt f c.lb v = true) (hhi : Fp.lt f v c.ub = true) :
    natIndex f c v = min (Fp.mag f (quotient f c v) / 2 ^ Fp.unitExp f) (2 ^ c.n.toNat - 1) := by
  obtain ⟨hfin, hunits⟩ := quotient_between hc hlo hhi
  rw [natIndex, Fp.floorNat_of_nonneg f _ hfin (by omega), hunits, Int.toNat_natCast]

/-- Each rounded operation of R66 is monotonic, and so is the index. -/
theorem natIndex_mono (hc : c.wf f = true) (hlv : Fp.lt f c.lb v = true) (hvu : Fp.lt f v c.ub = true)
    (hlw : Fp.lt f c.lb w = true) (hwu : Fp.lt f w c.ub = true) (hvw : Fp.units f v ≤ Fp.units f w) :
    natIndex f c v ≤ natIndex f c w := by
  obtain ⟨hlb, hub, _⟩ := CodecConfig.bounds_of_wf hc
  obtain ⟨hstep, _, hstepPos⟩ := CodecConfig.step_of_wf hc
  obtain ⟨hdv, _⟩ := sub_lb_between hc hlv hvu
  obtain ⟨hdw, _⟩ := sub_lb_between hc hlw hwu
  have hv := Fp.isFinite_of_between hlb hub hlv hvu
  have hw := Fp.isFinite_of_between hlb hub hlw hwu
  have hmag := (Fp.magOf_strictMono f).monotone
  have hlbv : Fp.units f c.lb < Fp.units f v := by
    obtain ⟨_, _, hlt⟩ := Fp.lt_iff_ord.mp hlv
    rwa [Fp.units_lt_iff_ord_lt]
  have hdiff : Fp.mag f (Fp.sub f v c.lb) ≤ Fp.mag f (Fp.sub f w c.lb) := by
    rw [Fp.mag_eq, Fp.mag_eq, Fp.place_sub hv hlb, Fp.place_sub hw hlb]
    exact hmag (Fp.roundMag_mono f _ _ _ _ Nat.one_pos Nat.one_pos (by omega))
  have hquot : Fp.mag f (quotient f c v) ≤ Fp.mag f (quotient f c w) := by
    rw [Fp.mag_eq, Fp.mag_eq, quotient, quotient, Fp.place_div hdv hstep hstepPos, Fp.place_div hdw hstep hstepPos]
    have hpos := Nat.pos_of_ne_zero hstepPos
    exact hmag (Fp.roundMag_mono f _ _ _ _ hpos hpos (Nat.mul_le_mul_right _ (Nat.mul_le_mul_right _ hdiff)))
  rw [natIndex_between hc hlv hvu, natIndex_between hc hlw hwu]
  exact min_le_min_right _ (Nat.div_le_div_right hquot)

/-! ### The cases of QuantDecode -/

theorem quantDecode_of_lt {code : Nat} (h : code < 2 ^ c.n.toNat) :
    quantDecode f c code = some (dequantize f c code) := by
  rw [quantDecode, if_neg (Nat.not_le.mpr h)]

theorem dequantize_clb (f : Fmt) (c : CodecConfig) : dequantize f c c.clb.toNat = c.lb := by
  rw [dequantize, if_pos rfl]

theorem dequantize_cub (hc : c.wf f = true) : dequantize f c c.cub.toNat = c.ub := by
  obtain ⟨_, _, hne⟩ := CodecConfig.codes_of_wf hc
  rw [dequantize, if_neg hne, if_pos rfl]

/-- The natural index that a code stands for (R67). -/
def CodecConfig.indexOf (c : CodecConfig) (code : Nat) : Nat := if c.map = 0 then code else grayInv code

theorem CodecConfig.indexOf_lt {code : Nat} (h : code < 2 ^ c.n.toNat) : c.indexOf code < 2 ^ c.n.toNat := by
  unfold CodecConfig.indexOf
  split
  · exact h
  · exact grayInv_lt h

theorem dequantize_inner {code : Nat} (hlo : code ≠ c.clb.toNat) (hhi : code ≠ c.cub.toNat) :
    dequantize f c code = Fp.add f (Fp.mul f (Fp.fromNat f (c.indexOf code)) c.step) c.lb := by
  rw [dequantize, if_neg hlo, if_neg hhi]
  rfl

end

/-! ### The properties of the quantizer -/

/-- Settles O30: the three cases of R66, an infinity being beyond every finite bound. -/
theorem quantEncodeFitsWidthAndClamps : Obligations.QuantEncodeFitsWidthAndClamps := by
  intro f c v hc
  obtain ⟨hlb, hub, hlt⟩ := CodecConfig.bounds_of_wf hc
  obtain ⟨hclb, hcub, _⟩ := CodecConfig.codes_of_wf hc
  refine ⟨fun hv => ?_, quantEncode_of_le, quantEncode_of_ge hlt, fun hinf => ?_⟩
  · rcases bounds_cases hlt hv with hle | hge | ⟨hlo, hhi⟩
    · exact ⟨_, quantEncode_of_le hle, hclb ▸ Nat.two_pow_pos _⟩
    · exact ⟨_, quantEncode_of_ge hlt hge, hcub⟩
    · exact ⟨_, quantEncode_between hlo hhi, CodecConfig.codeOf_lt (natIndex_lt f c v)⟩
  · have hnan := Fp.isNan_eq_false_of_isInf hinf
    have hord := Fp.ord_of_isInf hinf
    have hlbNan := Fp.isNan_eq_false_of_isFinite hlb
    have hubNan := Fp.isNan_eq_false_of_isFinite hub
    rw [Fp.isFinite_iff_ord] at hlb hub
    cases hs : Fp.sign f v with
    | true =>
      rw [hs, if_pos rfl] at hord
      exact quantEncode_of_le (Fp.le_iff_ord.mpr ⟨hnan, hlbNan, by omega⟩)
    | false =>
      rw [hs, if_neg Bool.false_ne_true] at hord
      exact quantEncode_of_ge hlt (Fp.ge_iff_ord.mpr ⟨hnan, hubNan, by omega⟩)

/-- Settles O31: a code determines its index, which is the minimum of the floor of `q` and the top index. -/
theorem indexIsSaturatedFloor : Obligations.IndexIsSaturatedFloor := by
  rintro f c v _ idx hc hlo hhi rfl hcode _
  obtain ⟨hfin, hunits⟩ := quotient_between hc hlo hhi
  have hidx : idx = natIndex f c v :=
    CodecConfig.codeOf_injective (Option.some.inj (hcode.symm.trans (quantEncode_between hlo hhi)))
  rw [natIndex_between hc hlo hhi] at hidx
  rw [← quotient, hunits]
  have hunit : 0 < 2 ^ Fp.unitExp f := Nat.two_pow_pos _
  refine ⟨hfin, Int.natCast_nonneg _, ?_, fun hsat => ?_⟩
  · exact_mod_cast (Nat.le_div_iff_mul_le hunit).mp (hidx ▸ Nat.min_le_left _ _)
  · exact_mod_cast (Nat.div_lt_iff_lt_mul hunit).mp (by omega)

/-- Settles O32: `CLB` is the least code and `CUB` the greatest; between the bounds the index is monotonic. -/
theorem naturalCodeIsMonotone : Obligations.NaturalCodeIsMonotone := by
  intro f c v w a b hc hmap hvw ha hb
  obtain ⟨_, _, hlt⟩ := CodecConfig.bounds_of_wf hc
  obtain ⟨hclb, _⟩ := CodecConfig.codes_of_wf hc
  obtain ⟨hv, hw, hord⟩ := Fp.le_iff_ord.mp hvw
  have hcode (idx : Nat) : c.codeOf idx = idx := if_pos hmap
  have htop : c.cub.toNat = 2 ^ c.n.toNat - 1 := by
    rw [CodecConfig.cub_toNat hc, topCode_eq, hmap]
    rfl
  rcases bounds_cases hlt hv with hle | hge | ⟨hlv, hvu⟩
  · rw [quantEncode_of_le hle, Option.some_inj, hclb] at ha
    exact ha ▸ Nat.zero_le b
  · obtain ⟨_, hub, hge⟩ := Fp.ge_iff_ord.mp hge
    have hwge : Fp.ge f w c.ub = true := Fp.ge_iff_ord.mpr ⟨hw, hub, hge.trans hord⟩
    rw [quantEncode_of_ge hlt (Fp.ge_iff_ord.mpr ⟨hv, hub, hge⟩)] at ha
    rw [quantEncode_of_ge hlt hwge] at hb
    exact (Option.some.inj (ha.symm.trans hb)).le
  · obtain ⟨hlb, _, hlvOrd⟩ := Fp.lt_iff_ord.mp hlv
    have hlw : Fp.lt f c.lb w = true := Fp.lt_iff_ord.mpr ⟨hlb, hw, hlvOrd.trans_le hord⟩
    rw [quantEncode_between hlv hvu, Option.some_inj, hcode] at ha
    rcases bounds_cases hlt hw with hwle | hwge | ⟨_, hwu⟩
    · obtain ⟨_, _, hwle⟩ := Fp.le_iff_ord.mp hwle
      omega
    · rw [quantEncode_of_ge hlt hwge, Option.some_inj, htop] at hb
      exact ha ▸ hb ▸ Nat.le_sub_one_of_lt (natIndex_lt f c v)
    · rw [quantEncode_between hlw hwu, Option.some_inj, hcode] at hb
      exact ha ▸ hb ▸ natIndex_mono hc hlv hvu hlw hwu ((Fp.units_le_iff_ord_le f v w).mpr hord)

/-- Settles O33: each bound has its own code, and that code decodes to the bound itself. -/
theorem boundsRoundTripExactly : Obligations.BoundsRoundTripExactly := by
  intro f c hc
  obtain ⟨hlb, hub, hlt⟩ := CodecConfig.bounds_of_wf hc
  obtain ⟨hclb, hcub, _⟩ := CodecConfig.codes_of_wf hc
  have hlbNan := Fp.isNan_eq_false_of_isFinite hlb
  have hubNan := Fp.isNan_eq_false_of_isFinite hub
  constructor
  · refine ⟨_, quantEncode_of_le (Fp.le_iff_ord.mpr ⟨hlbNan, hlbNan, le_rfl⟩), ?_⟩
    rw [quantDecode_of_lt (hclb ▸ Nat.two_pow_pos _), dequantize_clb]
  · refine ⟨_, quantEncode_of_ge hlt (Fp.ge_iff_ord.mpr ⟨hubNan, hubNan, le_rfl⟩), ?_⟩
    rw [quantDecode_of_lt hcub, dequantize_cub hc]

/-- Settles O34: the product of finite data is no NaN, even if it overflows, and adding the finite `LB` makes none. -/
theorem decodedValueIsNeverNan : Obligations.DecodedValueIsNeverNan := by
  intro f c code hc hcode
  obtain ⟨hlb, hub, _⟩ := CodecConfig.bounds_of_wf hc
  obtain ⟨hstep, _⟩ := CodecConfig.step_of_wf hc
  obtain ⟨_, h32⟩ := CodecConfig.width_of_wf hc
  refine ⟨_, quantDecode_of_lt hcode, ?_⟩
  by_cases hlo : code = c.clb.toNat
  · rw [hlo, dequantize_clb]
    exact Fp.isNan_eq_false_of_isFinite hlb
  by_cases hhi : code = c.cub.toNat
  · rw [hhi, dequantize_cub hc]
    exact Fp.isNan_eq_false_of_isFinite hub
  have hk : Fp.isFinite f (Fp.fromNat f (c.indexOf code)) = true :=
    Fp.isFinite_fromNat f ((CodecConfig.indexOf_lt hcode).le.trans (Nat.pow_le_pow_right (by decide) h32))
  rw [dequantize_inner hlo hhi]
  exact Fp.isNan_add_of_isFinite_right (Fp.productAndQuotientCorrectlyRounded f _ _ hk hstep).1.notNan hlb

/-- Refutes O35: in `binary32` at `N = 32` the code `2 ^ 32 - 2` is converted to `2 ^ 32`, so the product is the rounded
range, `2 ^ 128 - 2 ^ 105`; the exact sum with `LB`, half a spacing above the greatest finite value, is rounded to
infinity. -/
theorem not_decodedValueIsAlwaysFinite : ¬ Obligations.DecodedValueIsAlwaysFinite := by
  intro h
  obtain ⟨v, hv, hfin⟩ := h .binary32 (cfgDerive .binary32 32 0x73C00000 0x7F7FFFFF 0) (2 ^ 32 - 2)
    (by decide +kernel) (by decide +kernel)
  have hinf : quantDecode .binary32 (cfgDerive .binary32 32 0x73C00000 0x7F7FFFFF 0) (2 ^ 32 - 2) =
      some 0x7F800000 := by decide +kernel
  obtain rfl : 0x7F800000 = v := Option.some.inj (hinf.symm.trans hv)
  exact absurd hfin (by decide)

/-- Settles O36: the configuration of the spec's example, its value and its code. -/
theorem roundTripErrorCanExceedStep : Obligations.RoundTripErrorCanExceedStep :=
  ⟨cfgDerive .binary64 8 0x3FF0000000000000 0x3FF00000000000C0 0, by decide +kernel, rfl, rfl, rfl, by decide +kernel,
    by decide +kernel, by decide +kernel⟩

/-! ### The scalar commands -/

/-- Settles O28: QENC does one of three things, and the value has no code exactly if it is a NaN. -/
theorem qencQuantizesScalar : Obligations.QencQuantizesScalar := by
  intro s hvalid
  rw [show exec .qenc s = execQenc s from rfl, ← quantEncode_eq_none s.params.fmt s.cfg, ← Bool.not_eq_true,
    ← quantEncode_eq_none s.params.fmt s.cfg]
  rcases execQenc_cases s with ⟨hinvalid, _⟩ | ⟨_, hnone, hexec⟩ | ⟨_, r, hsome, hexec⟩
  · exact absurd (hinvalid.symm.trans hvalid) Bool.false_ne_true
  · exact ⟨fun hne => absurd hnone hne, fun _ => hexec⟩
  · exact ⟨fun _ => ⟨r, hsome, hexec⟩, fun hnone => absurd (hsome.symm.trans hnone) (Option.some_ne_none r)⟩

/-- Settles O29: QDEC does one of three things, and the value of a code is the case of R67 it falls in. -/
theorem qdecDequantizesScalar : Obligations.QdecDequantizesScalar := by
  intro s hvalid
  rw [show exec .qdec s = execQdec s from rfl]
  refine ⟨fun hlt => ?_, fun hge => ?_, fun hc code k hcode => ⟨?_, ?_, fun hlo hhi hk => ?_⟩⟩
  · rcases execQdec_cases s with ⟨hinvalid, _⟩ | ⟨_, hge, _⟩ | ⟨_, _, hexec⟩
    · exact absurd (hinvalid.symm.trans hvalid) Bool.false_ne_true
    · exact absurd hge (Nat.not_le.mpr hlt)
    · exact ⟨_, quantDecode_of_lt hlt, hexec⟩
  · rcases execQdec_cases s with ⟨hinvalid, _⟩ | ⟨_, _, hexec⟩ | ⟨_, hlt, _⟩
    · exact absurd (hinvalid.symm.trans hvalid) Bool.false_ne_true
    · exact hexec
    · exact absurd hge (Nat.not_le.mpr hlt)
  · rintro rfl
    rw [quantDecode_of_lt hcode, dequantize_clb]
  · rintro rfl
    rw [quantDecode_of_lt hcode, dequantize_cub hc]
  · have hindex : k = s.cfg.indexOf code := by
      rcases hk with ⟨hmap, rfl⟩ | ⟨hmap, rfl⟩
      · rw [CodecConfig.indexOf, if_pos hmap]
      · rw [CodecConfig.indexOf, if_neg (by rw [hmap]; decide)]
    rw [quantDecode_of_lt hcode, dequantize_inner hlo hhi, hindex]

end Sys2Proof.Machine

/-! The packer (42_packer). `packAll_spec` and `unpackAll_spec` say what the cursor walks do to the stream, bit by bit; the
closed forms have the same bits. The state that a stream command leaves is named once for PACK and ENCODE
(`State.storePacked`) and once for UNPACK and UNPACKI (`State.deliverCodes`), with what it holds beside it. -/

namespace Sys2Proof.Machine

open Host (Outcome)

/-! ### The walk and the closed form -/

theorem listBit_of_length_le {bs : List Byte} {q : Nat} (h : 8 * bs.length ≤ q) : listBit bs q = false := by
  rw [listBit, streamBitOf, List.getD_eq_default _ _ (by omega)]
  exact BitVec.getLsbD_zero

/-- A byte list of the right length with the stream bits of the codes, and zero padding, is the serialized one. -/
theorem eq_serialize_of_listBit {cs : List Nat} {n : Nat} {bs : List Byte}
    (hlen : bs.length = ceilDiv (cs.length * n) 8)
    (hbits : ∀ q, q < 8 * bs.length →
      listBit bs q = (decide (q < cs.length * n) && (cs.getD (q / n) 0).testBit (n - 1 - q % n))) :
    bs = serialize cs n := by
  obtain ⟨hlen', hbits'⟩ := serialize_spec cs n
  refine eq_of_listBit _ _ (hlen.trans hlen'.symm) fun q => ?_
  by_cases hq : q < 8 * bs.length
  · rw [hbits q hq, hbits' q (hlen ▸ hq)]
  · rw [listBit_of_length_le (by omega), listBit_of_length_le (by omega)]

/-- A list of `k` entries is the only one with those entries. -/
theorem eq_of_getElem?_of_lt {α : Type} {as bs : List α} {k : Nat} {f : Nat → Option α}
    (ha : as.length = k) (hb : bs.length = k) (hfa : ∀ j, j < k → f j = as[j]?) (hfb : ∀ j, j < k → f j = bs[j]?) :
    as = bs := by
  refine List.ext_getElem? fun j => ?_
  by_cases hj : j < k
  · rw [← hfa j hj, hfb j hj]
  · rw [List.getElem?_eq_none (by omega), List.getElem?_eq_none (by omega)]

/-- The walk over codes that are all there: the bytes of the closed form, and the cursor of R75. -/
theorem packAll_serialize {n : Nat} {code : Nat → Option Nat} (cs : List Nat)
    (hcs : ∀ j, j < cs.length → code j = cs[j]?) :
    packAll n code cs.length 0 (List.replicate (ceilDiv (cs.length * n) 8) 0) Cursor.start =
      .ok (serialize cs n, { byte := cs.length * n / 8, off := cs.length * n % 8 }) := by
  rcases packAll_spec n code cs.length 0 (List.replicate (ceilDiv (cs.length * n) 8) 0) Cursor.start (by decide) with
    ⟨ds, bs, c, heq, hds, hcode, hlen, hoff, hpos, hbits⟩ | ⟨j, hj, _, hnone, _⟩
  · obtain rfl : ds = cs := eq_of_getElem?_of_lt hds rfl (by simpa using hcode) hcs
    rw [List.length_replicate] at hlen
    have hbytes : bs = serialize ds n := eq_serialize_of_listBit hlen fun q hq => by
      have hq' := hbits q (by rwa [List.length_replicate, ← hlen])
      rw [listBit_replicate, Cursor.pos_start] at hq'
      simpa using hq'
    rw [heq, hbytes, Cursor.eq_of_pos c hoff, hpos, Cursor.pos_start, Nat.zero_add]
  · rw [Nat.zero_add, hcs j hj, List.getElem?_eq_getElem hj] at hnone
    cases hnone

/-- Settles O39: both have the same stream bits (`eq_serialize_of_listBit`). -/
theorem packStepEqualsSerialize : Obligations.PackStepEqualsSerialize :=
  fun cs _ => ⟨_, packAll_serialize cs fun _ _ => rfl⟩

/-- Settles O40: `unpackAll_spec` from the start of the stream. -/
theorem unpackStepEqualsDeserialize : Obligations.UnpackStepEqualsDeserialize := by
  intro read n count
  have hwalk := (unpackAll_spec n read count 0 Cursor.start (by decide) (by rw [Cursor.pos_start, Nat.zero_mul])).1
  simpa only [Nat.zero_add, deserialize] using hwalk

/-- Settles O41: each walk moves the position by `k * n` bits, and the position determines the cursor. -/
theorem cursorAfterCodes : Obligations.CursorAfterCodes := by
  refine fun n k => ⟨fun code bs => ?_, fun read => ?_⟩
  · rcases packAll_spec n (fun i => some (code i)) k 0 bs Cursor.start (by decide) with
      ⟨_, bs', c, heq, _, _, _, hoff, hpos, _⟩ | ⟨_, _, _, hnone, _⟩
    · rw [Cursor.pos_start, Nat.zero_add] at hpos
      exact ⟨bs', by rw [heq, Cursor.eq_of_pos c hoff, hpos]⟩
    · cases hnone
  · obtain ⟨_, hoff, hpos⟩ :=
      unpackAll_spec n read k 0 Cursor.start (by decide) (by rw [Cursor.pos_start, Nat.zero_mul])
    rw [Cursor.pos_start, Nat.zero_add] at hpos
    rw [Cursor.eq_of_pos _ hoff, hpos]

/-- Settles O44: the padding is less than 8 bits, so it holds no further code. -/
theorem inferredCountIsPackedCount : Obligations.InferredCountIsPackedCount := by
  intro count n hn
  have hpad : 8 * ceilDiv (count * n) 8 < count * n + n := by unfold ceilDiv; omega
  exact Nat.div_eq_of_lt_le (le_mul_ceilDiv _) (by rwa [Nat.add_mul, Nat.one_mul])

/-- `Deserialize` undoes `Serialize` on codes of at most `n` bits, whatever bytes follow. -/
theorem deserializeCode_serialize {cs : List Nat} {n i : Nat} {read : Nat → Byte} (hi : i < cs.length)
    (hcode : cs[i] < 2 ^ n) (hread : ∀ k, k < ceilDiv (cs.length * n) 8 → read k = (serialize cs n).getD k 0) :
    deserializeCode read n i = cs[i] := by
  apply Nat.eq_of_testBit_eq
  intro p
  rw [deserializeCode_testBit]
  by_cases hp : p < n
  · have hr : n - 1 - p < n := by omega
    have hpos := mul_add_lt_of_lt hi hr
    have hle := le_mul_ceilDiv (cs.length * n)
    have hbit := listBit_serialize_code cs hi hr
    rw [listBit, streamBitOf, show n - 1 - (n - 1 - p) = p by omega, List.getD_eq_getElem _ _ hi] at hbit
    rw [decide_eq_true hp, Bool.true_and, streamBitOf, hread _ (by omega), hbit]
  · rw [decide_eq_false hp, Bool.false_and,
      Nat.testBit_lt_two_pow (hcode.trans_le (Nat.pow_le_pow_right Nat.two_pos (Nat.not_lt.mp hp)))]

/-! ### The state that PACK or ENCODE leaves -/

/-- The state after PACK or ENCODE of the codes `cs` (R77, R81); `packStream_of_codes` ties it to the command. -/
def State.storePacked (s : State) (cs : List Nat) : State :=
  ({ s with
    bbuf := Memory.storeAll (w := 8) s.bbuf 0 (serialize cs s.cfg.n.toNat)
    blen := BitVec.ofNat 32 (ceilDiv (s.count.toNat * s.cfg.n.toNat) 8)
    curByte := BitVec.ofNat 32 (s.count.toNat * s.cfg.n.toNat / 8)
    curBit := BitVec.ofNat 32 (s.count.toNat * s.cfg.n.toNat % 8) } : State).complete

section
variable {s : State} {code : Nat → Option Nat} {e : ErrCode}

theorem State.byteAt_storePacked (s : State) (cs : List Nat) (k : Nat) : (s.storePacked cs).byteAt k =
    if k < ceilDiv (cs.length * s.cfg.n.toNat) 8 then (serialize cs s.cfg.n.toNat).getD k 0 else s.byteAt k := by
  refine (s.byteAt_storeAll (serialize cs s.cfg.n.toNat) k).trans ?_
  rw [← (serialize_spec cs s.cfg.n.toNat).1]
  split
  next hk => rw [List.getD_eq_getElem _ _ hk]
  next => rfl

theorem State.packStream_notConfigured (hv : s.status.cfgValid = false) :
    s.packStream code e = s.raise .notConfigured 0 := if_pos hv

theorem State.packStream_capacity (hv : s.status.cfgValid = true) (hc : s.params.maxCount < s.count.toNat) :
    s.packStream code e = s.raise .capacity 0 := by
  rw [State.packStream, if_neg (by rw [hv]; decide), if_pos hc]

/-- The codes are all there: they are packed. -/
theorem State.packStream_of_codes {cs : List Nat} (hv : s.status.cfgValid = true)
    (hc : s.count.toNat ≤ s.params.maxCount) (hlen : cs.length = s.count.toNat)
    (hcs : ∀ j, j < s.count.toNat → code j = cs[j]?) : s.packStream code e = s.storePacked cs := by
  rw [State.packStream, if_neg (by rw [hv]; decide), if_neg (by omega)]
  dsimp only
  rw [State.storePacked, ← hlen, packAll_serialize cs (by rwa [hlen])]

/-- The element `i` is the first without a code: the command stops there. -/
theorem State.packStream_of_missing {i : Nat} (hv : s.status.cfgValid = true)
    (hc : s.count.toNat ≤ s.params.maxCount) (hi : i < s.count.toNat) (hnone : code i = none)
    (hfirst : ∀ l, l < i → code l ≠ none) :
    s.packStream code e = (s.drawBytes (ceilDiv (s.count.toNat * s.cfg.n.toNat) 8)).raise e i := by
  rcases s.packStream_cases code e with ⟨hv', _⟩ | ⟨_, hc', _⟩ | ⟨_, _, j, hj, hnone', hfirst', heq⟩ |
    ⟨_, _, cs, _, hlen, hcs, _⟩
  · rw [hv] at hv'; cases hv'
  · omega
  · obtain rfl : i = j := by
      rcases Nat.lt_trichotomy i j with hlt | heq | hgt
      · exact absurd hnone (hfirst' i hlt)
      · exact heq
      · exact absurd hnone' (hfirst j hgt)
    exact heq
  · rw [hcs i hi, List.getElem?_eq_getElem (by omega)] at hnone
    cases hnone

/-- What a PACK or ENCODE that succeeds has found and done. -/
theorem State.packStream_succeeded (h : (s.packStream code e).status.err = false) :
    s.status.cfgValid = true ∧ s.count.toNat ≤ s.params.maxCount ∧
      ∃ cs : List Nat, cs.length = s.count.toNat ∧ (∀ j, j < s.count.toNat → code j = cs[j]?) ∧
        s.packStream code e = s.storePacked cs := by
  rcases s.packStream_cases code e with ⟨_, heq⟩ | ⟨_, _, heq⟩ | ⟨_, _, _, _, _, _, heq⟩ |
    ⟨hv, hc, cs, _, hlen, hcs, _⟩
  case inr.inr.inr => exact ⟨hv, hc, cs, hlen, hcs, State.packStream_of_codes hv hc hlen hcs⟩
  all_goals rw [heq] at h; cases h

end

/-! ### The sizes of a stream fit their registers -/

theorem toNat_ofNat_of_lt {w x : Nat} (hx : x < 2 ^ w) : (BitVec.ofNat w x).toNat = x :=
  (BitVec.toNat_ofNat x w).trans (Nat.mod_eq_of_lt hx)

section
variable {s : State} (h : s.Inv)
include h

theorem State.Inv.toNat_ofNat_of_le_maxBytes {x : Nat} (hx : x ≤ maxBytes s.params) :
    (BitVec.ofNat 32 x).toNat = x := by
  have hmax : s.params.maxCount ≤ 2 ^ 30 - 1 := (of_decide_eq_true h.params).2
  unfold maxBytes at hx
  exact toNat_ofNat_of_lt (by omega)

/-- The cursor after `k` codes, in `CUR_BYTE` and `CUR_BIT` (R29). -/
theorem State.Inv.toNat_cursor (hv : s.status.cfgValid = true) {k : Nat} (hk : k ≤ s.params.maxCount) :
    (BitVec.ofNat 32 (k * s.cfg.n.toNat / 8)).toNat = k * s.cfg.n.toNat / 8 ∧
    (BitVec.ofNat 32 (k * s.cfg.n.toNat % 8)).toNat = k * s.cfg.n.toNat % 8 :=
  ⟨h.toNat_ofNat_of_le_maxBytes (codeBytes_le hk (h.width_le hv)).1, toNat_ofNat_of_lt (by omega)⟩

/-- The length of `k` codes, in `BLEN` (R28). -/
theorem State.Inv.toNat_blen (hv : s.status.cfgValid = true) {k : Nat} (hk : k ≤ s.params.maxCount) :
    (BitVec.ofNat 32 (ceilDiv (k * s.cfg.n.toNat) 8)).toNat = ceilDiv (k * s.cfg.n.toNat) 8 :=
  h.toNat_ofNat_of_le_maxBytes (codeBytes_le hk (h.width_le hv)).2

/-- What PACK and ENCODE of the codes `cs` leave in `BLEN`, the cursor and `BBUF`. -/
theorem State.Inv.storePacked_spec (hv : s.status.cfgValid = true) (hc : s.count.toNat ≤ s.params.maxCount)
    {cs : List Nat} (hlen : cs.length = s.count.toNat) :
    (s.storePacked cs).blen.toNat = ceilDiv (s.count.toNat * s.cfg.n.toNat) 8 ∧
    (s.storePacked cs).curByte.toNat = s.count.toNat * s.cfg.n.toNat / 8 ∧
    (s.storePacked cs).curBit.toNat = s.count.toNat * s.cfg.n.toNat % 8 ∧
    (∀ k, k < (s.storePacked cs).blen.toNat → (s.storePacked cs).byteAt k = (serialize cs s.cfg.n.toNat).getD k 0) ∧
    ∀ k, (s.storePacked cs).blen.toNat ≤ k → (s.storePacked cs).byteAt k = s.byteAt k := by
  have hblen : (s.storePacked cs).blen.toNat = ceilDiv (s.count.toNat * s.cfg.n.toNat) 8 := h.toNat_blen hv hc
  obtain ⟨hbyte, hbit⟩ := h.toNat_cursor hv hc
  refine ⟨hblen, hbyte, hbit, fun k hk => ?_, fun k hk => ?_⟩
  · rw [State.byteAt_storePacked, hlen, if_pos (hblen ▸ hk)]
  · rw [State.byteAt_storePacked, hlen, if_neg (Nat.not_lt.mpr (hblen ▸ hk))]

end

/-! ### PACK -/

/-- What PACK takes for the code of element `i`: nothing where it has more than `N` bits (R77). -/
def State.packCode (s : State) (i : Nat) : Option Nat :=
  if 2 ^ s.cfg.n.toNat ≤ (s.codeAt i).toNat then none else some (s.codeAt i).toNat

theorem exec_pack (s : State) : exec .pack s = .next (s.packStream s.packCode .codeRange) := rfl

theorem State.packCode_eq_none_iff (s : State) (i : Nat) :
    s.packCode i = none ↔ 2 ^ s.cfg.n.toNat ≤ (s.codeAt i).toNat := by
  unfold State.packCode
  split <;> simp_all

theorem State.packCode_eq_some_iff (s : State) (i x : Nat) :
    s.packCode i = some x ↔ (s.codeAt i).toNat = x ∧ x < 2 ^ s.cfg.n.toNat := by
  unfold State.packCode
  split <;> simp <;> omega

/-- Settles O45: the codes are all there, and `storePacked_spec` says what is left. -/
theorem packSerializesCodes : Obligations.PackSerializesCodes := by
  intro s h hv hc hcodes
  have hlen : ((List.range s.count.toNat).map fun i => (s.codeAt i).toNat).length = s.count.toNat := by simp
  have hpack : exec .pack s = .next (s.storePacked ((List.range s.count.toNat).map fun i => (s.codeAt i).toNat)) := by
    rw [exec_pack, State.packStream_of_codes hv hc hlen fun j hj => ?_]
    rw [List.getElem?_map, List.getElem?_range hj]
    exact (s.packCode_eq_some_iff j _).mpr ⟨rfl, hcodes j hj⟩
  exact ⟨_, hpack, rfl, h.storePacked_spec hv hc hlen⟩

/-- Settles O46: beyond capacity nothing is packed; else the walk stops at the first code of more than `N` bits. -/
theorem packErrors : Obligations.PackErrors := by
  intro s hv
  constructor
  · intro hc i hi
    have hcap (code e) : s.packStream code e = s.raise .capacity 0 := State.packStream_capacity hv hc
    rcases List.mem_pair.mp hi with rfl | rfl
    · exact congrArg Outcome.next (hcap _ _)
    · exact congrArg Outcome.next (hcap _ _)
  · intro i hc hi hwide hfirst
    have hstop := State.packStream_of_missing (e := .codeRange) hv hc hi ((s.packCode_eq_none_iff i).mpr hwide)
      fun l hl hnone => Nat.not_le.mpr (hfirst l hl) ((s.packCode_eq_none_iff l).mp hnone)
    exact ⟨_, (exec_pack s).trans (congrArg Outcome.next hstop), rfl,
      toNat_ofNat_of_lt (hi.trans s.count.isLt), fun k hk => s.byteAt_drawBytes _ k hk⟩

/-! ### UNPACK and UNPACKI -/

/-- The state after UNPACK or UNPACKI of `k` codes (R78, R79), with `count` in `COUNT`; `exec_unpack_of_passed` and
`exec_unpacki_of_passed` tie it to the commands. -/
def State.deliverCodes (s : State) (k : Nat) (count : Word) : State :=
  ({ (s.storeCodes ((List.range k).map (deserializeCode s.byteAt s.cfg.n.toNat))).setCursor
    { byte := k * s.cfg.n.toNat / 8, off := k * s.cfg.n.toNat % 8 } with count := count } : State).complete

section
variable {s : State}

theorem exec_unpack_of_passed (h : s.unpackError = none) :
    exec .unpack s = .next (s.deliverCodes s.count.toNat s.count) := by
  rcases execUnpack_cases s with ⟨e, he, _⟩ | ⟨_, heq, _⟩
  · rw [h] at he; cases he
  · rw [s.unpackCodes_eq] at heq
    exact heq

theorem exec_unpacki_of_passed (h : s.inferError = none) : exec .unpacki s =
    .next (s.deliverCodes (inferCount s.blen.toNat s.cfg.n.toNat)
      (BitVec.ofNat 32 (inferCount s.blen.toNat s.cfg.n.toNat))) := by
  rcases execUnpacki_cases s with ⟨e, he, _⟩ | ⟨_, _, _, rfl, rfl, heq, _⟩
  · rw [h] at he; cases he
  · rw [s.unpackCodes_eq] at heq
    exact heq

theorem State.codeAt_deliverCodes (s : State) (k : Nat) (count : Word) (i : Nat) :
    (s.deliverCodes k count).codeAt i =
      if i < k then BitVec.ofNat 32 (deserializeCode s.byteAt s.cfg.n.toNat i) else s.codeAt i := by
  refine (s.codeAt_storeCodes _ i).trans ?_
  simp

/-- What UNPACK and UNPACKI of `k` codes leave in the cursor and `CBUF`. -/
theorem State.Inv.deliverCodes_spec (h : s.Inv) (hv : s.status.cfgValid = true) {k : Nat}
    (hk : k ≤ s.params.maxCount) (count : Word) :
    (s.deliverCodes k count).curByte.toNat = k * s.cfg.n.toNat / 8 ∧
    (s.deliverCodes k count).curBit.toNat = k * s.cfg.n.toNat % 8 ∧
    (∀ i, i < k → ((s.deliverCodes k count).codeAt i).toNat = deserializeCode s.byteAt s.cfg.n.toNat i) ∧
    ∀ i, k ≤ i → (s.deliverCodes k count).codeAt i = s.codeAt i := by
  obtain ⟨hbyte, hbit⟩ := h.toNat_cursor hv hk
  refine ⟨hbyte, hbit, fun i hi => ?_, fun i hi => ?_⟩
  · have hlt : deserializeCode s.byteAt s.cfg.n.toNat i < 2 ^ 32 :=
      lt_two_pow_of_le (deserializeCode_lt _ _ i) (h.width_le hv)
    rw [State.codeAt_deliverCodes, if_pos hi, toNat_ofNat_of_lt hlt]
  · rw [State.codeAt_deliverCodes, if_neg (Nat.not_lt.mpr hi)]

end

/-- Settles O47: the checks pass, and `deliverCodes_spec` says what is left. -/
theorem unpackDeserializesCodes : Obligations.UnpackDeserializesCodes := by
  intro s h hv hc hblen hcount hbits
  have hpass := s.unpackError_eq_none.mpr ⟨hv, hc, hblen, hcount, hbits⟩
  exact ⟨_, exec_unpack_of_passed hpass, rfl, h.deliverCodes_spec hv hc _⟩

/-- Settles O48: the checks pass, `deliverCodes_spec` says what is left, and the count fits its register. -/
theorem unpackiInfersAndDeserializes : Obligations.UnpackiInfersAndDeserializes := by
  rintro s _ h hv hblen rfl hcount hc
  have hpass := s.inferError_eq_none.mpr ⟨hv, hblen, hcount, hc⟩
  have hfits : 8 * s.blen.toNat / s.cfg.n.toNat ≤ maxBytes s.params := hc.trans (by unfold maxBytes; omega)
  exact ⟨_, exec_unpacki_of_passed hpass, rfl, h.toNat_ofNat_of_le_maxBytes hfits, h.deliverCodes_spec hv hc _⟩

/-! ### The errors of the commands that read packed codes -/

section
variable {s : State} {i : Instr} {e : ErrCode}

theorem exec_of_unpackError (he : s.unpackError = some e) (hi : i ∈ [Instr.unpack, .decode]) :
    exec i s = .next (s.raise e 0) := by
  rcases execUnpack_cases s with ⟨e', he', hunpack, hdecode⟩ | ⟨hnone, _⟩
  · obtain rfl := Option.some.inj (he.symm.trans he')
    rcases List.mem_pair.mp hi with rfl | rfl
    · exact hunpack
    · exact hdecode
  · rw [he] at hnone; cases hnone

theorem exec_of_inferError (he : s.inferError = some e) (hi : i ∈ [Instr.unpacki, .decodei]) :
    exec i s = .next (s.raise e 0) := by
  rcases execUnpacki_cases s with ⟨e', he', hunpacki, hdecodei⟩ | ⟨hnone, _⟩
  · obtain rfl := Option.some.inj (he.symm.trans he')
    rcases List.mem_pair.mp hi with rfl | rfl
    · exact hunpacki
    · exact hdecodei
  · rw [he] at hnone; cases hnone

end

/-- The number that the checks of a command report, 0 where they pass (R85). -/
def errNumber : Option ErrCode → BitVec 8
  | none => 0
  | some e => e.code

theorem exists_eq_some_of_errNumber_ne_zero {o : Option ErrCode} (h : errNumber o ≠ 0) :
    ∃ e, o = some e ∧ e.code = errNumber o := by
  cases o with
  | none => exact absurd rfl h
  | some e => exact ⟨e, rfl, rfl⟩

theorem State.errNumber_unpackError {s : State} (hv : s.status.cfgValid = true) : errNumber s.unpackError =
    if s.params.maxCount < s.count.toNat ∨ maxBytes s.params < s.blen.toNat then 8
    else if s.count.toNat = 0 then 3
    else if 8 * s.blen.toNat < s.count.toNat * s.cfg.n.toNat then 2 else 0 := by
  rw [State.unpackError, if_neg (by rw [hv]; decide), apply_ite errNumber, apply_ite errNumber, apply_ite errNumber]
  rfl

theorem State.errNumber_inferError {s : State} (hv : s.status.cfgValid = true) : errNumber s.inferError =
    if maxBytes s.params < s.blen.toNat then 8
    else if 8 * s.blen.toNat / s.cfg.n.toNat = 0 then 3
    else if s.params.maxCount < 8 * s.blen.toNat / s.cfg.n.toNat then 8 else 0 := by
  rw [State.inferError, if_neg (by rw [hv]; decide), apply_ite errNumber, apply_ite errNumber, apply_ite errNumber]
  rfl

/-- Settles O49: the number is that of the first failing check, and the command raises it. -/
theorem unpackErrorPriority : Obligations.UnpackErrorPriority := by
  refine fun s i e hv he => ⟨fun hi hnum => ?_, fun hi hnum => ?_⟩
  · rw [← State.errNumber_unpackError hv] at hnum
    subst hnum
    obtain ⟨x, hx, hcode⟩ := exists_eq_some_of_errNumber_ne_zero he
    rw [exec_of_unpackError hx hi, ← hcode]
    rfl
  · rw [← State.errNumber_inferError hv] at hnum
    subst hnum
    obtain ⟨x, hx, hcode⟩ := exists_eq_some_of_errNumber_ne_zero he
    rw [exec_of_inferError hx hi, ← hcode]
    rfl

/-! ### Round trip -/

section
variable {s : State} {cs : List Nat}

/-- The codes that UNPACK and UNPACKI deliver from what PACK or ENCODE wrote. -/
theorem State.codeAt_deliverCodes_storePacked (count : Word) {i : Nat} (hi : i < cs.length)
    (hcode : cs[i] < 2 ^ s.cfg.n.toNat) :
    ((s.storePacked cs).deliverCodes cs.length count).codeAt i = BitVec.ofNat 32 cs[i] := by
  have hread : deserializeCode (s.storePacked cs).byteAt s.cfg.n.toNat i = cs[i] :=
    deserializeCode_serialize hi hcode fun k hk => by rw [State.byteAt_storePacked, if_pos hk]
  rw [State.codeAt_deliverCodes, if_pos hi]
  exact congrArg (BitVec.ofNat 32) hread

variable (h : s.Inv) (hv : s.status.cfgValid = true) (hc : s.count.toNat ≤ s.params.maxCount)
include h hv hc

/-- The checks of UNPACK and DECODE pass on what PACK or ENCODE wrote. -/
theorem State.Inv.unpackError_storePacked (hcount : s.count.toNat ≠ 0) : (s.storePacked cs).unpackError = none := by
  have hblen : (s.storePacked cs).blen.toNat = ceilDiv (s.count.toNat * s.cfg.n.toNat) 8 := h.toNat_blen hv hc
  refine (State.unpackError_eq_none _).mpr ⟨hv, hc, ?_, hcount, ?_⟩
  · rw [hblen]
    exact (codeBytes_le hc (h.width_le hv)).2
  · rw [hblen]
    exact le_mul_ceilDiv _

/-- The count inferred from what PACK or ENCODE wrote is the count packed (R76). -/
theorem State.Inv.inferCount_storePacked :
    inferCount (s.storePacked cs).blen.toNat (s.storePacked cs).cfg.n.toNat = s.count.toNat := by
  have hblen : (s.storePacked cs).blen.toNat = ceilDiv (s.count.toNat * s.cfg.n.toNat) 8 := h.toNat_blen hv hc
  rw [hblen]
  exact inferredCountIsPackedCount _ _ (CodecConfig.width_of_wf (h.valid hv)).1

/-- The checks of UNPACKI and DECODEI pass on what PACK or ENCODE wrote. -/
theorem State.Inv.inferError_storePacked (hcount : s.count.toNat ≠ 0) : (s.storePacked cs).inferError = none := by
  obtain ⟨_, _, hblen, _⟩ := (State.unpackError_eq_none _).mp (h.unpackError_storePacked (cs := cs) hv hc hcount)
  have hinfer := h.inferCount_storePacked (cs := cs) hv hc
  exact (State.inferError_eq_none _).mpr ⟨hv, hblen, hinfer.trans_ne hcount, hinfer.trans_le hc⟩

end

/-- Settles O50: PACK stores codes of at most `N` bits, and `deserializeCode_serialize` reads them back. -/
theorem packUnpackRoundTrip : Obligations.PackUnpackRoundTrip := by
  intro s t h hexec herr hcount
  obtain rfl := Outcome.next.inj ((exec_pack s).symm.trans hexec)
  obtain ⟨hv, hc, cs, hlen, hcs, heq⟩ := State.packStream_succeeded herr
  rw [heq]
  have hback (count : Word) (i : Nat) (hi : i < s.count.toNat) :
      ((s.storePacked cs).deliverCodes s.count.toNat count).codeAt i = s.codeAt i := by
    have hi' : i < cs.length := hlen.symm ▸ hi
    obtain ⟨hcode, hlt⟩ := (s.packCode_eq_some_iff i _).mp ((hcs i hi).trans (List.getElem?_eq_getElem hi'))
    rw [← hlen, State.codeAt_deliverCodes_storePacked count hi' hlt, ← hcode, BitVec.ofNat_toNat, BitVec.setWidth_eq]
  have hunpacki := exec_unpacki_of_passed (h.inferError_storePacked (cs := cs) hv hc hcount)
  rw [h.inferCount_storePacked hv hc] at hunpacki
  have hcountBack : BitVec.ofNat 32 s.count.toNat = s.count := by rw [BitVec.ofNat_toNat, BitVec.setWidth_eq]
  exact ⟨⟨_, exec_unpack_of_passed (h.unpackError_storePacked hv hc hcount), rfl, hback _⟩,
    ⟨_, hunpacki, rfl, hcountBack, hback _⟩⟩

/-! ### The packer and the configuration -/

/-- The state with another active configuration in place. -/
def State.withCfg (s : State) (c : CodecConfig) : State := { s with cfg := c }

section
variable {s : State} {c : CodecConfig} (hn : c.n = s.cfg.n)
include hn

theorem State.packStream_withCfg (code : Nat → Option Nat) (e : ErrCode) :
    (s.withCfg c).packStream code e = (s.packStream code e).withCfg c := by
  have hn' : (s.withCfg c).cfg.n = s.cfg.n := hn
  rcases s.packStream_cases code e with ⟨hv, heq⟩ | ⟨hv, hc, heq⟩ | ⟨hv, hc, i, hi, hnone, hfirst, heq⟩ |
    ⟨hv, hc, cs, _, hlen, hcs, _⟩
  · rw [heq, State.packStream_notConfigured (s := s.withCfg c) hv]
    rfl
  · rw [heq, State.packStream_capacity (s := s.withCfg c) hv hc]
    rfl
  · rw [heq, State.packStream_of_missing (s := s.withCfg c) hv hc hi hnone hfirst, hn']
    rfl
  · rw [State.packStream_of_codes hv hc hlen hcs, State.packStream_of_codes (s := s.withCfg c) hv hc hlen hcs,
      State.storePacked, hn']
    rfl

theorem State.packCode_withCfg : (s.withCfg c).packCode = s.packCode := by
  funext i
  rw [State.packCode, State.packCode, show (s.withCfg c).cfg.n = s.cfg.n from hn]
  rfl

theorem State.unpackError_withCfg : (s.withCfg c).unpackError = s.unpackError := by
  rw [State.unpackError, State.unpackError, show (s.withCfg c).cfg.n = s.cfg.n from hn]
  rfl

theorem State.inferError_withCfg : (s.withCfg c).inferError = s.inferError := by
  rw [State.inferError, State.inferError, show (s.withCfg c).cfg.n = s.cfg.n from hn]
  rfl

theorem State.deliverCodes_withCfg (k : Nat) (count : Word) :
    (s.withCfg c).deliverCodes k count = (s.deliverCodes k count).withCfg c := by
  rw [State.deliverCodes, State.deliverCodes, show (s.withCfg c).cfg.n = s.cfg.n from hn]
  rfl

theorem exec_pack_withCfg : exec .pack (s.withCfg c) = .next ((s.packStream s.packCode .codeRange).withCfg c) := by
  rw [exec_pack, State.packStream_withCfg hn, State.packCode_withCfg hn]

theorem exec_unpack_withCfg {t : State} (h : exec .unpack s = .next t) :
    exec .unpack (s.withCfg c) = .next (t.withCfg c) := by
  have herr := State.unpackError_withCfg hn
  cases he : s.unpackError with
  | some e =>
    obtain rfl := Outcome.next.inj ((exec_of_unpackError he (by decide)).symm.trans h)
    exact exec_of_unpackError (herr.trans he) (by decide)
  | none =>
    obtain rfl := Outcome.next.inj ((exec_unpack_of_passed he).symm.trans h)
    rw [exec_unpack_of_passed (herr.trans he), State.deliverCodes_withCfg hn]
    rfl

theorem exec_unpacki_withCfg {t : State} (h : exec .unpacki s = .next t) :
    exec .unpacki (s.withCfg c) = .next (t.withCfg c) := by
  have herr := State.inferError_withCfg hn
  cases he : s.inferError with
  | some e =>
    obtain rfl := Outcome.next.inj ((exec_of_inferError he (by decide)).symm.trans h)
    exact exec_of_inferError (herr.trans he) (by decide)
  | none =>
    obtain rfl := Outcome.next.inj ((exec_unpacki_of_passed he).symm.trans h)
    rw [exec_unpacki_of_passed (herr.trans he), State.deliverCodes_withCfg hn,
      show (s.withCfg c).cfg.n = s.cfg.n from hn]
    rfl

end

/-- Settles O51: each of the three reads the width alone, so it commutes with another configuration of that width. -/
theorem packerDependsOnlyOnWidth : Obligations.PackerDependsOnlyOnWidth := by
  intro s t c i hi hn h
  simp only [List.mem_cons, List.not_mem_nil, or_false] at hi
  rcases hi with rfl | rfl | rfl
  · obtain rfl := Outcome.next.inj ((exec_pack s).symm.trans h)
    exact exec_pack_withCfg hn
  · exact exec_unpack_withCfg hn h
  · exact exec_unpacki_withCfg hn h

end Sys2Proof.Machine

/-! The codec (43_codec): the quantizer and the packer composed. ENCODE leaves the state `State.storePacked` of the
quantized values, as PACK does of its codes; DECODE and DECODEI leave `State.deliverValues`. Both are tied to the
commands by a lemma, and the round trip reads the packed codes back with `deserializeCode_serialize`. -/

namespace Sys2Proof.Machine

open Host (Outcome)

/-! ### ENCODE -/

/-- What ENCODE takes for the code of element `i`: nothing for a NaN (R66, R81). -/
def State.encodeCode (s : State) (i : Nat) : Option Nat := quantEncode s.params.fmt s.cfg (s.valueAt i)

theorem exec_encode (s : State) : exec .encode s = .next (s.packStream s.encodeCode .invalidInput) := rfl

theorem State.encodeCode_eq_none_iff (s : State) (i : Nat) :
    s.encodeCode i = none ↔ Fp.isNan s.params.fmt (s.valueAt i) = true := quantEncode_eq_none _ _ _

theorem State.encodeCode_ne_none_iff (s : State) (i : Nat) :
    s.encodeCode i ≠ none ↔ Fp.isNan s.params.fmt (s.valueAt i) = false := by
  rw [ne_eq, State.encodeCode_eq_none_iff, Bool.not_eq_true]

section
variable {s : State}

/-- Where every element has a code, PACK or ENCODE packs these codes. -/
theorem State.packStream_of_no_missing {code : Nat → Option Nat} {e : ErrCode} (hv : s.status.cfgValid = true)
    (hc : s.count.toNat ≤ s.params.maxCount) (hsome : ∀ j, j < s.count.toNat → code j ≠ none) :
    ∃ cs : List Nat, cs.length = s.count.toNat ∧ (∀ j, j < s.count.toNat → code j = cs[j]?) ∧
      s.packStream code e = s.storePacked cs := by
  rcases s.packStream_cases code e with ⟨hv', _⟩ | ⟨_, hc', _⟩ | ⟨_, _, j, hj, hnone, _⟩ |
    ⟨_, _, cs, _, hlen, hcs, _⟩
  · rw [hv] at hv'; cases hv'
  · omega
  · exact absurd hnone (hsome j hj)
  · exact ⟨cs, hlen, hcs, State.packStream_of_codes hv hc hlen hcs⟩

theorem map_range_eq_map_some {code : Nat → Option Nat} {cs : List Nat} {k : Nat} (hlen : cs.length = k)
    (hcs : ∀ j, j < k → code j = cs[j]?) : (List.range k).map code = cs.map some := by
  refine List.ext_getElem (by simp [hlen]) fun j hj hj' => ?_
  rw [List.length_map] at hj'
  rw [List.getElem_map, List.getElem_map, List.getElem_range, hcs j (hlen ▸ hj'), List.getElem?_eq_getElem hj']

/-- A quantized value has at most `N` bits under a valid configuration (R66). -/
theorem State.Inv.encodeCode_lt (h : s.Inv) (hv : s.status.cfgValid = true) {i r : Nat}
    (hcode : s.encodeCode i = some r) : r < 2 ^ s.cfg.n.toNat := by
  have hnan := (s.encodeCode_ne_none_iff i).mp (hcode ▸ Option.some_ne_none r)
  obtain ⟨hfits, _⟩ := quantEncodeFitsWidthAndClamps s.params.fmt s.cfg (s.valueAt i) (h.valid hv)
  obtain ⟨r', hr', hlt⟩ := hfits hnan
  obtain rfl := Option.some.inj (hcode.symm.trans hr')
  exact hlt

end

/-- Settles O52: without a NaN the codes are all there, and `storePacked_spec` says what is left. -/
theorem encodePacksQuantizedValues : Obligations.EncodePacksQuantizedValues := by
  intro s h hv hc hnan
  obtain ⟨cs, hlen, hcs, heq⟩ := State.packStream_of_no_missing (code := s.encodeCode) (e := .invalidInput) hv hc
    fun j hj => (s.encodeCode_ne_none_iff j).mpr (hnan j hj)
  exact ⟨_, cs, (exec_encode s).trans (congrArg Outcome.next heq), rfl, map_range_eq_map_some hlen hcs,
    h.storePacked_spec hv hc hlen⟩

/-- Settles O53: the first NaN is the first element without a code, where the walk stops. -/
theorem encodeStopsAtFirstNan : Obligations.EncodeStopsAtFirstNan := by
  intro s i hv hc hi hnan hfirst
  have hstop := State.packStream_of_missing (e := .invalidInput) hv hc hi ((s.encodeCode_eq_none_iff i).mpr hnan)
    fun l hl => (s.encodeCode_ne_none_iff l).mpr (hfirst l hl)
  exact ⟨_, (exec_encode s).trans (congrArg Outcome.next hstop), rfl,
    toNat_ofNat_of_lt (hi.trans s.count.isLt), fun k hk => s.byteAt_drawBytes _ k hk⟩

/-! ### DECODE and DECODEI -/

/-- The state after DECODE or DECODEI of `k` codes (R82, R83), with `count` in `COUNT`; `exec_decode_of_passed` and
`exec_decodei_of_passed` tie it to the commands. -/
def State.deliverValues (s : State) (k : Nat) (count : Word) : State :=
  ({ (s.storeValues ((List.range k).map (deserializeCode s.byteAt s.cfg.n.toNat))).setCursor
    { byte := k * s.cfg.n.toNat / 8, off := k * s.cfg.n.toNat % 8 } with count := count } : State).complete

section
variable {s : State}

theorem exec_decode_of_passed (h : s.unpackError = none) :
    exec .decode s = .next (s.deliverValues s.count.toNat s.count) := by
  rcases execUnpack_cases s with ⟨e, he, _⟩ | ⟨_, _, heq⟩
  · rw [h] at he; cases he
  · rw [s.unpackCodes_eq] at heq
    exact heq

theorem exec_decodei_of_passed (h : s.inferError = none) : exec .decodei s =
    .next (s.deliverValues (inferCount s.blen.toNat s.cfg.n.toNat)
      (BitVec.ofNat 32 (inferCount s.blen.toNat s.cfg.n.toNat))) := by
  rcases execUnpacki_cases s with ⟨e, he, _⟩ | ⟨_, _, _, rfl, rfl, _, heq⟩
  · rw [h] at he; cases he
  · rw [s.unpackCodes_eq] at heq
    exact heq

theorem State.valueAt_deliverValues (s : State) (k : Nat) (count : Word) (i : Nat) :
    (s.deliverValues k count).valueAt i =
      if i < k then dequantize s.params.fmt s.cfg (deserializeCode s.byteAt s.cfg.n.toNat i) else s.valueAt i := by
  refine (s.valueAt_storeValues _ i).trans ?_
  simp

/-- A delivered value is that of its code, which has at most `N` bits and so is in range (R67, R73). -/
theorem State.quantDecode_deliverValues {k i : Nat} (count : Word) (hi : i < k) :
    quantDecode s.params.fmt s.cfg (deserializeCode s.byteAt s.cfg.n.toNat i) =
      some ((s.deliverValues k count).valueAt i) := by
  rw [quantDecode_of_lt (deserializeCode_lt _ _ i), State.valueAt_deliverValues, if_pos hi]

/-- What DECODE and DECODEI of `k` codes leave in the cursor and `VBUF`. -/
theorem State.Inv.deliverValues_spec (h : s.Inv) (hv : s.status.cfgValid = true) {k : Nat}
    (hk : k ≤ s.params.maxCount) (count : Word) :
    (s.deliverValues k count).curByte.toNat = k * s.cfg.n.toNat / 8 ∧
    (s.deliverValues k count).curBit.toNat = k * s.cfg.n.toNat % 8 ∧
    (∀ i, i < k → quantDecode s.params.fmt s.cfg (deserializeCode s.byteAt s.cfg.n.toNat i) =
      some ((s.deliverValues k count).valueAt i)) ∧
    ∀ i, k ≤ i → (s.deliverValues k count).valueAt i = s.valueAt i := by
  obtain ⟨hbyte, hbit⟩ := h.toNat_cursor hv hk
  refine ⟨hbyte, hbit, fun i hi => State.quantDecode_deliverValues count hi, fun i hi => ?_⟩
  rw [State.valueAt_deliverValues, if_neg (Nat.not_lt.mpr hi)]

end

/-- Settles O54: the checks pass, and `deliverValues_spec` says what is left. -/
theorem decodeDequantizesCodes : Obligations.DecodeDequantizesCodes := by
  intro s h hv hc hblen hcount hbits
  have hpass := s.unpackError_eq_none.mpr ⟨hv, hc, hblen, hcount, hbits⟩
  exact ⟨_, exec_decode_of_passed hpass, rfl, h.deliverValues_spec hv hc _⟩

/-- Settles O55: the checks pass, `deliverValues_spec` says what is left, and the count fits its register. -/
theorem decodeiInfersAndDequantizes : Obligations.DecodeiInfersAndDequantizes := by
  rintro s _ h hv hblen rfl hcount hc
  have hpass := s.inferError_eq_none.mpr ⟨hv, hblen, hcount, hc⟩
  have hfits : 8 * s.blen.toNat / s.cfg.n.toNat ≤ maxBytes s.params := hc.trans (by unfold maxBytes; omega)
  exact ⟨_, exec_decodei_of_passed hpass, rfl, h.toNat_ofNat_of_le_maxBytes hfits, h.deliverValues_spec hv hc _⟩

/-! ### Round trip -/

@[simp] theorem State.storePacked_params (s : State) (cs : List Nat) : (s.storePacked cs).params = s.params := rfl
@[simp] theorem State.storePacked_cfg (s : State) (cs : List Nat) : (s.storePacked cs).cfg = s.cfg := rfl

/-- The values that DECODE and DECODEI deliver from what PACK or ENCODE wrote are those of the codes packed. -/
theorem State.quantDecode_deliverValues_storePacked {s : State} {cs : List Nat} {k i : Nat} (count : Word) (hk : i < k)
    (hi : i < cs.length) (hcode : cs[i] < 2 ^ s.cfg.n.toNat) :
    quantDecode s.params.fmt s.cfg cs[i] = some (((s.storePacked cs).deliverValues k count).valueAt i) := by
  have hread : deserializeCode (s.storePacked cs).byteAt s.cfg.n.toNat i = cs[i] :=
    deserializeCode_serialize hi hcode fun j hj => by rw [State.byteAt_storePacked, if_pos hj]
  have hvalue := State.quantDecode_deliverValues (s := s.storePacked cs) count hk
  rwa [State.storePacked_params, State.storePacked_cfg, hread] at hvalue

/-- Settles O56: ENCODE packs codes of at most `N` bits, which DECODE and DECODEI read back and dequantize. -/
theorem encodeDecodeRoundTrip : Obligations.EncodeDecodeRoundTrip := by
  intro s t h hexec herr hcount
  obtain rfl := Outcome.next.inj ((exec_encode s).symm.trans hexec)
  obtain ⟨hv, hc, cs, hlen, hcs, heq⟩ := State.packStream_succeeded herr
  rw [heq]
  have hback (count : Word) (i : Nat) (hi : i < s.count.toNat) : ∃ r, s.encodeCode i = some r ∧
      quantDecode s.params.fmt s.cfg r =
        some (((s.storePacked cs).deliverValues s.count.toNat count).valueAt i) := by
    have hi' : i < cs.length := hlen.symm ▸ hi
    have hcode : s.encodeCode i = some cs[i] := (hcs i hi).trans (List.getElem?_eq_getElem hi')
    exact ⟨_, hcode, State.quantDecode_deliverValues_storePacked count hi hi' (h.encodeCode_lt hv hcode)⟩
  have hdecodei := exec_decodei_of_passed (h.inferError_storePacked (cs := cs) hv hc hcount)
  rw [h.inferCount_storePacked hv hc] at hdecodei
  have hcountBack : BitVec.ofNat 32 s.count.toNat = s.count := by rw [BitVec.ofNat_toNat, BitVec.setWidth_eq]
  exact ⟨⟨_, exec_decode_of_passed (h.unpackError_storePacked hv hc hcount), rfl, hback _⟩,
    ⟨_, hdecodei, rfl, hcountBack, hback _⟩⟩

end Sys2Proof.Machine

/-! The outcome of every command (60_exceptions): what a completion reports in `STATUS` and `ERRIDX`, and what a command
that fails leaves. Success and failure are read off `Completion`; which error may come with unspecified bytes is read
off `State.packStream_cases`. -/

namespace Sys2Proof.Machine

open Host (Outcome)

/-! ### The outcome that a command reports -/

/-- What every completed command reports (R86, with R20 for `ERRIDX`); `complete_completed` and `raise_completed` tie it
to the two completions of the model. -/
def State.Completed (s : State) : Prop :=
  s.status.busy = false ∧ (s.status.err = true ↔ s.status.ecode ≠ 0) ∧ s.status.ecode.toNat ≤ 8 ∧
  (s.errIdx ≠ 0 → s.status.ecode = 5 ∨ s.status.ecode = 6)

theorem State.complete_completed (s : State) : s.complete.Completed :=
  ⟨rfl, by simp, by simp, fun hne => absurd rfl hne⟩

/-- Only the errors of an element may come with an index. -/
theorem State.raise_completed (s : State) {e : ErrCode} {j : Nat} (he : j = 0 ∨ e = .codeRange ∨ e = .invalidInput) :
    (s.raise e j).Completed := by
  refine ⟨rfl, by simpa using e.code_ne_zero, e.code_le, fun hne => ?_⟩
  rcases he with rfl | rfl | rfl
  · exact absurd rfl hne
  · exact .inr rfl
  · exact .inl rfl

theorem Completion.completed {s t : State} {i : Instr} (h : Completion s i t) : t.Completed := by
  cases h with
  | failed _ e => exact s.raise_completed (.inl rfl)
  | stopped _ e j _ he => exact State.raise_completed _ (.inr he)
  | _ => exact State.complete_completed _

/-- Settles O20: a command has a next state, and each kind of completion reports such an outcome. -/
theorem everyCommandCompletes : Obligations.EveryCommandCompletes := by
  intro i s
  obtain ⟨t, ht⟩ := exec_isNext i s
  exact ⟨t, ht, (completion_of_exec ht).completed⟩

/-! ### The frame of a failure -/

/-- A PACK or ENCODE that fails has raised an error at once, or stopped at an element without a code. -/
theorem State.packStream_failed {s : State} {code : Nat → Option Nat} {e : ErrCode}
    (h : (s.packStream code e).status.err = true) :
    (∃ e', s.packStream code e = s.raise e' 0) ∨
    ∃ j, s.packStream code e = (s.drawBytes (ceilDiv (s.count.toNat * s.cfg.n.toNat) 8)).raise e j := by
  rcases s.packStream_cases code e with ⟨_, heq⟩ | ⟨_, _, heq⟩ | ⟨_, _, j, _, _, _, heq⟩ | ⟨_, _, _, _, _, _, _, _, heq⟩
  · exact .inl ⟨_, heq⟩
  · exact .inl ⟨_, heq⟩
  · exact .inr ⟨j, heq⟩
  · rw [heq] at h; cases h

/-- What a command that fails has done (R87): of all errors, only CODE_RANGE of PACK and INVALID_INPUT of ENCODE come with
unspecified bytes. -/
theorem exec_failed {i : Instr} {s t : State} (h : exec i s = .next t) (herr : t.status.err = true) :
    (∃ e, t = s.raise e 0) ∨
    ∃ e j, ((i = .pack ∧ e = ErrCode.codeRange) ∨ (i = .encode ∧ e = ErrCode.invalidInput)) ∧
      t = (s.drawBytes (ceilDiv (s.count.toNat * s.cfg.n.toNat) 8)).raise e j := by
  by_cases hi : i ∈ [Instr.pack, .encode]
  · rcases List.mem_pair.mp hi with rfl | rfl
    · obtain rfl := Outcome.next.inj ((exec_pack s).symm.trans h)
      exact (State.packStream_failed herr).imp_right fun ⟨j, heq⟩ => ⟨_, j, .inl ⟨rfl, rfl⟩, heq⟩
    · obtain rfl := Outcome.next.inj ((exec_encode s).symm.trans h)
      exact (State.packStream_failed herr).imp_right fun ⟨j, heq⟩ => ⟨_, j, .inr ⟨rfl, rfl⟩, heq⟩
  · cases completion_of_exec h with
    | failed _ e => exact .inl ⟨e, rfl⟩
    | stopped _ _ _ hmem => exact absurd hmem hi
    | _ => cases herr

/-- Settles O22: an error raised at once is the first alternative, a stop of PACK or ENCODE the second, where the draw
of bytes ends at `ceil_div(COUNT * N, 8)`. -/
theorem failedCommandFrame : Obligations.FailedCommandFrame := by
  intro i s t h herr
  rcases exec_failed h herr with ⟨e, rfl⟩ | ⟨e, j, hie, rfl⟩
  · exact ⟨rfl, .inl rfl⟩
  · have hcode : (i = .pack ∧ e.code = 6) ∨ (i = .encode ∧ e.code = 5) :=
      hie.imp (.imp_right (congrArg ErrCode.code)) (.imp_right (congrArg ErrCode.code))
    exact ⟨rfl, .inr ⟨hcode, rfl, s.byteAt_drawBytes _⟩⟩

/-! ### The idle engine -/

theorem engineTurn_of_idle {s : State} (hb : s.status.busy = false) : engineTurn s = .next s := by
  rw [engineTurn, if_neg (by rw [hb]; decide)]

/-- Settles O5: with no event left and at an event of its own, the step is the turn of an idle engine. -/
theorem idleEngineKeepsState : Obligations.IdleEngineKeepsState := fun _ hb =>
  ⟨fun hs => (step_nil hs).trans (engineTurn_of_idle hb), fun _ hs => (step_engine hs).trans (engineTurn_of_idle hb)⟩

/-! ### Commands without a configuration -/

section
variable {s : State} (hv : s.status.cfgValid = false)
include hv

theorem State.unpackError_notConfigured : s.unpackError = some .notConfigured := if_pos hv

theorem State.inferError_notConfigured : s.inferError = some .notConfigured := if_pos hv

/-- The check of R85 for a configuration is the first of every command but CFG (R88). -/
theorem exec_notConfigured {i : Instr} (hi : i ≠ .cfg) : exec i s = .next (s.raise .notConfigured 0) := by
  cases i with
  | cfg => exact absurd rfl hi
  | qenc => exact if_pos hv
  | qdec => exact if_pos hv
  | pack => rw [exec_pack, State.packStream_notConfigured hv]
  | encode => rw [exec_encode, State.packStream_notConfigured hv]
  | unpack | decode => exact exec_of_unpackError (State.unpackError_notConfigured hv) (by decide)
  | unpacki | decodei => exact exec_of_inferError (State.inferError_notConfigured hv) (by decide)

end

/-- Settles O24: NOT_CONFIGURED is raised with index 0. -/
theorem notConfiguredComesFirst : Obligations.NotConfiguredComesFirst := fun _ _ hi hv => exec_notConfigured hv hi

end Sys2Proof.Machine

/-! Reset and the host protocol (70_reset_and_hazards). A step either takes the next event, and then the other events keep
the protocol exactly when all did before, or it is a violation (`step_takesEvent_or_violates`). Whether a run meets a fault
follows by an induction on the steps one way and on the events the other. -/

namespace Sys2Proof.Machine

/-! ### Reset -/

/-- The draws, the events and the reads that reset does not take from `resetOf` are no registers. -/
theorem State.readNumber_assertReset (s : State) (num : BitVec 6) :
    s.assertReset.readNumber num = (State.resetOf s.params).readNumber num := by
  rcases Reg.ofNumber_cases num with hn | ⟨r, rfl⟩
  · rw [State.readNumber_reserved _ hn, State.readNumber_reserved _ hn]
  · rw [State.readNumber_number, State.readNumber_number]
    cases r <;> rfl

/-- Settles O17: the step is `assertReset`, which reads as R33 says by `resetRegisterValues`. -/
theorem resetAtAnyTime : Obligations.ResetAtAnyTime := fun s _ hs =>
  ⟨_, step_reset hs, fun num => (State.readNumber_assertReset _ num).trans (resetRegisterValues s.params num).1,
    rfl, rfl, rfl, rfl, rfl, rfl, rfl, rfl⟩

/-! ### Violations of the host protocol -/

/-- A run ends with the fault of its first step. -/
theorem run_succ_of_fault {M : Host.Core} {s : M.State} {r : M.Fault} (k : Nat) (h : M.step s = .fault r) :
    M.run (k + 1) s = .fault r := by
  rw [Host.Core.run, h]

theorem isStatusRead_eq_false_iff (a : Access) : isStatusRead a = false ↔ a ≠ .regRead Reg.status.number :=
  beq_eq_false_iff_ne

section
variable {s : State} {a : Access} {sp : Space} {i : Nat} {rest : List Event}

theorem hostAccess_outOfRange (hb : s.status.busy = false) (hi : capacity s.params sp ≤ i)
    (ha : a = .bufRead sp i ∨ ∃ v, a = .bufWrite sp i v) : hostAccess a s = .fault (.hostIndex sp i) := by
  rw [hostAccess.eq_def, hb, Bool.false_and, if_neg Bool.false_ne_true]
  obtain rfl | ⟨v, rfl⟩ := ha <;> exact if_neg hi.not_gt

theorem step_of_busy_violation (hb : s.status.busy = true) (ha : a ≠ .regRead Reg.status.number)
    (h : s.script = .access a :: rest) : step s = .fault (.hostBusy a) :=
  (step_access h).trans (hostAccess_busy hb ((isStatusRead_eq_false_iff a).mpr ha))

theorem step_of_outOfRange (hb : s.status.busy = false) (hi : capacity s.params sp ≤ i)
    (ha : a = .bufRead sp i ∨ ∃ v, a = .bufWrite sp i v) (h : s.script = .access a :: rest) :
    step s = .fault (.hostIndex sp i) :=
  (step_access h).trans (hostAccess_outOfRange hb hi ha)

end

/-- Settles O11: the step of a violation is a fault, and `run_succ_of_fault` keeps it. -/
theorem hostViolationIsStickyFault : Obligations.HostViolationIsStickyFault := by
  refine fun s a rest hs => ⟨?_, fun hb ha k => ?_, fun sp i hb hi ha k => ?_⟩
  · rintro - rfl
    exact step_rd_status hs
  · exact run_succ_of_fault (M := Sys2Proof.core) k (step_of_busy_violation hb ha hs)
  · exact run_succ_of_fault (M := Sys2Proof.core) k (step_of_outOfRange hb hi ha hs)

/-! ### The protocol decides whether a run meets a fault -/

section
variable {p : Params} {busy : Bool} {a : Access} {sp : Space} {i : Nat} {rest : List Event}

theorem hostProtocol_of_busy_violation (ha : a ≠ .regRead Reg.status.number) :
    hostProtocol p true (.access a :: rest) = false := by
  cases a with
  | regRead num =>
    have hnum : (num == Reg.status.number) = false := beq_eq_false_iff_ne.mpr fun h => ha (h ▸ rfl)
    rw [hostProtocol, hnum]
    rfl
  | regWrite | bufWrite | bufRead => rfl

theorem hostProtocol_of_outOfRange (hi : capacity p sp ≤ i) (ha : a = .bufRead sp i ∨ ∃ v, a = .bufWrite sp i v) :
    hostProtocol p busy (.access a :: rest) = false := by
  obtain rfl | ⟨v, rfl⟩ := ha <;> simp [hostProtocol, hi]

end

/-- Of the registers only `CMD` starts a command (R18). -/
theorem State.writeNumber_busy (s : State) (num : BitVec 6) (v : Datum) :
    (s.writeNumber num v).status.busy = (num == Reg.cmd.number || s.status.busy) := by
  rcases Reg.ofNumber_cases num with hn | ⟨r, rfl⟩
  · have hne : num ≠ Reg.cmd.number := by rintro rfl; cases hn
    rw [State.writeNumber_reserved _ _ hn, beq_eq_false_iff_ne.mpr hne, Bool.false_or]
  · rw [State.writeNumber_number]
    cases r <;> rfl

/-- The engine's turn always ends idle: a command completes, an illegal word too, and an idle engine stays so. -/
theorem engineTurn_ends_idle (s : State) : ∃ t, engineTurn s = .next t ∧ t.params = s.params ∧ t.script = s.script ∧
    t.status.busy = false := by
  cases hb : s.status.busy with
  | false => exact ⟨s, engineTurn_of_idle hb, rfl, rfl, hb⟩
  | true =>
    cases hd : decode s.cmd with
    | error e => exact ⟨_, engineTurn_of_illegal hb hd, rfl, rfl, rfl⟩
    | ok i =>
      obtain ⟨t, ht⟩ := exec_isNext i s
      have hc := completion_of_exec ht
      obtain ⟨hparams, _, _, _, _, _, _, hscript, _⟩ := hc.frame
      exact ⟨t, (engineTurn_of_decode hb hd).trans ht, hparams, hscript, hc.status_busy⟩

/-- Whether the events to come keep the host protocol. -/
def State.keepsProtocol (s : State) : Bool := hostProtocol s.params s.status.busy s.script

theorem State.keepsProtocol_of_script {s : State} {script : List Event} (h : s.script = script) :
    s.keepsProtocol = hostProtocol s.params s.status.busy script := by
  rw [State.keepsProtocol, h]

/-- The step from `s` takes the next event, and the other events keep the protocol exactly when those of `s` do. -/
def TakesEvent (s : State) : Prop :=
  ∃ t, step s = .next t ∧ t.script = s.script.tail ∧ t.keepsProtocol = s.keepsProtocol

/-- The step from `s` is a fault, and the events of `s` do not keep the protocol. -/
def Violates (s : State) : Prop := (∃ r, step s = .fault r) ∧ s.keepsProtocol = false

section
variable {s : State} {a : Access} {rest : List Event}

theorem takesEvent_of_step {t : State} {event : Event} (h : s.script = event :: rest) (hstep : step s = .next t)
    (hparams : t.params = s.params) (hscript : t.script = rest)
    (hprotocol : hostProtocol s.params s.status.busy (event :: rest) = hostProtocol s.params t.status.busy rest) :
    TakesEvent s :=
  ⟨t, hstep, by rw [hscript, h, List.tail_cons],
    by rw [State.keepsProtocol_of_script h, State.keepsProtocol_of_script hscript, hparams, hprotocol]⟩

theorem takesEvent_nil (h : s.script = []) : TakesEvent s := by
  obtain ⟨t, ht, _, hscript, _⟩ := engineTurn_ends_idle s
  rw [h] at hscript
  refine ⟨t, (step_nil h).trans ht, by rw [hscript, h, List.tail_nil], ?_⟩
  rw [State.keepsProtocol_of_script h, State.keepsProtocol_of_script hscript, hostProtocol, hostProtocol]

theorem takesEvent_engine (h : s.script = .engine :: rest) : TakesEvent s := by
  obtain ⟨t, ht, hparams, hscript, hidle⟩ := engineTurn_ends_idle { s with script := rest }
  exact takesEvent_of_step h ((step_engine h).trans ht) hparams hscript (by rw [hidle, hostProtocol])

theorem takesEvent_reset (h : s.script = .reset :: rest) : TakesEvent s :=
  takesEvent_of_step h (step_reset h) rfl rfl (by rw [hostProtocol]; rfl)

/-- While a command runs, a read of `STATUS` is the one access that is no violation. -/
theorem busy_access_takesEvent_or_violates (hb : s.status.busy = true) (h : s.script = .access a :: rest) :
    TakesEvent s ∨ Violates s := by
  by_cases ha : a = .regRead Reg.status.number
  · subst ha
    exact .inl (takesEvent_of_step h (step_rd_status h) rfl rfl (by simp [hostProtocol]))
  · refine .inr ⟨⟨_, step_of_busy_violation hb ha h⟩, ?_⟩
    rw [State.keepsProtocol_of_script h, hb, hostProtocol_of_busy_violation ha]

theorem violates_of_outOfRange {sp : Space} {i : Nat} (hb : s.status.busy = false) (hi : capacity s.params sp ≤ i)
    (ha : a = .bufRead sp i ∨ ∃ v, a = .bufWrite sp i v) (h : s.script = .access a :: rest) : Violates s :=
  ⟨⟨_, step_of_outOfRange hb hi ha h⟩, (State.keepsProtocol_of_script h).trans (hostProtocol_of_outOfRange hi ha)⟩

/-- While no command runs, only an index out of range is a violation. -/
theorem idle_access_takesEvent_or_violates (hb : s.status.busy = false) (h : s.script = .access a :: rest) :
    TakesEvent s ∨ Violates s := by
  cases a with
  | regWrite num v =>
    have hstep := step_regWrite hb h
    obtain ⟨_, _, _, _, _, hparams, hscript⟩ := hostAccess_frame ((step_access h).symm.trans hstep)
    refine .inl (takesEvent_of_step h hstep hparams hscript ?_)
    rw [State.writeNumber_busy, hb, Bool.or_false, hostProtocol, Bool.not_false, Bool.true_and]
  | regRead num => exact .inl (takesEvent_of_step h (step_regRead hb h) rfl rfl (by simp [hostProtocol, hb]))
  | bufWrite sp i v =>
    rcases lt_or_ge i (capacity s.params sp) with hi | hi
    · exact .inl (takesEvent_of_step h (step_bufWrite hb hi h) (s.storeElement_params sp i v) rfl
        (by simp [hostProtocol, hb, hi]))
    · exact .inr (violates_of_outOfRange hb hi (.inr ⟨v, rfl⟩) h)
  | bufRead sp i =>
    rcases lt_or_ge i (capacity s.params sp) with hi | hi
    · exact .inl (takesEvent_of_step h (step_bufRead hb hi h) rfl rfl (by simp [hostProtocol, hb, hi]))
    · exact .inr (violates_of_outOfRange hb hi (.inl rfl) h)

end

theorem step_takesEvent_or_violates (s : State) : TakesEvent s ∨ Violates s := by
  match h : s.script with
  | [] => exact .inl (takesEvent_nil h)
  | .engine :: _ => exact .inl (takesEvent_engine h)
  | .reset :: _ => exact .inl (takesEvent_reset h)
  | .access _ :: _ =>
    cases hb : s.status.busy with
    | true => exact busy_access_takesEvent_or_violates hb h
    | false => exact idle_access_takesEvent_or_violates hb h

/-- Events that keep the protocol lead to no fault, by induction on the number of steps. -/
theorem run_ne_fault_of_keepsProtocol (k : Nat) (r : Fault) :
    ∀ s : State, s.keepsProtocol = true → Host.Core.run Sys2Proof.core k s ≠ .fault r := by
  induction k with
  | zero => exact fun s _ hrun => nomatch hrun
  | succ k ih =>
    intro s hs
    rcases step_takesEvent_or_violates s with ⟨t, ht, _, hprotocol⟩ | ⟨_, hviolates⟩
    · rw [run_succ_of_step (M := Sys2Proof.core) k ht]
      exact ih t (hprotocol.trans hs)
    · exact absurd (hviolates.symm.trans hs) Bool.false_ne_true

theorem HostSafe.of_step {s t : State} (hs : HostSafe s) (h : step s = .next t) : HostSafe t := fun k r =>
  run_succ_of_step (M := Sys2Proof.core) k h ▸ hs (k + 1) r

theorem not_hostSafe_of_violates {s : State} (h : Violates s) : ¬ HostSafe s := fun hs =>
  h.1.elim fun r hr => hs 1 r (run_succ_of_fault (M := Sys2Proof.core) 0 hr)

/-- Where no run faults the events keep the protocol, by induction on the events. -/
theorem HostSafe.keepsProtocol (script : List Event) :
    ∀ s : State, s.script = script → HostSafe s → s.keepsProtocol = true := by
  induction script with
  | nil => exact fun s h _ => State.keepsProtocol_of_script h
  | cons event rest ih =>
    intro s h hsafe
    rcases step_takesEvent_or_violates s with ⟨t, ht, hscript, hprotocol⟩ | hviolates
    · exact hprotocol.symm.trans (ih t (by rw [hscript, h, List.tail_cons]) (hsafe.of_step ht))
    · exact absurd hsafe (not_hostSafe_of_violates hviolates)

/-- Settles O13: one direction by induction on the events, the other on the number of steps. -/
theorem protocolDecidesHostSafety : Obligations.ProtocolDecidesHostSafety := fun s =>
  ⟨HostSafe.keepsProtocol s.script s rfl, fun hs k r => run_ne_fault_of_keepsProtocol k r s hs⟩

end Sys2Proof.Machine
